-- ==== Sys2Proof/Word.lean ====
section
/-!
DEFINITION. The two bit-vector types of the block: a 32-bit host register or command word (R8, R61) and one byte (R9).
-/
namespace Sys2Proof

/-- A host register, a command word, a wire length or a CRC: 32 bits, unsigned (R8). -/
abbrev Word := BitVec 32

/-- A byte value, 0..255 (R9). -/
abbrev Byte := BitVec 8

end Sys2Proof
end

