-- ==== Sys2Proof/Config.lean ====
section
/-!
DEFINITION. What an implementation fixes (the capacities of R7 and the base addresses of R72), and the free values:
what a host read returns where the spec says "any value".
-/
namespace Sys2Proof

/-- The implementation parameters. R7 names the four capacities, and R72 the three base addresses.
They are arguments of the model: every statement quantifies over them, no step changes them. -/
structure Config where
  /-- IN_CAP: bytes in the input buffer, read in CAP_IN (R7, R37). -/
  inCap : Nat
  /-- OUT_CAP: bytes in the output buffer, read in CAP_OUT (R7, R37). -/
  outCap : Nat
  /-- MAX_CHUNKS: the largest length of the chunk store, read in CAP_CHUNKS (R7, R37). -/
  maxChunks : Nat
  /-- STORE_CAP: the largest total payload of the chunk store, read in CAP_STORE (R7, R37). -/
  storeCap : Nat
  /-- FRAMER_REG_BASE: where the platform places the REG window (R72, U5). -/
  regBase : Nat
  /-- FRAMER_IN_BASE: where the platform places the IN window (R72, U5). -/
  inBase : Nat
  /-- FRAMER_OUT_BASE: where the platform places the OUT window (R72, U5). -/
  outBase : Nat
  deriving DecidableEq, Repr

/-- The parameters of the reset state: the capacities that spec/95_test_vectors.md gives as its example of
"large enough" (4096, 4096, 64, 4096). DESIGN CHOICE (log 1), unsafe for a claim that uses the numbers. -/
def Config.default : Config where
  inCap := 4096
  outCap := 4096
  maxChunks := 64
  storeCap := 4096
  regBase := 0x00000
  inBase := 0x10000
  outBase := 0x20000

/-- FREE VALUE: what a host read of a result or error register returns while BUSY = 1 (R28, R285, U11).
The argument is the state's `epoch`. -/
opaque Config.freeWord : Nat → BitVec 32

/-- FREE VALUE: what a host read of the IN byte at an index returns when its written bit is clear (R62, U8).
The arguments are the state's `epoch` and the index. -/
opaque Config.freeIn : Nat → Nat → BitVec 8

/-- FREE VALUE: what a host read of the OUT byte at an index returns at or beyond OUT_LEN, or while BUSY = 1
(R43, R63, U10). The arguments are the state's `epoch` and the index. -/
opaque Config.freeOut : Nat → Nat → BitVec 8

end Sys2Proof
end

