-- ==== Sys2Proof/Syntax.lean ====
section
/-!
DEFINITION. The commands of the block (one constructor per row of spec/opcode_table.json), and the host's half of the
language: the accesses of R61-R63, the events that reach the block, and the assembler lines of R86.
-/
namespace Sys2Proof

/-- The 25 commands (R84). A command word carries no operand: operands live in ARG, IN_LEN, IN, TR, CR and CL (R80, R83). -/
inductive Instr where
  /-- TC_FROM_BYTES (R122) -/
  | tcFromBytes
  /-- TC_FROM_STRING (R123) -/
  | tcFromString
  /-- TC_IS_VALID (R125) -/
  | tcIsValid
  /-- TC_IS_CRITICAL (R126) -/
  | tcIsCritical
  /-- TC_IS_PUBLIC (R127) -/
  | tcIsPublic
  /-- TC_IS_RESERVED_BIT_VALID (R128) -/
  | tcIsReservedBitValid
  /-- TC_IS_SAFE_TO_COPY (R129) -/
  | tcIsSafeToCopy
  /-- TC_TO_STRING (R130) -/
  | tcToString
  /-- TC_BYTES (R131) -/
  | tcBytes
  /-- CH_NEW (R153) -/
  | chNew
  /-- CH_PARSE (R154) -/
  | chParse
  /-- CH_SERIALIZE (R155) -/
  | chSerialize
  /-- CH_LENGTH (R156) -/
  | chLength
  /-- CH_CRC (R157) -/
  | chCrc
  /-- CH_TYPE (R158) -/
  | chType
  /-- CH_PAYLOAD (R159) -/
  | chPayload
  /-- CH_PAYLOAD_AS_TEXT (R161) -/
  | chPayloadAsText
  /-- PNG_CLEAR (R203) -/
  | pngClear
  /-- PNG_PARSE (R204) -/
  | pngParse
  /-- PNG_SERIALIZE (R205) -/
  | pngSerialize
  /-- PNG_APPEND (R206) -/
  | pngAppend
  /-- PNG_CHUNK_BY_TYPE (R208) -/
  | pngChunkByType
  /-- PNG_REMOVE (R209) -/
  | pngRemove
  /-- PNG_COUNT (R210) -/
  | pngCount
  /-- PNG_GET (R211) -/
  | pngGet
  deriving DecidableEq, Repr

/-- One host access (R61, R62, R63). `size` is its width in bytes, so that an access of a wrong width can be written
down; the access then is a HostFault (R262). -/
inductive HostAccess where
  /-- read `size` bytes of REG at a byte offset -/
  | readReg (offset size : Nat)
  /-- write `size` bytes of REG at a byte offset -/
  | writeReg (offset size : Nat) (value : Word)
  /-- read `size` bytes of IN at an index -/
  | readIn (index size : Nat)
  /-- write `size` bytes of IN at an index -/
  | writeIn (index size : Nat) (value : Byte)
  /-- read `size` bytes of OUT at an index -/
  | readOut (index size : Nat)
  /-- write `size` bytes of OUT at an index -/
  | writeOut (index size : Nat) (value : Byte)
  deriving DecidableEq, Repr

/-- What the outside world does to the block, one at a time: the host's accesses (R19), the host's own control between
them (R86: polling, and the copy loop of COPYOUT), and the reset input (R280). -/
inductive HostEvent where
  /-- one access -/
  | access (a : HostAccess)
  /-- read STATUS, again and again until it shows BUSY = 0 (WAIT, R86) -/
  | poll
  /-- write the byte that the host's last read returned to IN at this index (COPYOUT, R86) -/
  | storeRead (index : Nat)
  /-- the host takes its last read value k as OUT_LEN, and goes on to copy k bytes and set IN_LEN to k (COPYOUT, R86) -/
  | copyLoop
  /-- the platform asserts the reset input (R280) -/
  | reset
  deriving DecidableEq, Repr

/-- One line of a host program (R86). A comment line expands to nothing. -/
inductive HostLine where
  /-- `MNEMONIC` -/
  | command (i : Instr)
  /-- `MNEMONIC imm`, for TC_FROM_BYTES and PNG_GET; `TC_FROM_BYTES "abcd"` is this line with `imm = be32("abcd")` -/
  | commandImm (i : Instr) (imm : Word)
  /-- `LOADIN [b0, b1, ...]` or `LOADIN "text"` -/
  | loadIn (bytes : List Byte)
  /-- `SETLEN n` -/
  | setLen (n : Word)
  /-- `COPYOUT` -/
  | copyOut
  /-- `WAIT` -/
  | wait
  /-- `; text` -/
  | comment
  deriving DecidableEq, Repr

end Sys2Proof
end

