-- ==== Sys2Proof/Machine/State.lean ====
section
/-!
DEFINITION. The state of the block: the record of R20 field by field, the implementation parameters (R7), and the
model's own picture of the outside world; the outcomes a command can have; and the state after reset (R281).
-/
namespace Sys2Proof.Machine

/-- A sequence of exactly 4 bytes, in order. It is a type code (R120), or the 4 bytes of a wire field (R66). -/
structure Bytes4 where
  b0 : Byte
  b1 : Byte
  b2 : Byte
  b3 : Byte
  deriving DecidableEq, Repr

/-- A chunk-type code (R120). Equality is equality of the 4 bytes, case-sensitive. -/
abbrev TypeCode := Bytes4

/-- A chunk value, the pair `(type, payload)` of R150. Length and CRC are never stored (R48). -/
structure Chunk where
  type : TypeCode
  payload : List Byte
  deriving DecidableEq, Repr

/-- A byte memory: its written bytes with their indices, indices strictly rising (the canonical form of
`Memory.wf`). An index that is not listed holds no specified byte: its written bit is clear (R42), or the byte is one
of OUT that R43 leaves unspecified. -/
abbrev Memory := List Host.Cell

/-- STATUS (R23). The reserved bits 7:5 and 31:16 read 0, so they are no field here; `Status.toWord` is the register. -/
structure Status where
  /-- bit 0 -/
  busy : Bool
  /-- bit 1 -/
  done : Bool
  /-- bit 2 -/
  err : Bool
  /-- bit 3 -/
  trValid : Bool
  /-- bit 4 -/
  crValid : Bool
  /-- bits 15:8 -/
  ecode : BitVec 8
  deriving DecidableEq, Repr

/-- ERR_FLAGS (R35). The reserved bits 31:4 read 0, so they are no field here; `ErrFlags.toWord` is the register. -/
structure ErrFlags where
  /-- bit 0 -/
  posValid : Bool := false
  /-- bit 1 -/
  lenUnread : Bool := false
  /-- bits 3:2 -/
  capKind : BitVec 2 := 0
  deriving DecidableEq, Repr

/-- The error kinds of R95, in the order of their codes. -/
inductive ErrorKind where
  | invalidTypeBytes
  | invalidTypeString
  | nonUtf8TypeBytes
  | truncatedInput
  | invalidChunkType
  | crcMismatch
  | nonUtf8Payload
  | badSignature
  | unexpectedTrailingBytes
  | chunkNotFound
  | illegalCommand
  | noTypeOperand
  | noChunkOperand
  | capacityExceeded
  | indexOutOfRange
  deriving DecidableEq, Repr

/-- `raise <Error>(A, B, POS, INDEX, FLAGS)` (R12). An omitted information field is 0. -/
structure ErrorInfo where
  kind : ErrorKind
  a : Word := 0
  b : Word := 0
  pos : Word := 0
  index : Word := 0
  flags : ErrFlags := ⟨false, false, 0⟩
  deriving DecidableEq, Repr

/-- The model faults (R52, R262, R263). They are not error codes of the hardware. -/
inductive ModelFault where
  /-- the host broke the access protocol (R262) -/
  | hostFault
  /-- the framer read an IN byte whose written bit is clear (R64) -/
  | uninitInput
  deriving DecidableEq, Repr

/-- FAULT, the set of model faults raised so far (R52): one membership bit per element. -/
structure FaultSet where
  hostFault : Bool
  uninitInput : Bool
  deriving DecidableEq, Repr

/-- Why a command's computation ends early: an error of the block, or a model fault (the three cases of R251 are
`Except.ok`, `Stop.raise` and `Stop.fault`). -/
inductive Stop where
  /-- the command ends with an error (R252) -/
  | raise (e : ErrorInfo)
  /-- the command does not complete (R263) -/
  | fault (f : ModelFault)
  deriving DecidableEq, Repr

/-- The outside world and the model's own counter. None of it is state of the block (R20: "Nothing else is state"). -/
structure Env where
  /-- what the host and the reset input do next, oldest first -/
  script : List HostEvent
  /-- for each submission to come, how many host accesses happen before the framer completes it (R251, R293: finite and
  unspecified). The head is taken at a submission. A missing entry is 0: the framer step is taken at once (D10). -/
  delays : List Nat
  /-- how many host accesses still come before the framer completes the pending command -/
  wait : Nat
  /-- what the host's last answered read returned -/
  readData : Word
  /-- the counter that the free values of `Config` are applied to. It advances at every submission, at every
  completion, at every reset and, while BUSY = 1, at every read that returns a free value (R71; log 4). -/
  epoch : Nat
  deriving DecidableEq, Repr

/-- The state of the block, in the order of R20's record, and then the parameters and the outside world.
NCHUNKS, STORE_USED, CAP_* and ID are views (R20); `regView` computes them. -/
structure State where
  /-- CMD: last accepted command word (R21) -/
  cmd : Word
  /-- ARG: command operand (R22) -/
  arg : Word
  /-- STATUS (R23) -/
  status : Status
  /-- RESULT: command result (R28) -/
  result : Word
  /-- AUX: second command result (R29) -/
  aux : Word
  /-- IN_LEN: length of the input in IN (R30) -/
  inLen : Word
  /-- OUT_LEN: length of the output in OUT (R31) -/
  outLen : Word
  /-- ERR_A: error information (R34) -/
  errA : Word
  /-- ERR_B: error information (R34) -/
  errB : Word
  /-- ERR_FLAGS: error information flags (R35) -/
  errFlags : ErrFlags
  /-- ERR_POS: error byte position (R36) -/
  errPos : Word
  /-- ERR_INDEX: error chunk index (R36) -/
  errIndex : Word
  /-- TR: type register (R39) -/
  tr : TypeCode
  /-- CR: chunk register (R40) -/
  cr : Chunk
  /-- CL: chunk store (R41) -/
  cl : List Chunk
  /-- IN: input buffer; a listed index has its written bit set (R42) -/
  inBuf : Memory
  /-- OUT: output buffer; a listed index holds a specified byte (R43) -/
  outBuf : Memory
  /-- PENDING: command accepted, not completed (R44) -/
  pending : Option Word
  /-- FAULT: model faults raised so far (R52) -/
  fault : FaultSet
  /-- the implementation parameters (R7, R72) -/
  cfg : Config
  /-- the outside world -/
  env : Env
  deriving DecidableEq, Repr

/-- Why a step answers no next state. -/
inductive Fault where
  /-- Raised by `step` alone, when FAULT is not empty and nothing is left that the host does: "once FAULT is non-empty
  no command completes, and no final state is reached" (U16, R263). Safe: the model stops where hardware goes on in a
  way the spec does not give. -/
  | modelFaulted
  deriving DecidableEq, Repr

/-- Why an instruction has no meaning here. -/
inductive Refusal where
  /-- An instruction of the table that `exec` does not model yet, by its mnemonic. No arm of `exec` answers it. Safe. -/
  | notModelled (mnemonic : String)
  deriving DecidableEq, Repr

/-- STATUS at reset (R281): every field 0. -/
def Status.reset : Status := ⟨false, false, false, false, false, 0⟩

/-- The outside world before anything has happened. -/
def Env.reset : Env where
  script := []
  delays := []
  wait := 0
  readData := 0
  epoch := 0

/-- The block with parameters `cfg` right after reset, in an outside world `env` (R281).
TR and CR hold no value at reset (U6, U7); the bytes here are a DESIGN CHOICE (log 2), and no command reads them. -/
def State.resetWith (cfg : Config) (env : Env) : State where
  cmd := 0
  arg := 0
  status := Status.reset
  result := 0
  aux := 0
  inLen := 0
  outLen := 0
  errA := 0
  errB := 0
  errFlags := ⟨false, false, 0⟩
  errPos := 0
  errIndex := 0
  tr := ⟨0, 0, 0, 0⟩
  cr := ⟨⟨0, 0, 0, 0⟩, []⟩
  cl := []
  inBuf := []
  outBuf := []
  pending := none
  fault := ⟨false, false⟩
  cfg := cfg
  env := env

/-- The machine right after reset (R280, R281), with the parameters of `Config.default`. -/
def State.reset : State := State.resetWith Config.default Env.reset

end Sys2Proof.Machine
end

