-- ==== Sys2Proof/Machine/Bytes.lean ====
section
/-!
DEFINITION. Byte order (R66, R67, R96) and saturation (R12).
-/
namespace Sys2Proof.Machine

/-- R12 `be32`: the big-endian value of 4 bytes. R96 packs a type code the same way. -/
def be32 (s : Bytes4) : Word := s.b0 ++ s.b1 ++ s.b2 ++ s.b3

/-- R12 `bytes_be32`: `[v[31:24], v[23:16], v[15:8], v[7:0]]`. -/
def bytesBe32 (v : Word) : Bytes4 :=
  ⟨v.extractLsb' 24 8, v.extractLsb' 16 8, v.extractLsb' 8 8, v.extractLsb' 0 8⟩

/-- The 4 bytes in order. -/
def Bytes4.toList (s : Bytes4) : List Byte := [s.b0, s.b1, s.b2, s.b3]

/-- R12 `sat32`: an exact count put into a 32-bit register. -/
def sat32 (x : Nat) : Word := BitVec.ofNat 32 (min x (2 ^ 32 - 1))

/-- A number that the rules keep below 2^32, in a 32-bit register (R28: a length, a count or an index). -/
def word (x : Nat) : Word := BitVec.ofNat 32 x

end Sys2Proof.Machine
end

