-- ==== Sys2Proof/Machine/Crc.lean ====
section
/-!
DEFINITION. The checksum CRC-32/ISO-HDLC (R90), as the spec's pseudocode computes it.
-/
namespace Sys2Proof.Machine

/-- One of the 8 inner steps of R90. -/
def crcBit (c : Word) : Word := if c.getLsbD 0 then (c >>> 1) ^^^ 0xEDB88320#32 else c >>> 1

/-- One byte of R90: XOR it into the low byte, then 8 inner steps. -/
def crcByte (c : Word) (b : Byte) : Word := Nat.repeat crcBit 8 (c ^^^ b.setWidth 32)

/-- R90 `crc32`. -/
def crc32 (s : List Byte) : Word := s.foldl crcByte 0xFFFFFFFF#32 ^^^ 0xFFFFFFFF#32

/-- R150: the CRC of a chunk covers the 4 type bytes and the payload bytes, and no others (R92). -/
def chunkCrc (c : Chunk) : Word := crc32 (c.type.toList ++ c.payload)

end Sys2Proof.Machine
end

