-- ==== Sys2Proof/Machine/Flags.lean ====
section
/-!
DEFINITION. Everything that is a bit or a code: the character classes (R13), the predicates of a type code (R121, R124),
the fields of STATUS and ERR_FLAGS as register words (R23, R35), the error codes (R95) and the FAULT set (R52).
-/
namespace Sys2Proof.Machine

/-- R13: `0x41 <= b <= 0x5A` or `0x61 <= b <= 0x7A`. -/
def alphabetic (b : Byte) : Bool :=
  (0x41 ≤ b.toNat && b.toNat ≤ 0x5A) || (0x61 ≤ b.toNat && b.toNat ≤ 0x7A)

/-- R13: for an alphabetic byte, `b[5] = 0`. (On other bytes, which no reachable TR holds by R45: log 8.) -/
def upper (b : Byte) : Bool := !b.getLsbD 5

/-- R13: for an alphabetic byte, `b[5] = 1`. (On other bytes: log 8.) -/
def lower (b : Byte) : Bool := b.getLsbD 5

/-- All 4 bytes are alphabetic: a constructible type code (R14, R45, R46). -/
def constructible (t : Bytes4) : Bool :=
  alphabetic t.b0 && alphabetic t.b1 && alphabetic t.b2 && alphabetic t.b3

/-- R121: the first index whose byte is not alphabetic. -/
def firstBadIndex (t : Bytes4) : Option Nat :=
  if !alphabetic t.b0 then some 0
  else if !alphabetic t.b1 then some 1
  else if !alphabetic t.b2 then some 2
  else if !alphabetic t.b3 then some 3
  else none

/-- R124: the validity predicate. -/
def isValid (t : TypeCode) : Bool :=
  alphabetic t.b0 && alphabetic t.b1 && alphabetic t.b2 && alphabetic t.b3 && upper t.b2

/-- A predicate result, 0 or 1 (R28). -/
def boolWord (p : Bool) : Word := if p then 1 else 0

/-- The STATUS register of R23: bits 7:5 and 31:16 read 0. -/
def Status.toWord (s : Status) : Word :=
  (0 : BitVec 16) ++ s.ecode ++ (0 : BitVec 3) ++ BitVec.ofBool s.crValid ++ BitVec.ofBool s.trValid
    ++ BitVec.ofBool s.err ++ BitVec.ofBool s.done ++ BitVec.ofBool s.busy

/-- The ERR_FLAGS register of R35: bits 31:4 read 0. -/
def ErrFlags.toWord (f : ErrFlags) : Word :=
  (0 : BitVec 28) ++ f.capKind ++ BitVec.ofBool f.lenUnread ++ BitVec.ofBool f.posValid

/-- R95: the ECODE value of each error. -/
def ErrorKind.code : ErrorKind → BitVec 8
  | .invalidTypeBytes => 0x01
  | .invalidTypeString => 0x02
  | .nonUtf8TypeBytes => 0x03
  | .truncatedInput => 0x04
  | .invalidChunkType => 0x05
  | .crcMismatch => 0x06
  | .nonUtf8Payload => 0x07
  | .badSignature => 0x08
  | .unexpectedTrailingBytes => 0x09
  | .chunkNotFound => 0x0A
  | .illegalCommand => 0x10
  | .noTypeOperand => 0x11
  | .noChunkOperand => 0x12
  | .capacityExceeded => 0x13
  | .indexOutOfRange => 0x14

/-- FAULT is empty (R52). -/
def FaultSet.isEmpty (f : FaultSet) : Bool := !f.hostFault && !f.uninitInput

/-- FAULT ∪ {f} (R251). -/
def FaultSet.add (s : FaultSet) : ModelFault → FaultSet
  | .hostFault => { s with hostFault := true }
  | .uninitInput => { s with uninitInput := true }

/-- f ∈ FAULT (R52). -/
def FaultSet.has (s : FaultSet) : ModelFault → Bool
  | .hostFault => s.hostFault
  | .uninitInput => s.uninitInput

end Sys2Proof.Machine
end

