-- ==== Sys2Proof/Machine/Memory.lean ====
section
/-!
DEFINITION. The byte memories IN and OUT (R42, R43): reading one byte, writing one byte, writing a sequence, and the
canonical form.
-/
namespace Sys2Proof.Machine

/-- The byte at an index, or none where no specified byte is: in IN its written bit is clear (R42), in OUT the byte is
unspecified (R43). -/
def Memory.read? : Memory → Nat → Option Byte
  | [], _ => none
  | (i, b) :: m, a => if i = a then some b else Memory.read? m a

/-- Write one byte. The list stays sorted by index, and an index is listed once. -/
def Memory.write : Memory → Nat → Byte → Memory
  | [], a, v => [(a, v)]
  | (i, b) :: m, a, v =>
    if a < i then (a, v) :: (i, b) :: m
    else if a = i then (a, v) :: m
    else (i, b) :: Memory.write m a v

/-- The memory that holds a sequence from index `a` on, and no other specified byte. -/
def Memory.holding : Nat → List Byte → Memory
  | _, [] => []
  | a, b :: bs => (a, b) :: Memory.holding (a + 1) bs

/-- The canonical form: indices strictly rising. (An unlisted index reads as no byte, so no entry can equal it.) -/
def Memory.wf : Memory → Bool
  | [] => true
  | (i, _) :: m => m.all (fun c => i < c.1) && Memory.wf m

end Sys2Proof.Machine
end

