-- ==== Sys2Proof/Machine/Ops.lean ====
section
/-!
DEFINITION. The shared operations: the writes a command can make, success completion (R253), error completion (R252,
the block's one way of reporting an exception; there is no return from it, R265), the model fault (R263), and the
reads of IN (R64, R65).
-/
namespace Sys2Proof.Machine

/-- TR <- t, TR_VALID <- 1 (R27, R39). -/
def State.writeTr (s : State) (t : TypeCode) : State :=
  { s with tr := t, status := { s.status with trValid := true } }

/-- CR <- c, CR_VALID <- 1 (R27, R40). -/
def State.writeCr (s : State) (c : Chunk) : State :=
  { s with cr := c, status := { s.status with crValid := true } }

/-- CL <- l (R41). -/
def State.writeCl (s : State) (l : List Chunk) : State := { s with cl := l }

/-- RESULT <- v (R28). -/
def State.writeResult (s : State) (v : Word) : State := { s with result := v }

/-- AUX <- v (R29). -/
def State.writeAux (s : State) (v : Word) : State := { s with aux := v }

/-- MemWrite(OUT, 0, len(bs), bs), with OUT_LEN <- len(bs) (R12, R43). Bytes of OUT from len(bs) on are then unspecified. -/
def State.writeOut (s : State) (bs : List Byte) : State :=
  { s with outBuf := Memory.holding 0 bs, outLen := word bs.length }

/-- R251 `finish`: PENDING <- none, BUSY <- 0, DONE <- 1. The model's counter advances (R71). -/
def State.finish (s : State) : State :=
  { s with
    pending := none
    status := { s.status with busy := false, done := true }
    env := { s.env with epoch := s.env.epoch + 1 } }

/-- R253, success completion: ERR, ECODE and every error register become 0, and the command finishes. -/
def State.completeOk (s : State) : State :=
  State.finish { s with
    status := { s.status with err := false, ecode := 0 }
    errA := 0
    errB := 0
    errFlags := ⟨false, false, 0⟩
    errPos := 0
    errIndex := 0 }

/-- R252, error completion: ERR, ECODE and the error registers take the error, nothing else changes, and the command
finishes. This is all that an exception of this block does (R250). -/
def State.completeErr (s : State) (e : ErrorInfo) : State :=
  State.finish { s with
    status := { s.status with err := true, ecode := e.kind.code }
    errA := e.a
    errB := e.b
    errFlags := e.flags
    errPos := e.pos
    errIndex := e.index }

/-- R251, R263: FAULT <- FAULT ∪ {f}. Nothing finishes: PENDING stays, BUSY stays, DONE is unchanged. -/
def State.recordFault (s : State) (f : ModelFault) : State := { s with fault := s.fault.add f }

/-- R251: what the framer does with a command's outcome. All writes of a success happen here, together (R70, R260). -/
def commit (s : State) (r : Except Stop State) : Host.Outcome State Fault Refusal :=
  match r with
  | .ok t => .next t.completeOk
  | .error (.raise e) => .next (s.completeErr e)
  | .error (.fault f) => .next (s.recordFault f)

/-- `raise` (R12). -/
def raise {α : Type} (e : ErrorInfo) : Except Stop α := .error (.raise e)

/-- `if p: raise e` (R12). -/
def failIf (p : Prop) [Decidable p] (e : ErrorInfo) : Except Stop Unit := if p then raise e else .ok ()

/-- The error CapacityExceeded of a kind: ERR_A is `sat32` of the required amount and ERR_B the limit (R254, R256). -/
def capacityError (kind : BitVec 2) (required limit : Nat) : ErrorInfo :=
  { kind := .capacityExceeded, a := sat32 required, b := word limit, flags := ⟨false, false, kind⟩ }

/-- R256: CapacityExceeded unless the required amount is within the limit. -/
def checkCapacity (kind : BitVec 2) (required limit : Nat) : Except Stop Unit :=
  failIf (limit < required) (capacityError kind required limit)

/-- A framer read of one IN byte: UninitInput where the written bit is clear (R64). -/
def readByte (m : Memory) (a : Nat) : Except Stop Byte :=
  match m.read? a with
  | some b => .ok b
  | none => .error (.fault .uninitInput)

/-- MemRead(IN, a, n) (R12): bytes a, ..., a+n-1, read in that order (R64). -/
def memRead (m : Memory) (a : Nat) : Nat → Except Stop (List Byte)
  | 0 => .ok []
  | n + 1 => do
    let b ← readByte m a
    let bs ← memRead m (a + 1) n
    return b :: bs

/-- MemRead(IN, a, 4), as 4 bytes. -/
def memRead4 (m : Memory) (a : Nat) : Except Stop Bytes4 := do
  let b0 ← readByte m a
  let b1 ← readByte m (a + 1)
  let b2 ← readByte m (a + 2)
  let b3 ← readByte m (a + 3)
  return ⟨b0, b1, b2, b3⟩

/-- Output a sequence: CapacityExceeded kind 1 if it does not fit OUT (R256), else MemWrite(OUT, 0, len, bs). -/
def emit (s : State) (bs : List Byte) : Except Stop State := do
  checkCapacity 1 bs.length s.cfg.outCap
  return s.writeOut bs

/-- R33: the total payload bytes of a chunk list. -/
def storeBytes (l : List Chunk) : Nat := (l.map fun c => c.payload.length).sum

/-- R255: the error of a word that is no command. -/
def illegalCommand (w : Word) : ErrorInfo := { kind := .illegalCommand, a := w }

end Sys2Proof.Machine
end

