-- ==== Sys2Proof/Machine/Codec.lean ====
section
/-!
DEFINITION. The wire format, as functions that the commands share: `from_bytes` (R121), `record` (R151), `chunk_parse`
(R152), the stream (R93), `check_signature` (R201) and `container_parse` (R202).
-/
namespace Sys2Proof.Machine

/-- R121 `from_bytes`: InvalidTypeBytes with the first failing index. -/
def fromBytes (t : Bytes4) : Except Stop TypeCode :=
  match firstBadIndex t with
  | some i => raise { kind := .invalidTypeBytes, a := be32 t, b := word i }
  | none => .ok t

/-- R151 `record`: length, type, payload and a freshly computed CRC (R87). -/
def record (c : Chunk) : List Byte :=
  (bytesBe32 (word c.payload.length)).toList ++ c.type.toList ++ c.payload ++ (bytesBe32 (chunkCrc c)).toList

/-- R152 `chunk_parse(base, n)`: the record at IN[base], where the input has `n` bytes from there on. The answer is the
chunk and the bytes consumed. The truncation test is exact (R10, R291). -/
def chunkParse (m : Memory) (base n : Nat) : Except Stop (Chunk × Nat) := do
  failIf (n < 4) { kind := .truncatedInput, flags := ⟨false, true, 0⟩ }
  let lenField ← memRead4 m base
  let len := (be32 lenField).toNat
  failIf (n - 4 < len + 8) { kind := .truncatedInput, a := be32 lenField, b := word (n - 4) }
  let typeField ← memRead4 m (base + 4)
  let t ← fromBytes typeField
  failIf (isValid t = false) { kind := .invalidChunkType, a := be32 t }
  let payload ← memRead m (base + 8) len
  let stored ← memRead4 m (base + 8 + len)
  failIf (chunkCrc ⟨t, payload⟩ ≠ be32 stored) { kind := .crcMismatch, a := chunkCrc ⟨t, payload⟩, b := be32 stored }
  return (⟨t, payload⟩, 12 + len)

/-- R89: the container signature SIG. -/
def signature : List Byte := [0x89, 0x50, 0x4E, 0x47, 0x0D, 0x0A, 0x1A, 0x0A]

/-- R93: the stream of a chunk list. -/
def stream (l : List Chunk) : List Byte := signature ++ l.flatMap record

/-- R201 `check_signature`. Fewer than 8 input bytes are refused before any byte is read. -/
def checkSignature (m : Memory) (n : Nat) : Except Stop Unit := do
  failIf (n < 8) { kind := .badSignature }
  let first ← memRead m 0 8
  failIf (first ≠ signature) { kind := .badSignature }

/-- R202: an error of `chunk_parse` inside a stream is annotated with its position and its chunk index. A model fault
is not. -/
def annotate (pos index : Nat) : Stop → Stop
  | .raise e => .raise { e with pos := word pos, index := word index, flags := { e.flags with posValid := true } }
  | .fault f => .fault f

/-- R202: the loop of `container_parse` at offset `pos`, with `list` parsed so far. `fuel` bounds the iterations; it never
runs out, since an iteration consumes at least 12 bytes (`containerLoop_fuel` in Sys2Proof/Laws/Codec.lean). -/
def containerLoop (m : Memory) (n : Nat) : (fuel pos : Nat) → (list : List Chunk) → Except Stop (List Chunk)
  | 0, _, list => .ok list
  | fuel + 1, pos, list =>
    if pos < n then
      if n - pos < 12 then
        raise { kind := .unexpectedTrailingBytes, a := word (n - pos), pos := word pos, index := word list.length,
                flags := ⟨true, false, 0⟩ }
      else
        match chunkParse m pos (n - pos) with
        | .ok (c, used) => containerLoop m n fuel (pos + used) (list ++ [c])
        | .error e => .error (annotate pos list.length e)
    else .ok list

/-- R202 `container_parse(n)`. -/
def containerParse (m : Memory) (n : Nat) : Except Stop (List Chunk) := do
  checkSignature m n
  containerLoop m n n 8 []

/-- R207 `first_match`: the least index of a chunk whose type equals the query, byte for byte. -/
def firstMatch (l : List Chunk) (q : Option Bytes4) : Option Nat :=
  match q with
  | none => none
  | some t => l.findIdx? fun c => c.type = t

end Sys2Proof.Machine
end

