-- ==== Sys2Proof/Machine/Operands.lean ====
section
/-!
DEFINITION. The operand forms of R83, one definition each, with the checks that come with reading them (R256 kind 0,
R257). `CL` is read directly, as `s.cl`.
-/
namespace Sys2Proof.Machine

/-- `ARG:type`: the 4 type bytes `bytes_be32(ARG)`, byte 0 from ARG[31:24]. -/
def argType (s : State) : Bytes4 := bytesBe32 s.arg

/-- `ARG:index`: ARG as an unsigned chunk index. -/
def argIndex (s : State) : Nat := s.arg.toNat

/-- The input length IN_LEN (R30), after the check `IN_LEN <= IN_CAP` that comes before any IN byte is read
(CapacityExceeded kind 0, R256). -/
def inputLength (s : State) : Except Stop Nat := do
  checkCapacity 0 s.inLen.toNat s.cfg.inCap
  return s.inLen.toNat

/-- `IN:payload`: all the input bytes. -/
def inPayload (s : State) : Except Stop (List Byte) := do
  let n ← inputLength s
  memRead s.inBuf 0 n

/-- `IN:string` where a type string is asked for: InvalidTypeString unless it is 4 bytes long, and no byte is read
then (R123). -/
def inTypeString (s : State) : Except Stop Bytes4 := do
  let n ← inputLength s
  if n = 4 then memRead4 s.inBuf 0
  else raise { kind := .invalidTypeString, a := word n }

/-- `IN:string` where it is a query: none unless it is 4 bytes long, and no byte is read then (R207). -/
def query (s : State) : Except Stop (Option Bytes4) := do
  let n ← inputLength s
  if n = 4 then
    let q ← memRead4 s.inBuf 0
    return some q
  else return none

/-- `TR`, where NoTypeOperand is raised while TR_VALID = 0 (R257). -/
def operandTr (s : State) : Except Stop TypeCode :=
  if s.status.trValid then .ok s.tr else raise { kind := .noTypeOperand }

/-- `CR`, where NoChunkOperand is raised while CR_VALID = 0 (R257). -/
def operandCr (s : State) : Except Stop Chunk :=
  if s.status.crValid then .ok s.cr else raise { kind := .noChunkOperand }

end Sys2Proof.Machine
end

