-- ==== Sys2Proof/Machine/Utf8.lean ====
section
/-!
DEFINITION. Well-formed UTF-8 (R160): the table of forms, and how far a payload is well formed.
-/
namespace Sys2Proof.Machine

/-- R160's table. A form is the list of its bytes' ranges, each with its least and its greatest byte. -/
def utf8Forms : List (List (Nat × Nat)) :=
  [ [(0x00, 0x7F)],
    [(0xC2, 0xDF), (0x80, 0xBF)],
    [(0xE0, 0xE0), (0xA0, 0xBF), (0x80, 0xBF)],
    [(0xE1, 0xEC), (0x80, 0xBF), (0x80, 0xBF)],
    [(0xED, 0xED), (0x80, 0x9F), (0x80, 0xBF)],
    [(0xEE, 0xEF), (0x80, 0xBF), (0x80, 0xBF)],
    [(0xF0, 0xF0), (0x90, 0xBF), (0x80, 0xBF), (0x80, 0xBF)],
    [(0xF1, 0xF3), (0x80, 0xBF), (0x80, 0xBF), (0x80, 0xBF)],
    [(0xF4, 0xF4), (0x80, 0x8F), (0x80, 0xBF), (0x80, 0xBF)] ]

/-- A sequence begins with bytes of a form. -/
def matchesForm : List (Nat × Nat) → List Byte → Bool
  | [], _ => true
  | _ :: _, [] => false
  | (lo, hi) :: f, b :: s => lo ≤ b.toNat && b.toNat ≤ hi && matchesForm f s

/-- The length of the form that a sequence begins with, if it begins with one. -/
def utf8FormLength (s : List Byte) : Option Nat :=
  (utf8Forms.find? fun f => matchesForm f s).map List.length

/-- The left-to-right split, with as many forms as `fuel` allows: the index where it first fails. -/
def validUpToFrom : Nat → List Byte → Nat
  | 0, _ => 0
  | fuel + 1, s =>
    match utf8FormLength s with
    | none => 0
    | some k => k + validUpToFrom fuel (s.drop k)

/-- R160 `valid_up_to`. A form has at least one byte, so a sequence splits into at most as many forms as it has bytes. -/
def validUpTo (s : List Byte) : Nat := validUpToFrom s.length s

end Sys2Proof.Machine
end

