-- ==== Sys2Proof/Machine/ChunkUnit.lean ====
section
/-!
DEFINITION. The commands of the chunk unit (spec/42_chunk.md), one meaning each.
-/
namespace Sys2Proof.Machine

/-- CH_NEW (R153). -/
def execChNew (s : State) : Host.Outcome State Fault Refusal :=
  commit s do
    let t ← operandTr s
    let payload ← inPayload s
    return s.writeCr ⟨t, payload⟩

/-- CH_PARSE (R154). RESULT is the bytes used, AUX the trailing bytes. -/
def execChParse (s : State) : Host.Outcome State Fault Refusal :=
  commit s do
    let n ← inputLength s
    let r ← chunkParse s.inBuf 0 n
    return ((s.writeCr r.1).writeResult (word r.2)).writeAux (word (n - r.2))

/-- CH_SERIALIZE (R155). -/
def execChSerialize (s : State) : Host.Outcome State Fault Refusal :=
  commit s do
    let c ← operandCr s
    emit s (record c)

/-- CH_LENGTH (R156). -/
def execChLength (s : State) : Host.Outcome State Fault Refusal :=
  commit s do
    let c ← operandCr s
    return s.writeResult (word c.payload.length)

/-- CH_CRC (R157). -/
def execChCrc (s : State) : Host.Outcome State Fault Refusal :=
  commit s do
    let c ← operandCr s
    return s.writeResult (chunkCrc c)

/-- CH_TYPE (R158). -/
def execChType (s : State) : Host.Outcome State Fault Refusal :=
  commit s do
    let c ← operandCr s
    return (s.writeTr c.type).writeResult (be32 c.type)

/-- CH_PAYLOAD (R159). -/
def execChPayload (s : State) : Host.Outcome State Fault Refusal :=
  commit s do
    let c ← operandCr s
    emit s c.payload

/-- CH_PAYLOAD_AS_TEXT (R161). -/
def execChPayloadAsText (s : State) : Host.Outcome State Fault Refusal :=
  commit s do
    let c ← operandCr s
    failIf (validUpTo c.payload ≠ c.payload.length) { kind := .nonUtf8Payload, a := word (validUpTo c.payload) }
    emit s c.payload

end Sys2Proof.Machine
end

