-- ==== Sys2Proof/Machine/Container.lean ====
section
/-!
DEFINITION. The commands of the container unit (spec/43_container.md), one meaning each.
-/
namespace Sys2Proof.Machine

/-- PNG_CLEAR (R203). -/
def execPngClear (s : State) : Host.Outcome State Fault Refusal :=
  commit s (.ok (s.writeCl []))

/-- PNG_PARSE (R204). -/
def execPngParse (s : State) : Host.Outcome State Fault Refusal :=
  commit s do
    let n ← inputLength s
    let list ← containerParse s.inBuf n
    checkCapacity 2 list.length s.cfg.maxChunks
    checkCapacity 3 (storeBytes list) s.cfg.storeCap
    return (s.writeCl list).writeResult (word list.length)

/-- PNG_SERIALIZE (R205). -/
def execPngSerialize (s : State) : Host.Outcome State Fault Refusal :=
  commit s (emit s (stream s.cl))

/-- PNG_APPEND (R206). -/
def execPngAppend (s : State) : Host.Outcome State Fault Refusal :=
  commit s do
    let c ← operandCr s
    checkCapacity 2 (s.cl.length + 1) s.cfg.maxChunks
    checkCapacity 3 (storeBytes s.cl + c.payload.length) s.cfg.storeCap
    return (s.writeCl (s.cl ++ [c])).writeResult (word (s.cl.length + 1))

/-- PNG_CHUNK_BY_TYPE (R208). No match is no error: RESULT and AUX are 0, and CR keeps its value. -/
def execPngChunkByType (s : State) : Host.Outcome State Fault Refusal :=
  commit s do
    let q ← query s
    match firstMatch s.cl q with
    | none => return (s.writeResult 0).writeAux 0
    | some i =>
      match s.cl[i]? with
      | some c => return ((s.writeCr c).writeResult 1).writeAux (word i)
      | none => return (s.writeResult 0).writeAux 0

/-- R209: the error of PNG_REMOVE for a query that no chunk matches. ERR_A is IN_LEN, and ERR_B the packed query where
IN_LEN = 4. -/
def chunkNotFound (s : State) (q : Option Bytes4) : ErrorInfo :=
  { kind := .chunkNotFound, a := s.inLen, b := (q.map be32).getD 0 }

/-- PNG_REMOVE (R209). -/
def execPngRemove (s : State) : Host.Outcome State Fault Refusal :=
  commit s do
    let q ← query s
    match firstMatch s.cl q with
    | none => raise (chunkNotFound s q)
    | some i =>
      match s.cl[i]? with
      | some c =>
        return (((s.writeCr c).writeCl (s.cl.eraseIdx i)).writeResult (word i)).writeAux (word (s.cl.eraseIdx i).length)
      | none => raise (chunkNotFound s q)

/-- PNG_COUNT (R210). -/
def execPngCount (s : State) : Host.Outcome State Fault Refusal :=
  commit s (.ok (s.writeResult (word s.cl.length)))

/-- PNG_GET (R211, R258). -/
def execPngGet (s : State) : Host.Outcome State Fault Refusal :=
  commit s <|
    match s.cl[argIndex s]? with
    | some c => .ok (s.writeCr c)
    | none => raise { kind := .indexOutOfRange, a := s.arg, b := word s.cl.length }

end Sys2Proof.Machine
end

