-- ==== Sys2Proof/Machine/TypeUnit.lean ====
section
/-!
DEFINITION. The commands of the type-code unit (spec/41_type_code.md), one meaning each. A meaning is the framer's whole
step for its command word: the outcome of the command's rule, and then its completion (R251).
-/
namespace Sys2Proof.Machine

/-- TC_FROM_BYTES (R122). -/
def execTcFromBytes (s : State) : Host.Outcome State Fault Refusal :=
  commit s do
    let t ← fromBytes (argType s)
    return s.writeTr t

/-- TC_FROM_STRING (R123). -/
def execTcFromString (s : State) : Host.Outcome State Fault Refusal :=
  commit s do
    let q ← inTypeString s
    let t ← fromBytes q
    return s.writeTr t

/-- TC_IS_VALID (R125). -/
def execTcIsValid (s : State) : Host.Outcome State Fault Refusal :=
  commit s do
    let t ← operandTr s
    return s.writeResult (boolWord (isValid t))

/-- TC_IS_CRITICAL (R126). -/
def execTcIsCritical (s : State) : Host.Outcome State Fault Refusal :=
  commit s do
    let t ← operandTr s
    return s.writeResult (boolWord (upper t.b0))

/-- TC_IS_PUBLIC (R127). -/
def execTcIsPublic (s : State) : Host.Outcome State Fault Refusal :=
  commit s do
    let t ← operandTr s
    return s.writeResult (boolWord (upper t.b1))

/-- TC_IS_RESERVED_BIT_VALID (R128). -/
def execTcIsReservedBitValid (s : State) : Host.Outcome State Fault Refusal :=
  commit s do
    let t ← operandTr s
    return s.writeResult (boolWord (upper t.b2))

/-- TC_IS_SAFE_TO_COPY (R129). -/
def execTcIsSafeToCopy (s : State) : Host.Outcome State Fault Refusal :=
  commit s do
    let t ← operandTr s
    return s.writeResult (boolWord (lower t.b3))

/-- TC_TO_STRING (R130). The 4 bytes need no capacity check, since OUT_CAP >= 12 (R256). -/
def execTcToString (s : State) : Host.Outcome State Fault Refusal :=
  commit s do
    let t ← operandTr s
    failIf (constructible t = false) { kind := .nonUtf8TypeBytes, a := be32 t }
    return s.writeOut t.toList

/-- TC_BYTES (R131). -/
def execTcBytes (s : State) : Host.Outcome State Fault Refusal :=
  commit s do
    let t ← operandTr s
    return s.writeResult (be32 t)

end Sys2Proof.Machine
end

