-- ==== Sys2Proof/Machine/Dispatch.lean ====
section
/-!
DEFINITION. The framer's step for a decoded command (R251): one arm per command of R84.
-/
namespace Sys2Proof.Machine

def exec (i : Instr) (s : State) : Host.Outcome State Fault Refusal :=
  match i with
  | .tcFromBytes => Sys2Proof.Machine.execTcFromBytes s
  | .tcFromString => Sys2Proof.Machine.execTcFromString s
  | .tcIsValid => Sys2Proof.Machine.execTcIsValid s
  | .tcIsCritical => Sys2Proof.Machine.execTcIsCritical s
  | .tcIsPublic => Sys2Proof.Machine.execTcIsPublic s
  | .tcIsReservedBitValid => Sys2Proof.Machine.execTcIsReservedBitValid s
  | .tcIsSafeToCopy => Sys2Proof.Machine.execTcIsSafeToCopy s
  | .tcToString => Sys2Proof.Machine.execTcToString s
  | .tcBytes => Sys2Proof.Machine.execTcBytes s
  | .chNew => Sys2Proof.Machine.execChNew s
  | .chParse => Sys2Proof.Machine.execChParse s
  | .chSerialize => Sys2Proof.Machine.execChSerialize s
  | .chLength => Sys2Proof.Machine.execChLength s
  | .chCrc => Sys2Proof.Machine.execChCrc s
  | .chType => Sys2Proof.Machine.execChType s
  | .chPayload => Sys2Proof.Machine.execChPayload s
  | .chPayloadAsText => Sys2Proof.Machine.execChPayloadAsText s
  | .pngClear => Sys2Proof.Machine.execPngClear s
  | .pngParse => Sys2Proof.Machine.execPngParse s
  | .pngSerialize => Sys2Proof.Machine.execPngSerialize s
  | .pngAppend => Sys2Proof.Machine.execPngAppend s
  | .pngChunkByType => Sys2Proof.Machine.execPngChunkByType s
  | .pngRemove => Sys2Proof.Machine.execPngRemove s
  | .pngCount => Sys2Proof.Machine.execPngCount s
  | .pngGet => Sys2Proof.Machine.execPngGet s

end Sys2Proof.Machine
end

