-- ==== Sys2Proof/WellFormed.lean ====
section
/-!
DEFINITION. The checks on syntax and parameters: which command words are well formed (R80, R85), which parameter values
R7 allows, and which host lines R86 has.
-/
namespace Sys2Proof

/-- A command of `Instr` has no field that could be out of range (R80: "It has exactly one format", with no operand
field), so each one is well formed. -/
def Instr.wf : Instr → Bool := fun _ => true

/-- R80: bits 31:8 of a command word "must be 0". -/
def wordReservedClear (w : Word) : Bool := w.toNat < 256

/-- R85: the opcodes outside the reserved ranges 0x00-0x0F, 0x19-0x1F, 0x28-0x2F and 0x38-0xFF. -/
def opcodeAssigned (opc : Nat) : Bool :=
  (0x10 ≤ opc && opc ≤ 0x18) || (0x20 ≤ opc && opc ≤ 0x27) || (0x30 ≤ opc && opc ≤ 0x37)

/-- A well-formed command word: reserved bits clear (R80) and an assigned opcode in bits 7:0 (R85). -/
def wordWf (w : Word) : Bool := wordReservedClear w && opcodeAssigned (w.toNat % 256)

/-- R7's constraints on the capacities. The bases are unconstrained (R72). -/
def Config.wf (c : Config) : Bool :=
  (12 ≤ c.inCap && c.inCap < 2 ^ 32) && (12 ≤ c.outCap && c.outCap < 2 ^ 32)
    && (1 ≤ c.maxChunks && c.maxChunks < 2 ^ 32) && c.storeCap < 2 ^ 32

/-- R86: `MNEMONIC imm` exists for TC_FROM_BYTES and PNG_GET only, and LOADIN writes a length that IN_LEN can hold. -/
def HostLine.wf : HostLine → Bool
  | .commandImm i _ => i == .tcFromBytes || i == .pngGet
  | .loadIn bytes => bytes.length < 2 ^ 32
  | .command _ | .setLen _ | .copyOut | .wait | .comment => true

end Sys2Proof
end

