-- ==== Sys2Proof/Decode.lean ====
section
/-!
DEFINITION. Decoding a command word (R81), and the encoder, both written from the opcode map of R84.
A command word is a 32-bit register value, not a byte string in memory (R76), so the decoder's domain is every `Word`.
-/
namespace Sys2Proof

/-- Why a command word is no command. Both reasons give the error IllegalCommand (R81, R82, R255). -/
inductive DecodeError where
  /-- bits 31:8 are not all 0 (R80) -/
  | reservedBits
  /-- bits 7:0 hold a reserved opcode (R85) -/
  | reservedOpcode
  deriving DecidableEq, Repr

/-- R84: the command an opcode selects. Every other opcode is reserved (R85). -/
def decodeOpcode (opc : Nat) : Option Instr :=
  match opc with
  | 0x10 => some .tcFromBytes
  | 0x11 => some .tcFromString
  | 0x12 => some .tcIsValid
  | 0x13 => some .tcIsCritical
  | 0x14 => some .tcIsPublic
  | 0x15 => some .tcIsReservedBitValid
  | 0x16 => some .tcIsSafeToCopy
  | 0x17 => some .tcToString
  | 0x18 => some .tcBytes
  | 0x20 => some .chNew
  | 0x21 => some .chParse
  | 0x22 => some .chSerialize
  | 0x23 => some .chLength
  | 0x24 => some .chCrc
  | 0x25 => some .chType
  | 0x26 => some .chPayload
  | 0x27 => some .chPayloadAsText
  | 0x30 => some .pngClear
  | 0x31 => some .pngParse
  | 0x32 => some .pngSerialize
  | 0x33 => some .pngAppend
  | 0x34 => some .pngChunkByType
  | 0x35 => some .pngRemove
  | 0x36 => some .pngCount
  | 0x37 => some .pngGet
  | _ => none

/-- R80: the OPC field, bits 7:0 of a command word. -/
def opcodeField (w : Word) : Nat := (w.extractLsb' 0 8).toNat

/-- R80: the RSV field, bits 31:8 of a command word. -/
def reservedField (w : Word) : Nat := (w.extractLsb' 8 24).toNat

/-- R81: decode is total, and every word is either one command or illegal. -/
def decode (w : Word) : Except DecodeError Instr :=
  if reservedField w = 0 then
    match decodeOpcode (opcodeField w) with
    | some i => .ok i
    | none => .error .reservedOpcode
  else .error .reservedBits

/-- The command word of a command: its opcode in bits 7:0, bits 31:8 zero (R80, R84). -/
def encode : Instr → Word
  | .tcFromBytes => 0x00000010
  | .tcFromString => 0x00000011
  | .tcIsValid => 0x00000012
  | .tcIsCritical => 0x00000013
  | .tcIsPublic => 0x00000014
  | .tcIsReservedBitValid => 0x00000015
  | .tcIsSafeToCopy => 0x00000016
  | .tcToString => 0x00000017
  | .tcBytes => 0x00000018
  | .chNew => 0x00000020
  | .chParse => 0x00000021
  | .chSerialize => 0x00000022
  | .chLength => 0x00000023
  | .chCrc => 0x00000024
  | .chType => 0x00000025
  | .chPayload => 0x00000026
  | .chPayloadAsText => 0x00000027
  | .pngClear => 0x00000030
  | .pngParse => 0x00000031
  | .pngSerialize => 0x00000032
  | .pngAppend => 0x00000033
  | .pngChunkByType => 0x00000034
  | .pngRemove => 0x00000035
  | .pngCount => 0x00000036
  | .pngGet => 0x00000037

/-- The command word that the bits `w` of an `nbits`-bit table row stand for: bit 0 is the word's bit 0, and every bit
at or above `nbits` is 0. -/
def tableWord (nbits w : Nat) : Word := BitVec.ofNat 32 (w % 2 ^ nbits)

/-- The command this decoder reads from the bits of a row of spec/opcode_table.json. -/
def decodeTableWord (nbits w : Nat) : Option Instr :=
  match decode (tableWord nbits w) with
  | .ok i => some i
  | .error _ => none

end Sys2Proof
end

