-- ==== Sys2Proof/Machine/Port.lean ====
section
/-!
DEFINITION. The host port: the register map (R61), the host's accesses to REG, IN and OUT (R61-R63) with HostFault
(R262), submission of a command (R251), the reset input (R280), and the assembler lines of host programs (R86).
-/
namespace Sys2Proof.Machine

/-- The registers of R61. -/
inductive RegName where
  | cmd | arg | status | result | aux | inLen | outLen | nChunks | errA | errB | errFlags | errPos | errIndex
  | storeUsed | capIn | capOut | capChunks | capStore | id
  deriving DecidableEq, Repr

/-- R61: the register at an offset. Every other offset is reserved, or lies outside 0x000-0x0FF. -/
def RegName.atOffset (offset : Nat) : Option RegName :=
  match offset with
  | 0x000 => some .cmd
  | 0x004 => some .arg
  | 0x008 => some .status
  | 0x00C => some .result
  | 0x010 => some .aux
  | 0x014 => some .inLen
  | 0x018 => some .outLen
  | 0x01C => some .nChunks
  | 0x020 => some .errA
  | 0x024 => some .errB
  | 0x028 => some .errFlags
  | 0x02C => some .errPos
  | 0x030 => some .errIndex
  | 0x034 => some .storeUsed
  | 0x040 => some .capIn
  | 0x044 => some .capOut
  | 0x048 => some .capChunks
  | 0x04C => some .capStore
  | 0x050 => some .id
  | _ => none

/-- R61: the offset of a register. -/
def RegName.offset : RegName → Nat
  | .cmd => 0x000
  | .arg => 0x004
  | .status => 0x008
  | .result => 0x00C
  | .aux => 0x010
  | .inLen => 0x014
  | .outLen => 0x018
  | .nChunks => 0x01C
  | .errA => 0x020
  | .errB => 0x024
  | .errFlags => 0x028
  | .errPos => 0x02C
  | .errIndex => 0x030
  | .storeUsed => 0x034
  | .capIn => 0x040
  | .capOut => 0x044
  | .capChunks => 0x048
  | .capStore => 0x04C
  | .id => 0x050

/-- The register an access reaches: it moves exactly 4 bytes, at an offset that is a multiple of 4 and not reserved
(R61, R69). None of these: a HostFault. -/
def accessedReg (offset size : Nat) : Option RegName :=
  if size = 4 ∧ offset % 4 = 0 then RegName.atOffset offset else none

/-- Where the platform places a register, an IN byte and an OUT byte in the host's address space (R72). No rule of the
block depends on these addresses (U5). -/
def regAddress (cfg : Config) (r : RegName) : Nat := cfg.regBase + r.offset
/-- See `regAddress`. -/
def inAddress (cfg : Config) (index : Nat) : Nat := cfg.inBase + index
/-- See `regAddress`. -/
def outAddress (cfg : Config) (index : Nat) : Nat := cfg.outBase + index

/-- The identification constant of R38, the bytes "PNGF" packed as R96 gives. -/
def idConstant : Word := 0x504E4746

/-- What a register holds, or what its view computes (R20, R32, R33, R37, R38). -/
def State.regView (s : State) : RegName → Word
  | .cmd => s.cmd
  | .arg => s.arg
  | .status => s.status.toWord
  | .result => s.result
  | .aux => s.aux
  | .inLen => s.inLen
  | .outLen => s.outLen
  | .nChunks => word s.cl.length
  | .errA => s.errA
  | .errB => s.errB
  | .errFlags => s.errFlags.toWord
  | .errPos => s.errPos
  | .errIndex => s.errIndex
  | .storeUsed => word (storeBytes s.cl)
  | .capIn => word s.cfg.inCap
  | .capOut => word s.cfg.outCap
  | .capChunks => word s.cfg.maxChunks
  | .capStore => word s.cfg.storeCap
  | .id => idConstant

/-- The registers whose reads return any value while BUSY = 1 (R28, R29, R31, R32, R33, R285, U11). -/
def RegName.openWhileBusy : RegName → Bool
  | .result | .aux | .outLen | .nChunks | .storeUsed | .errA | .errB | .errFlags | .errPos | .errIndex => true
  | .cmd | .arg | .status | .inLen | .capIn | .capOut | .capChunks | .capStore | .id => false

/-- A read returns `v` to the host. -/
def State.answer (s : State) (v : Word) : State := { s with env := { s.env with readData := v } }

/-- The model's counter advances, so that the next free value is another one (R71). -/
def State.nextEpoch (s : State) : State := { s with env := { s.env with epoch := s.env.epoch + 1 } }

/-- R251: CMD <- w, PENDING <- w, BUSY <- 1. The time to completion is taken from the schedule (R293). DESIGN CHOICE
(log 4): the model's counter advances here, so that a free read while BUSY = 1 is not tied to a free read of the same byte
before the submission, which R43, R63 and R71's exception leave open. -/
def State.submit (s : State) (w : Word) : State :=
  { s with
    cmd := w
    pending := some w
    status := { s.status with busy := true }
    env := { s.env with
      wait := s.env.delays.headD 0
      delays := s.env.delays.tail
      epoch := s.env.epoch + 1 } }

/-- R262: the access is outside the protocol. HostFault is recorded, and the access does nothing else (log 6). -/
def State.hostFault (s : State) : State := s.recordFault .hostFault

/-- A host read of REG (R61, R71). -/
def hostReadReg (offset size : Nat) (s : State) : State :=
  match accessedReg offset size with
  | none => s.hostFault
  | some r =>
    if s.status.busy && r.openWhileBusy then (s.answer (Config.freeWord s.env.epoch)).nextEpoch
    else s.answer (s.regView r)

/-- A host write of REG (R61, R21, R22, R30). Only CMD, ARG and IN_LEN are writable, and only while BUSY = 0 (R262). -/
def hostWriteReg (offset size : Nat) (v : Word) (s : State) : State :=
  match accessedReg offset size with
  | some .cmd => if s.status.busy then s.hostFault else s.submit v
  | some .arg => if s.status.busy then s.hostFault else { s with arg := v }
  | some .inLen => if s.status.busy then s.hostFault else { s with inLen := v }
  | _ => s.hostFault

/-- A host read of IN (R62): the byte if its written bit is set, otherwise any value. Whether a repeated read of an unwritten
byte may change while BUSY = 1 the spec leaves open: R71 excepts reads during BUSY with R28's words, and R28 does not name
IN. DESIGN CHOICE (log 4): it may change, since the counter advances; while BUSY = 0 it may not (R71). -/
def hostReadIn (index size : Nat) (s : State) : State :=
  if size = 1 ∧ index < s.cfg.inCap then
    match s.inBuf.read? index with
    | some b => s.answer (b.setWidth 32)
    | none =>
      let t := s.answer ((Config.freeIn s.env.epoch index).setWidth 32)
      if s.status.busy then t.nextEpoch else t
  else s.hostFault

/-- A host write of IN (R62): the byte is stored and its written bit set, only while BUSY = 0 (R262). -/
def hostWriteIn (index size : Nat) (v : Byte) (s : State) : State :=
  if size = 1 ∧ index < s.cfg.inCap then
    if s.status.busy then s.hostFault else { s with inBuf := s.inBuf.write index v }
  else s.hostFault

/-- A host read of OUT (R63): OUT[i] where i < OUT_LEN and BUSY = 0, otherwise any value. DESIGN CHOICE (log 4): a free read
while BUSY = 1 may differ from one before the submission and from the one before it during BUSY; while BUSY = 0 a repeated
free read returns the same value (R71). -/
def hostReadOut (index size : Nat) (s : State) : State :=
  if size = 1 ∧ index < s.cfg.outCap then
    let free := s.answer ((Config.freeOut s.env.epoch index).setWidth 32)
    if s.status.busy then free.nextEpoch
    else if index < s.outLen.toNat then
      match s.outBuf.read? index with
      | some b => s.answer (b.setWidth 32)
      | none => free
    else free
  else s.hostFault

/-- One host access. A write of OUT is a HostFault whatever its index and size (R63, R262). -/
def access (a : HostAccess) (s : State) : State :=
  match a with
  | .readReg offset size => hostReadReg offset size s
  | .writeReg offset size v => hostWriteReg offset size v s
  | .readIn index size => hostReadIn index size s
  | .writeIn index size v => hostWriteIn index size v s
  | .readOut index size => hostReadOut index size s
  | .writeOut _ _ _ => s.hostFault

/-- A 4-byte read of a register. -/
def readOf (r : RegName) : HostEvent := .access (.readReg r.offset 4)
/-- A 4-byte write of a register. -/
def writeOf (r : RegName) (v : Word) : HostEvent := .access (.writeReg r.offset 4 v)

/-- COPYOUT once OUT_LEN is known (R86): read each OUT byte and write it to IN at the same index, then set IN_LEN. -/
def copyEvents (k : Nat) : List HostEvent :=
  (List.range k).flatMap (fun i => [HostEvent.access (.readOut i 1), .storeRead i]) ++ [writeOf .inLen (word k)]

/-- R280, R282: reset puts every element of the block's state into its reset value and keeps the parameters. A pending
command is discarded. The outside world goes on. -/
def State.resetInput (s : State) : State :=
  State.resetWith s.cfg { s.env with wait := 0, epoch := s.env.epoch + 1 }

/-- The host goes on to the events `rest`, and one access of the pending command's time has passed. -/
def State.advance (s : State) (rest : List HostEvent) : State :=
  { s with env := { s.env with script := rest, wait := s.env.wait - 1 } }

/-- The outside world does `e`, with `rest` to follow. -/
def hostEvent (e : HostEvent) (rest : List HostEvent) (s : State) : State :=
  match e with
  | .access a => access a (s.advance rest)
  | .poll => access (.readReg RegName.status.offset 4) (s.advance (if s.status.busy then e :: rest else rest))
  | .storeRead i => access (.writeIn i 1 (s.env.readData.setWidth 8)) (s.advance rest)
  | .copyLoop => { s with env := { s.env with script := copyEvents s.env.readData.toNat ++ rest } }
  | .reset => (s.advance rest).resetInput

/-- R86: a command word is written to CMD, and then STATUS is read until BUSY = 0. -/
def commandEvents (i : Instr) : List HostEvent := [writeOf .cmd (encode i), .poll]

/-- R86: write IN[j] <- byte j from index `a` on. -/
def loadEvents : Nat → List Byte → List HostEvent
  | _, [] => []
  | a, b :: bs => .access (.writeIn a 1 b) :: loadEvents (a + 1) bs

/-- R86: what a line of a host program does. -/
def expandLine : HostLine → List HostEvent
  | .command i => commandEvents i
  | .commandImm i imm => writeOf .arg imm :: commandEvents i
  | .loadIn bytes => loadEvents 0 bytes ++ [writeOf .inLen (word bytes.length)]
  | .setLen n => [writeOf .inLen n]
  | .copyOut => [readOf .outLen, .copyLoop]
  | .wait => [.poll]
  | .comment => []

/-- The events of a host program (R86). -/
def programEvents (lines : List HostLine) : List HostEvent := lines.flatMap expandLine

end Sys2Proof.Machine
end

