-- ==== Sys2Proof/Machine/Framer.lean ====
section
/-!
DEFINITION. The two agents of R19: the framer's step on a pending command word (R251), when it moves (R293), and the
host's turn.
-/
namespace Sys2Proof.Machine

/-- R251, the framer step on a pending word: decode it (R81), and do the command's rule, or complete it with
IllegalCommand (R255). -/
def framerStep (w : Word) (s : State) : Host.Outcome State Fault Refusal :=
  match decode w with
  | .ok i => exec i s
  | .error _ => commit s (raise (illegalCommand w))

/-- The framer moves now: a word is pending, no model fault has been raised (R263), and the time of the command has
passed (R293) or the host does nothing more. -/
def framerMoves (s : State) : Bool :=
  s.pending.isSome && s.fault.isEmpty && (s.env.wait == 0 || s.env.script.isEmpty)

/-- The host's turn. With nothing left that the host does, the block idles (R19: "The framer never acts on its own"),
or it is stuck if FAULT is not empty (U16). -/
def hostStep (s : State) : Host.Outcome State Fault Refusal :=
  match s.env.script with
  | e :: rest => .next (hostEvent e rest s)
  | [] => if s.fault.isEmpty then .next s else .fault .modelFaulted

end Sys2Proof.Machine
end

