-- ==== Sys2Proof/Machine/Step.lean ====
section
/-!
DEFINITION. One step of the block and its host (R19, R251): the framer completes the pending command, or the host does
its next event, or nothing is left to do.
-/
namespace Sys2Proof.Machine

/-- One step. -/
def step (s : State) : Host.Outcome State Fault Refusal :=
  match s.pending with
  | some w => if framerMoves s then framerStep w s else hostStep s
  | none => hostStep s

/-- The state with the command word of a row's bits submitted (R251), so that the very next step is the framer's step on
it: CMD and PENDING hold the word and BUSY is 1. FAULT is emptied and the command's time is 0, since the framer moves
only then. -/
def State.withFetchWord (s : State) (nbits w : Nat) : State :=
  { s with
    cmd := tableWord nbits w
    pending := some (tableWord nbits w)
    status := { s.status with busy := true }
    fault := ⟨false, false⟩
    env := { s.env with wait := 0 } }

end Sys2Proof.Machine
end

