-- ==== Sys2Proof/Safety.lean ====
section
/-!
DEFINITION. The terms claims use: what a command writes and reads (R83, R84), its completion (R252, R253), its frame,
what breaks the host protocol (R262), and the invariant of reachable states (R44-R47).
-/
namespace Sys2Proof.Machine

/-- The parts of the state that a command's rule may write (R84's column "writes"). A valid bit goes with its register,
and OUT_LEN with OUT. STATUS and the error registers are not named here: every completion writes them. -/
inductive Part where
  | tr | cr | cl | result | aux | out
  deriving DecidableEq, Repr

/-- R84, column "writes". -/
def writesOf : Instr → List Part
  | .tcFromBytes | .tcFromString => [.tr]
  | .tcIsValid | .tcIsCritical | .tcIsPublic | .tcIsReservedBitValid | .tcIsSafeToCopy | .tcBytes => [.result]
  | .tcToString => [.out]
  | .chNew => [.cr]
  | .chParse => [.cr, .result, .aux]
  | .chSerialize | .chPayload | .chPayloadAsText => [.out]
  | .chLength | .chCrc => [.result]
  | .chType => [.tr, .result]
  | .pngClear => [.cl]
  | .pngParse => [.cl, .result]
  | .pngSerialize => [.out]
  | .pngAppend => [.cl, .result]
  | .pngChunkByType => [.cr, .result, .aux]
  | .pngRemove => [.cl, .cr, .result, .aux]
  | .pngCount => [.result]
  | .pngGet => [.cr]

/-- Two states agree on a part. OUT is compared byte by byte, through the read of one byte. -/
def AgreeOn (p : Part) (s t : State) : Prop :=
  match p with
  | .tr => t.tr = s.tr ∧ t.status.trValid = s.status.trValid
  | .cr => t.cr = s.cr ∧ t.status.crValid = s.status.crValid
  | .cl => t.cl = s.cl
  | .result => t.result = s.result
  | .aux => t.aux = s.aux
  | .out => t.outLen = s.outLen ∧ ∀ a, t.outBuf.read? a = s.outBuf.read? a

/-- What no command writes: CMD, ARG, IN_LEN, every IN byte, FAULT, the parameters, and what the host does (R22, R30,
R42, R65). -/
def KeepsInputs (s t : State) : Prop :=
  t.cmd = s.cmd ∧ t.arg = s.arg ∧ t.inLen = s.inLen ∧ (∀ a, t.inBuf.read? a = s.inBuf.read? a) ∧ t.fault = s.fault
    ∧ t.cfg = s.cfg ∧ t.env.script = s.env.script ∧ t.env.delays = s.env.delays ∧ t.env.wait = s.env.wait
    ∧ t.env.readData = s.env.readData

/-- The frame: nothing changes but STATUS, the error registers, PENDING and the parts named. -/
def KeepsExcept (written : List Part) (s t : State) : Prop :=
  KeepsInputs s t ∧ ∀ p, p ∉ written → AgreeOn p s t

/-- R251 `finish`, as the state shows it. -/
def Finished (t : State) : Prop :=
  t.pending = none ∧ t.status.busy = false ∧ t.status.done = true

/-- What STATUS and the error registers hold after a successful completion (R253). -/
def ShowsSuccess (t : State) : Prop :=
  t.status.err = false ∧ t.status.ecode = 0 ∧ t.errA = 0 ∧ t.errB = 0 ∧ t.errFlags = ⟨false, false, 0⟩ ∧ t.errPos = 0
    ∧ t.errIndex = 0

/-- What STATUS and the error registers hold after an error completion (R252). -/
def ShowsError (t : State) (e : ErrorInfo) : Prop :=
  t.status.err = true ∧ t.status.ecode = e.kind.code ∧ t.errA = e.a ∧ t.errB = e.b ∧ t.errFlags = e.flags
    ∧ t.errPos = e.pos ∧ t.errIndex = e.index

/-- The command completes successfully from `s`: it writes at most the named parts, and `post` holds of the next
state. -/
def Succeeds (i : Instr) (s : State) (written : List Part) (post : State → Prop) : Prop :=
  ∃ t, exec i s = .next t ∧ Finished t ∧ ShowsSuccess t ∧ KeepsExcept written s t ∧ post t

/-- The command completes with an error from `s`, and changes nothing but STATUS and the error registers (R252). -/
def FailsWith (i : Instr) (s : State) (e : ErrorInfo) : Prop :=
  ∃ t, exec i s = .next t ∧ Finished t ∧ ShowsError t e ∧ KeepsExcept [] s t

/-- The command raises a model fault from `s`: FAULT takes it, and nothing else changes (R251, R263). -/
def ModelFaults (i : Instr) (s : State) (f : ModelFault) : Prop :=
  exec i s = .next { s with fault := s.fault.add f }

/-- IN holds a sequence, written, from an index on. -/
def InHolds (s : State) (a : Nat) (bs : List Byte) : Prop :=
  ∀ i b, bs[i]? = some b → s.inBuf.read? (a + i) = some b

/-- The output is a sequence: OUT_LEN is its length, OUT[0..len) holds it, and the bytes of OUT beyond are unspecified
(R31, R43). -/
def OutIs (t : State) (bs : List Byte) : Prop :=
  t.outLen.toNat = bs.length ∧ ∀ i, t.outBuf.read? i = bs[i]?

/-- One row of R160's table: a byte sequence is a form. -/
def Utf8Form (f : List Byte) : Prop :=
  let within (b : Byte) (lo hi : Nat) : Prop := lo ≤ b.toNat ∧ b.toNat ≤ hi
  (∃ a, f = [a] ∧ within a 0x00 0x7F) ∨
  (∃ a b, f = [a, b] ∧ within a 0xC2 0xDF ∧ within b 0x80 0xBF) ∨
  (∃ a b c, f = [a, b, c] ∧ within c 0x80 0xBF ∧
    ((within a 0xE0 0xE0 ∧ within b 0xA0 0xBF) ∨ (within a 0xE1 0xEC ∧ within b 0x80 0xBF) ∨
     (within a 0xED 0xED ∧ within b 0x80 0x9F) ∨ (within a 0xEE 0xEF ∧ within b 0x80 0xBF))) ∨
  (∃ a b c d, f = [a, b, c, d] ∧ within c 0x80 0xBF ∧ within d 0x80 0xBF ∧
    ((within a 0xF0 0xF0 ∧ within b 0x90 0xBF) ∨ (within a 0xF1 0xF3 ∧ within b 0x80 0xBF) ∨
     (within a 0xF4 0xF4 ∧ within b 0x80 0x8F)))

/-- R160: the sequence splits into forms with nothing left over. -/
def WellFormedUtf8 (s : List Byte) : Prop := ∃ fs : List (List Byte), (∀ f ∈ fs, Utf8Form f) ∧ fs.flatten = s

/-- The input of a command is a sequence: IN_LEN is its length, IN[0..IN_LEN) holds it, written, and it is within IN_CAP
(R30). -/
def InputIs (s : State) (bs : List Byte) : Prop :=
  s.inLen.toNat = bs.length ∧ bs.length ≤ s.cfg.inCap ∧ InHolds s 0 bs

/-- `t` is `s` after the host has copied OUT[0..OUT_LEN) to IN and set IN_LEN to OUT_LEN (COPYOUT, R86). -/
def CopiedOut (s t : State) : Prop :=
  t = { s with inLen := s.outLen, inBuf := t.inBuf, env := t.env } ∧
  ∀ i, t.inBuf.read? i = if i < s.outLen.toNat then s.outBuf.read? i else s.inBuf.read? i

/-- Two states are equal but for the outside world. -/
def SameBlock (s t : State) : Prop := { s with env := t.env } = t

/-- Where a command takes its inputs from (R83's forms, with IN_LEN going with IN; R65: IN only below IN_LEN). -/
inductive Source where
  | arg | input | tr | cr | cl
  deriving DecidableEq, Repr

/-- R83, column "used by"; for PNG_APPEND also CL, as R84 and R206 list it (log 17). -/
def readsOf : Instr → List Source
  | .tcFromBytes => [.arg]
  | .tcFromString => [.input]
  | .tcIsValid | .tcIsCritical | .tcIsPublic | .tcIsReservedBitValid | .tcIsSafeToCopy => [.tr]
  | .tcToString | .tcBytes => [.tr]
  | .chNew => [.tr, .input]
  | .chParse => [.input]
  | .chSerialize | .chLength | .chCrc | .chType | .chPayload | .chPayloadAsText => [.cr]
  | .pngClear => []
  | .pngParse => [.input]
  | .pngSerialize => [.cl]
  | .pngAppend => [.cr, .cl]
  | .pngChunkByType | .pngRemove => [.input, .cl]
  | .pngCount => [.cl]
  | .pngGet => [.arg, .cl]

/-- Two states agree on an input of a command. -/
def SameSource (x : Source) (s t : State) : Prop :=
  match x with
  | .arg => t.arg = s.arg
  | .input => t.inLen = s.inLen ∧ ∀ a < s.inLen.toNat, t.inBuf.read? a = s.inBuf.read? a
  | .tr => t.tr = s.tr ∧ t.status.trValid = s.status.trValid
  | .cr => t.cr = s.cr ∧ t.status.crValid = s.status.crValid
  | .cl => t.cl = s.cl

/-- The offsets of R61's register map. -/
def mapOffsets : List Nat :=
  [0x000, 0x004, 0x008, 0x00C, 0x010, 0x014, 0x018, 0x01C, 0x020, 0x024, 0x028, 0x02C, 0x030, 0x034,
   0x040, 0x044, 0x048, 0x04C, 0x050]

/-- The offsets of the registers that R61 lists as RW: CMD, ARG and IN_LEN. -/
def writableOffsets : List Nat := [0x000, 0x004, 0x014]

/-- R262: the accesses that break the host protocol. -/
def Violates (s : State) : HostAccess → Prop
  | .readReg offset size => size ≠ 4 ∨ offset ∉ mapOffsets
  | .writeReg offset size _ => size ≠ 4 ∨ offset ∉ writableOffsets ∨ s.status.busy = true
  | .readIn index size => size ≠ 1 ∨ s.cfg.inCap ≤ index
  | .writeIn index size _ => size ≠ 1 ∨ s.cfg.inCap ≤ index ∨ s.status.busy = true
  | .readOut index size => size ≠ 1 ∨ s.cfg.outCap ≤ index
  | .writeOut _ _ _ => True

/-- The access is a read. -/
def isRead : HostAccess → Bool
  | .readReg _ _ | .readIn _ _ | .readOut _ _ => true
  | .writeReg _ _ _ | .writeIn _ _ _ | .writeOut _ _ _ => false

/-- The access submits a command: a 4-byte write at CMD's offset. -/
def isSubmission : HostAccess → Bool
  | .writeReg offset size _ => offset == 0 && size == 4
  | _ => false

/-- A chunk that IN could have brought in: an alphabetic type (R46) and at most IN_CAP payload bytes (R47). -/
def ChunkOk (cfg : Config) (c : Chunk) : Prop :=
  constructible c.type = true ∧ c.payload.length ≤ cfg.inCap

/-- What every reachable state keeps: R44 to R47, with the canonical form of IN and OUT, the extent of the output (R31,
R43), and the agreement of STATUS with the error registers (R34, R35, R36). -/
structure Inv (s : State) : Prop where
  /-- R7 -/
  params : s.cfg.wf = true
  /-- R44: BUSY = 1 iff PENDING holds a word -/
  busy : s.status.busy = s.pending.isSome
  /-- R21: CMD holds the last submitted word -/
  cmd : ∀ w, s.pending = some w → s.cmd = w
  /-- IN is in canonical form -/
  inWf : s.inBuf.wf = true
  /-- R42: IN has IN_CAP bytes -/
  inBound : ∀ c ∈ s.inBuf, c.1 < s.cfg.inCap
  /-- OUT is in canonical form -/
  outWf : s.outBuf.wf = true
  /-- R43: exactly OUT[0..OUT_LEN) is specified -/
  outExtent : ∀ i, (s.outBuf.read? i).isSome = decide (i < s.outLen.toNat)
  /-- R65: the output fits OUT -/
  outFits : s.outLen.toNat ≤ s.cfg.outCap
  /-- R45 -/
  tr : s.status.trValid = true → constructible s.tr = true
  /-- R46, R47 -/
  cr : s.status.crValid = true → ChunkOk s.cfg s.cr
  /-- R46 -/
  cl : ∀ c ∈ s.cl, ChunkOk s.cfg c
  /-- R47 -/
  count : s.cl.length ≤ s.cfg.maxChunks
  /-- R47 -/
  store : storeBytes s.cl ≤ s.cfg.storeCap
  /-- R26, R34, R35, R36: no error, no error information -/
  quiet : s.status.err = false → ShowsSuccess s
  /-- R95: the code of an error is not 0 -/
  code : s.status.err = true → s.status.ecode ≠ 0
  /-- R36: without POS_VALID, ERR_POS and ERR_INDEX are 0 -/
  position : s.errFlags.posValid = false → s.errPos = 0 ∧ s.errIndex = 0
  /-- R25, R26: before the first completion there is no error -/
  fresh : s.status.done = false → s.status.err = false

/-- A run may be used for a claim only while no model fault has been raised (R52, R263). -/
def NoFault (s : State) : Prop := s.fault = ⟨false, false⟩

/-- A final state (R263): no model fault, no pending command, nothing left that the host does. -/
def Final (s : State) : Prop := NoFault s ∧ s.pending = none ∧ s.env.script = []

/-- The states that runs from reset reach, with any parameters R7 allows and any outside world. -/
inductive Reachable : State → Prop where
  | reset (cfg : Config) (env : Env) (h : cfg.wf = true) : Reachable (State.resetWith cfg env)
  | step (s t : State) (h : Reachable s) (hs : Machine.step s = .next t) : Reachable t

end Sys2Proof.Machine
end

