-- ==== Sys2Proof/Certificates/Slice0/Obligations.lean ====
section
/-!
DEFINITION. The statements for the provers. Each docstring names the rules of spec/ that the statement formalises.
The vocabulary (`Succeeds`, `FailsWith`, `ModelFaults`, `KeepsExcept`, `InputIs`, `OutIs`, `Inv`, ...) is in
Sys2Proof/Safety.lean.
-/
open Sys2Proof Sys2Proof.Machine

/-! ### Command words and the step -/

/-- Sample words of R84's opcode map, the first and the last command of each unit, and words that are no command. -/
def Obligations.SampleWordsDecode : Prop :=
  decode 0x00000010#32 = .ok .tcFromBytes ∧ decode 0x00000018#32 = .ok .tcBytes ∧
  decode 0x00000020#32 = .ok .chNew ∧ decode 0x00000027#32 = .ok .chPayloadAsText ∧
  decode 0x00000030#32 = .ok .pngClear ∧ decode 0x00000037#32 = .ok .pngGet ∧
  decode 0x00000131#32 = .error .reservedBits ∧ decode 0x00000019#32 = .error .reservedOpcode

/-- R81, with the opcodes of R84 and the reserved ranges of R85: a word is a command exactly when it is that command's
word; otherwise bits 31:8 are not all 0, or the opcode lies in a reserved range, and the decoder says which. -/
def Obligations.DecodeAcceptsExactlyTheTable : Prop :=
  (∀ w : Word,
    (∀ i, decode w = .ok i ↔ w = encode i) ∧
    (decode w = .error .reservedBits ↔ 0x100 ≤ w.toNat) ∧
    (decode w = .error .reservedOpcode ↔
      w.toNat ≤ 0x0F ∨ (0x19 ≤ w.toNat ∧ w.toNat ≤ 0x1F) ∨ (0x28 ≤ w.toNat ∧ w.toNat ≤ 0x2F) ∨
      (0x38 ≤ w.toNat ∧ w.toNat ≤ 0xFF))) ∧
  [Instr.tcFromBytes, .tcFromString, .tcIsValid, .tcIsCritical, .tcIsPublic, .tcIsReservedBitValid, .tcIsSafeToCopy,
    .tcToString, .tcBytes].map (fun i => (encode i).toNat) =
      [0x10, 0x11, 0x12, 0x13, 0x14, 0x15, 0x16, 0x17, 0x18] ∧
  [Instr.chNew, .chParse, .chSerialize, .chLength, .chCrc, .chType, .chPayload, .chPayloadAsText].map
      (fun i => (encode i).toNat) = [0x20, 0x21, 0x22, 0x23, 0x24, 0x25, 0x26, 0x27] ∧
  [Instr.pngClear, .pngParse, .pngSerialize, .pngAppend, .pngChunkByType, .pngRemove, .pngCount, .pngGet].map
      (fun i => (encode i).toNat) = [0x30, 0x31, 0x32, 0x33, 0x34, 0x35, 0x36, 0x37]

/-- R251, the framer step: with a word pending that is a command, no model fault raised, and the command's time passed,
a step is `exec` of that command. And whatever time is left to it, the step is taken: while the host polls STATUS (the
command and WAIT lines of R86), some number of steps changes nothing of the block, and the next one is `exec` of the
command. (The schedule is the model's choice, log 5, and so is the reading of R86's polling, log 15.) -/
def Obligations.StepRunsThePendingCommand : Prop :=
  ∀ (s : State) (w : Word) (i : Instr), s.pending = some w → NoFault s → decode w = .ok i →
    ((s.env.wait = 0 ∨ s.env.script = []) → step s = exec i s) ∧
    (∀ rest, s.status.busy = true → s.env.script = .poll :: rest →
      ∃ k u, Host.Core.run Sys2Proof.core k s = .next u ∧ SameBlock s u ∧ u.env.script = .poll :: rest ∧
        step u = exec i u)

/-- R255: a pending word with bits 31:8 not all 0, or with a reserved opcode, completes with IllegalCommand and
ERR_A = w, and changes nothing but STATUS and the error registers. (When the framer moves is log 5.) -/
def Obligations.IllegalWordCompletesWithIllegalCommand : Prop :=
  ∀ (s : State) (w : Word), s.pending = some w → NoFault s → (s.env.wait = 0 ∨ s.env.script = []) →
    (0x100 ≤ w.toNat ∨ opcodeAssigned (w.toNat % 0x100) = false) →
    ∃ t, step s = .next t ∧ Finished t ∧ ShowsError t { kind := .illegalCommand, a := w } ∧ KeepsExcept [] s t

/-- What a step is when the framer does not move: the host's next event; or nothing, where nothing is pending and no model
fault has been raised; or a stop, where a model fault has been raised and the host does nothing more (U16). Four of these
are the model's choices: when the framer moves (log 5), that a step of an idle block answers the same state (log 9), that
the stop of a faulted machine comes only once the host does nothing more (log 7), and that an access which breaks the
protocol does nothing but raise HostFault (log 6). -/
def Obligations.StepWithoutTheFramer : Prop :=
  ∀ s : State,
    (∀ e rest, s.env.script = e :: rest → (s.pending = none ∨ ¬ NoFault s ∨ s.env.wait ≠ 0) →
      step s = .next (hostEvent e rest s)) ∧
    (s.env.script = [] → s.pending = none → NoFault s → step s = .next s) ∧
    (s.env.script = [] → ¬ NoFault s → step s = .fault .modelFaulted) ∧
    (∀ a, Violates s a → access a s = { s with fault := { s.fault with hostFault := true } })

/-- R21: a 4-byte write of CMD while BUSY = 0 submits the word: CMD and PENDING hold it and BUSY is 1, and nothing else of
the block changes. A read of CMD returns it. CMD is 0 at reset. -/
def Obligations.CmdWriteSubmits : Prop :=
  (∀ (s : State) (w : Word), s.status.busy = false →
    let t := access (.writeReg 0x000 4 w) s
    t = { s with cmd := w, pending := some w, status := { s.status with busy := true }, env := t.env } ∧
    (access (.readReg 0x000 4) t).env.readData = w) ∧
  State.reset.cmd = 0

/-- R24: BUSY is set by a submission and cleared by a completion, and while BUSY = 1 the other fields of STATUS keep the
values the previous completion left. -/
def Obligations.StatusHoldsWhileBusy : Prop :=
  (∀ (s : State) (w : Word), s.status.busy = false → (access (.writeReg 0x000 4 w) s).status.busy = true) ∧
  (∀ (i : Instr) (s t : State), exec i s = .next t → t.pending = none → s.pending ≠ none → t.status.busy = false) ∧
  (∀ s t : State, Inv s → step s = .next t → t.status.busy = true → t.status = { s.status with busy := true })

/-- R252, R253, R260: every command's step ends in one of three ways. It succeeds and writes at most the parts that R84
names, STATUS and the error registers; or it ends with an error and writes STATUS and the error registers only; or it
raises UninitInput and only FAULT changes. -/
def Obligations.EveryCommandIsAllOrNothing : Prop :=
  ∀ (i : Instr) (s : State),
    Succeeds i s (writesOf i) (fun _ => True) ∨ (∃ e, FailsWith i s e) ∨ ModelFaults i s .uninitInput

/-- R257: a command that reads TR while TR_VALID = 0 ends with NoTypeOperand, and one that reads CR while CR_VALID = 0
with NoChunkOperand, whatever else holds of the state. -/
def Obligations.EmptyOperandRegisterIsRefused : Prop :=
  ∀ s : State,
    (s.status.trValid = false →
      ∀ i ∈ [Instr.tcIsValid, .tcIsCritical, .tcIsPublic, .tcIsReservedBitValid, .tcIsSafeToCopy, .tcToString, .tcBytes,
             .chNew],
        FailsWith i s { kind := .noTypeOperand }) ∧
    (s.status.crValid = false →
      ∀ i ∈ [Instr.chSerialize, .chLength, .chCrc, .chType, .chPayload, .chPayloadAsText, .pngAppend],
        FailsWith i s { kind := .noChunkOperand })

/-- R256, CAP_KIND 0: the six commands that read IN end with CapacityExceeded where IN_LEN > IN_CAP, with ERR_A = IN_LEN
and ERR_B = IN_CAP. (CH_NEW checks TR first, R153.) -/
def Obligations.InputBeyondCapacityIsRefused : Prop :=
  ∀ s : State, s.cfg.inCap < s.inLen.toNat →
    (∀ i ∈ [Instr.tcFromString, .chParse, .pngParse, .pngChunkByType, .pngRemove],
      FailsWith i s { kind := .capacityExceeded, a := s.inLen, b := word s.cfg.inCap, flags := ⟨false, false, 0⟩ }) ∧
    (s.status.trValid = true →
      FailsWith .chNew s
        { kind := .capacityExceeded, a := s.inLen, b := word s.cfg.inCap, flags := ⟨false, false, 0⟩ })

/-- R64, where the byte is one of a 4-byte string, of CH_NEW's payload, of a record's length field or of a stream's
signature: an unwritten one raises UninitInput and the command does not complete. (For the other fields of a record and
for the records of a stream see ChunkParseByCases and ContainerParseByCases, with ChParseResult and PngParseResult.) -/
def Obligations.UnwrittenInputByteIsModelFault : Prop :=
  ∀ (s : State) (k : Nat), s.inLen.toNat ≤ s.cfg.inCap → s.inBuf.read? k = none →
    (s.inLen.toNat = 4 → k < 4 → ∀ i ∈ [Instr.tcFromString, .pngChunkByType, .pngRemove], ModelFaults i s .uninitInput) ∧
    (s.status.trValid = true → k < s.inLen.toNat → ModelFaults .chNew s .uninitInput) ∧
    (4 ≤ s.inLen.toNat → k < 4 → ModelFaults .chParse s .uninitInput) ∧
    (8 ≤ s.inLen.toNat → k < 8 → ModelFaults .pngParse s .uninitInput)

/-! ### Type codes -/

/-- R13: the alphabetic bytes, and their case. -/
def Obligations.CharacterClasses : Prop :=
  ∀ b : Byte,
    (alphabetic b = true ↔ (0x41 ≤ b.toNat ∧ b.toNat ≤ 0x5A) ∨ (0x61 ≤ b.toNat ∧ b.toNat ≤ 0x7A)) ∧
    (alphabetic b = true → (upper b = true ↔ b.getLsbD 5 = false) ∧ (lower b = true ↔ b.getLsbD 5 = true) ∧
      (upper b = true ↔ b.toNat ≤ 0x5A) ∧ (lower b = true ↔ 0x61 ≤ b.toNat))

/-- R96: a register holds a type code big-endian, and `bytes_be32` recovers it, both ways. -/
def Obligations.TypePacking : Prop :=
  (∀ t : TypeCode, (be32 t).toNat = t.b0.toNat * 2 ^ 24 + t.b1.toNat * 2 ^ 16 + t.b2.toNat * 2 ^ 8 + t.b3.toNat) ∧
  (∀ t : TypeCode, bytesBe32 (be32 t) = t) ∧ (∀ v : Word, be32 (bytesBe32 v) = v) ∧
  be32 ⟨0x52, 0x75, 0x53, 0x74⟩ = 0x52755374#32

/-- R122, R121: TC_FROM_BYTES puts the 4 bytes of ARG into TR if all are alphabetic; otherwise it ends with
InvalidTypeBytes, ERR_A = ARG and ERR_B the index of the first byte that is not. -/
def Obligations.TcFromBytesResult : Prop :=
  decode 0x00000010#32 = .ok .tcFromBytes ∧
  ∀ s : State,
    let t : TypeCode := ⟨s.arg.extractLsb' 24 8, s.arg.extractLsb' 16 8, s.arg.extractLsb' 8 8, s.arg.extractLsb' 0 8⟩
    ((∀ b ∈ t.toList, alphabetic b = true) →
      Succeeds .tcFromBytes s [.tr] fun u => u.tr = t ∧ u.status.trValid = true) ∧
    (∀ k b, t.toList[k]? = some b → alphabetic b = false → (∀ c ∈ t.toList.take k, alphabetic c = true) →
      FailsWith .tcFromBytes s { kind := .invalidTypeBytes, a := s.arg, b := word k })

/-- R123: TC_FROM_STRING, in the order of its checks. -/
def Obligations.TcFromStringResult : Prop :=
  decode 0x00000011#32 = .ok .tcFromString ∧
  ∀ s : State,
    (s.cfg.inCap < s.inLen.toNat →
      FailsWith .tcFromString s { kind := .capacityExceeded, a := s.inLen, b := word s.cfg.inCap }) ∧
    (s.inLen.toNat ≤ s.cfg.inCap → s.inLen.toNat ≠ 4 →
      FailsWith .tcFromString s { kind := .invalidTypeString, a := s.inLen }) ∧
    (∀ t : TypeCode, InputIs s t.toList →
      ((∀ b ∈ t.toList, alphabetic b = true) →
        Succeeds .tcFromString s [.tr] fun u => u.tr = t ∧ u.status.trValid = true) ∧
      (∀ k b, t.toList[k]? = some b → alphabetic b = false → (∀ c ∈ t.toList.take k, alphabetic c = true) →
        FailsWith .tcFromString s { kind := .invalidTypeBytes, a := be32 t, b := word k })) ∧
    (∀ k < 4, s.inLen.toNat = 4 → s.inLen.toNat ≤ s.cfg.inCap → s.inBuf.read? k = none →
      ModelFaults .tcFromString s .uninitInput)

/-- R125 to R129: the five predicates, 0 or 1 in RESULT, by the letter ranges of R13. TR holds 4 alphabetic bytes in every
reachable state (R45); TC_IS_VALID needs no such premise, since R124 checks it. -/
def Obligations.TypePredicates : Prop :=
  decode 0x00000012#32 = .ok .tcIsValid ∧ decode 0x00000013#32 = .ok .tcIsCritical ∧
  decode 0x00000014#32 = .ok .tcIsPublic ∧ decode 0x00000015#32 = .ok .tcIsReservedBitValid ∧
  decode 0x00000016#32 = .ok .tcIsSafeToCopy ∧
  ∀ s : State,
    let isUpper (b : Byte) : Bool := 0x41 ≤ b.toNat && b.toNat ≤ 0x5A
    let isLower (b : Byte) : Bool := 0x61 ≤ b.toNat && b.toNat ≤ 0x7A
    (s.status.trValid = true →
      Succeeds .tcIsValid s [.result] fun t =>
        t.result = if (∀ b ∈ s.tr.toList, alphabetic b = true) ∧ isUpper s.tr.b2 = true then 1 else 0) ∧
    (s.status.trValid = true → (∀ b ∈ s.tr.toList, alphabetic b = true) →
      (Succeeds .tcIsCritical s [.result] fun t => t.result = if isUpper s.tr.b0 then 1 else 0) ∧
      (Succeeds .tcIsPublic s [.result] fun t => t.result = if isUpper s.tr.b1 then 1 else 0) ∧
      (Succeeds .tcIsReservedBitValid s [.result] fun t => t.result = if isUpper s.tr.b2 then 1 else 0) ∧
      (Succeeds .tcIsSafeToCopy s [.result] fun t => t.result = if isLower s.tr.b3 then 1 else 0)) ∧
    (s.status.trValid = false →
      ∀ i ∈ [Instr.tcIsValid, .tcIsCritical, .tcIsPublic, .tcIsReservedBitValid, .tcIsSafeToCopy],
        FailsWith i s { kind := .noTypeOperand })

/-- R130, R131: TC_TO_STRING outputs the 4 bytes of TR (and ends with NonUtf8TypeBytes if one is not alphabetic, which no
reachable state has), and TC_BYTES packs them into RESULT. -/
def Obligations.TypeAccessors : Prop :=
  decode 0x00000017#32 = .ok .tcToString ∧ decode 0x00000018#32 = .ok .tcBytes ∧
  ∀ s : State,
    (s.status.trValid = true →
      ((∀ b ∈ s.tr.toList, alphabetic b = true) →
        Succeeds .tcToString s [.out] fun t => OutIs t [s.tr.b0, s.tr.b1, s.tr.b2, s.tr.b3]) ∧
      ((∃ b ∈ s.tr.toList, alphabetic b = false) →
        FailsWith .tcToString s { kind := .nonUtf8TypeBytes, a := be32 s.tr }) ∧
      (Succeeds .tcBytes s [.result] fun t =>
        t.result.toNat = s.tr.b0.toNat * 2 ^ 24 + s.tr.b1.toNat * 2 ^ 16 + s.tr.b2.toNat * 2 ^ 8 + s.tr.b3.toNat)) ∧
    (s.status.trValid = false → ∀ i ∈ [Instr.tcToString, .tcBytes], FailsWith i s { kind := .noTypeOperand })

/-- R131's corner case: where TC_FROM_BYTES succeeds, TC_BYTES after it gives RESULT = ARG. -/
def Obligations.TypeCodeSurvivesTheRegister : Prop :=
  ∀ s t : State, exec .tcFromBytes s = .next t → t.status.err = false →
    Succeeds .tcBytes t [.result] fun u => u.result = s.arg

/-! ### The wire format -/

/-- R87: the layout of a record, byte by byte. -/
def Obligations.RecordLayout : Prop :=
  ∀ c : Chunk, c.payload.length < 2 ^ 32 →
    let n := c.payload.length
    let crc := crc32 (c.type.toList ++ c.payload)
    (record c).length = 12 + n ∧
    (record c).take 8 = [BitVec.ofNat 8 (n / 2 ^ 24), BitVec.ofNat 8 (n / 2 ^ 16), BitVec.ofNat 8 (n / 2 ^ 8),
      BitVec.ofNat 8 n, c.type.b0, c.type.b1, c.type.b2, c.type.b3] ∧
    (∀ k < n, (record c)[8 + k]? = c.payload[k]?) ∧
    (record c).drop (8 + n) =
      [crc.extractLsb' 24 8, crc.extractLsb' 16 8, crc.extractLsb' 8 8, crc.extractLsb' 0 8]

/-- R91: the CRC of the source's fixed vector, and the catalogue check value. -/
def Obligations.CrcCheckValues : Prop :=
  crc32 ([0x52, 0x75, 0x53, 0x74] ++
    [0x54, 0x68, 0x69, 0x73, 0x20, 0x69, 0x73, 0x20, 0x77, 0x68, 0x65, 0x72, 0x65, 0x20, 0x79, 0x6F, 0x75, 0x72, 0x20,
     0x73, 0x65, 0x63, 0x72, 0x65, 0x74, 0x20, 0x6D, 0x65, 0x73, 0x73, 0x61, 0x67, 0x65, 0x20, 0x77, 0x69, 0x6C, 0x6C,
     0x20, 0x62, 0x65, 0x21]) = 2882656334#32 ∧
  crc32 [0x31, 0x32, 0x33, 0x34, 0x35, 0x36, 0x37, 0x38, 0x39] = 0xCBF43926#32

/-- Derived from R90: the CRC tells any two sequences apart that differ in exactly one byte. -/
def Obligations.OneChangedByteChangesTheCrc : Prop :=
  ∀ (p q : List Byte) (a b : Byte), a ≠ b → crc32 (p ++ a :: q) ≠ crc32 (p ++ b :: q)

/-- R160: `valid_up_to` equals the length exactly for well-formed sequences; the prefix before it splits into forms; no
form begins at it; and at most one form begins a sequence, so the split is unique. -/
def Obligations.Utf8ValidPrefix : Prop :=
  ∀ s : List Byte,
    (validUpTo s = s.length ↔ WellFormedUtf8 s) ∧ WellFormedUtf8 (s.take (validUpTo s)) ∧
    (∀ f, Utf8Form f → ¬ f <+: s.drop (validUpTo s)) ∧
    ∀ f g, Utf8Form f → Utf8Form g → f <+: s → g <+: s → f = g

/-- R152: `chunk_parse(base, n)`, step by step, on the IN bytes it reads; and R64: where the checks before a field have
passed, an unwritten byte of that field (length, type, payload or crc) is UninitInput. -/
def Obligations.ChunkParseByCases : Prop :=
  ∀ (s : State) (base n : Nat),
    (n < 4 → chunkParse s.inBuf base n = raise { kind := .truncatedInput, flags := ⟨false, true, 0⟩ }) ∧
    (∀ k < 4, 4 ≤ n → s.inBuf.read? (base + k) = none → chunkParse s.inBuf base n = .error (.fault .uninitInput)) ∧
    (∀ len : Word, 4 ≤ n → InHolds s base (bytesBe32 len).toList →
      (n - 4 < len.toNat + 8 →
        chunkParse s.inBuf base n = raise { kind := .truncatedInput, a := len, b := word (n - 4) }) ∧
      (∀ k < 4, len.toNat + 8 ≤ n - 4 → s.inBuf.read? (base + 4 + k) = none →
        chunkParse s.inBuf base n = .error (.fault .uninitInput)) ∧
      (∀ t : Bytes4, len.toNat + 8 ≤ n - 4 → InHolds s (base + 4) t.toList →
        (∀ k b, t.toList[k]? = some b → alphabetic b = false → (∀ c ∈ t.toList.take k, alphabetic c = true) →
          chunkParse s.inBuf base n = raise { kind := .invalidTypeBytes, a := be32 t, b := word k }) ∧
        ((∀ b ∈ t.toList, alphabetic b = true) → upper t.b2 = false →
          chunkParse s.inBuf base n = raise { kind := .invalidChunkType, a := be32 t }) ∧
        (∀ k < len.toNat, (∀ b ∈ t.toList, alphabetic b = true) → upper t.b2 = true →
          s.inBuf.read? (base + 8 + k) = none → chunkParse s.inBuf base n = .error (.fault .uninitInput)) ∧
        (∀ p : List Byte, ∀ k < 4, (∀ b ∈ t.toList, alphabetic b = true) → upper t.b2 = true →
          p.length = len.toNat → InHolds s (base + 8) p → s.inBuf.read? (base + 8 + len.toNat + k) = none →
          chunkParse s.inBuf base n = .error (.fault .uninitInput)) ∧
        (∀ (p : List Byte) (crc : Word), (∀ b ∈ t.toList, alphabetic b = true) → upper t.b2 = true →
          p.length = len.toNat → InHolds s (base + 8) p → InHolds s (base + 8 + len.toNat) (bytesBe32 crc).toList →
          (crc32 (t.toList ++ p) ≠ crc →
            chunkParse s.inBuf base n = raise { kind := .crcMismatch, a := crc32 (t.toList ++ p), b := crc }) ∧
          (crc32 (t.toList ++ p) = crc → chunkParse s.inBuf base n = .ok (⟨t, p⟩, 12 + len.toNat)))))

/-- R201, R202: `container_parse(n)` on an input that fails the signature check, and on one that begins with the stream of
a list of valid chunks: it ends there, or 1 to 11 bytes remain, or the next record fails. R64: an unwritten byte of the
signature is UninitInput, and a model fault in the next record is that of the whole parse, with no annotation. -/
def Obligations.ContainerParseByCases : Prop :=
  ∀ (s : State) (n : Nat),
    (n < 8 → containerParse s.inBuf n = raise { kind := .badSignature }) ∧
    (∀ k < 8, 8 ≤ n → s.inBuf.read? k = none → containerParse s.inBuf n = .error (.fault .uninitInput)) ∧
    (∀ bs : List Byte, 8 ≤ n → bs.length = 8 → InHolds s 0 bs →
      bs ≠ [0x89, 0x50, 0x4E, 0x47, 0x0D, 0x0A, 0x1A, 0x0A] →
      containerParse s.inBuf n = raise { kind := .badSignature }) ∧
    (∀ l : List Chunk, (∀ c ∈ l, isValid c.type = true ∧ c.payload.length < 2 ^ 32) → InHolds s 0 (stream l) →
      let pos := (stream l).length
      (n = pos → containerParse s.inBuf n = .ok l) ∧
      (pos < n → n - pos < 12 → containerParse s.inBuf n = raise
        { kind := .unexpectedTrailingBytes, a := word (n - pos), pos := word pos, index := word l.length,
          flags := ⟨true, false, 0⟩ }) ∧
      (∀ e : ErrorInfo, 12 ≤ n - pos → chunkParse s.inBuf pos (n - pos) = raise e →
        containerParse s.inBuf n = raise
          { e with pos := word pos, index := word l.length, flags := { e.flags with posValid := true } }) ∧
      (∀ f : ModelFault, 12 ≤ n - pos → chunkParse s.inBuf pos (n - pos) = .error (.fault f) →
        containerParse s.inBuf n = .error (.fault f)))

/-! ### Chunks -/

/-- R153: CH_NEW. -/
def Obligations.ChNewResult : Prop :=
  decode 0x00000020#32 = .ok .chNew ∧
  ∀ s : State,
    (s.status.trValid = false → FailsWith .chNew s { kind := .noTypeOperand }) ∧
    (s.status.trValid = true → s.cfg.inCap < s.inLen.toNat →
      FailsWith .chNew s { kind := .capacityExceeded, a := s.inLen, b := word s.cfg.inCap }) ∧
    (∀ p : List Byte, s.status.trValid = true → InputIs s p →
      Succeeds .chNew s [.cr] fun t => t.cr = ⟨s.tr, p⟩ ∧ t.status.crValid = true) ∧
    (∀ k < s.inLen.toNat, s.status.trValid = true → s.inLen.toNat ≤ s.cfg.inCap → s.inBuf.read? k = none →
      ModelFaults .chNew s .uninitInput)

/-- R154: CH_PARSE is `chunk_parse(0, IN_LEN)`, with the bytes used in RESULT and the trailing bytes in AUX. None of its
errors has POS_VALID. -/
def Obligations.ChParseResult : Prop :=
  decode 0x00000021#32 = .ok .chParse ∧
  ∀ s : State,
    (s.cfg.inCap < s.inLen.toNat →
      FailsWith .chParse s { kind := .capacityExceeded, a := s.inLen, b := word s.cfg.inCap }) ∧
    (s.inLen.toNat ≤ s.cfg.inCap →
      (∀ c used, chunkParse s.inBuf 0 s.inLen.toNat = .ok (c, used) →
        Succeeds .chParse s [.cr, .result, .aux] fun t =>
          t.cr = c ∧ t.status.crValid = true ∧ t.result.toNat = used ∧ used = 12 + c.payload.length ∧
          t.aux.toNat + used = s.inLen.toNat) ∧
      (∀ e, chunkParse s.inBuf 0 s.inLen.toNat = raise e → FailsWith .chParse s e ∧ e.flags.posValid = false) ∧
      (∀ f, chunkParse s.inBuf 0 s.inLen.toNat = .error (.fault f) → ModelFaults .chParse s f))

/-- CH_PARSE succeeds exactly on the record of a chunk with a valid type, with or without bytes after it (derived from
R152 and R154). -/
def Obligations.ChParseAcceptsExactlyRecords : Prop :=
  ∀ (s : State) (c : Chunk), NoFault s → s.inLen.toNat ≤ s.cfg.inCap →
    ((Succeeds .chParse s [.cr, .result, .aux] fun t => t.cr = c ∧ t.status.crValid = true) ↔
      (isValid c.type = true ∧ c.payload.length < 2 ^ 32 ∧ 12 + c.payload.length ≤ s.inLen.toNat ∧
        InHolds s 0 (record c)))

/-- R155: CH_SERIALIZE. -/
def Obligations.ChSerializeResult : Prop :=
  decode 0x00000022#32 = .ok .chSerialize ∧
  ∀ s : State,
    (s.status.crValid = false → FailsWith .chSerialize s { kind := .noChunkOperand }) ∧
    (s.status.crValid = true → s.cfg.outCap < 2 ^ 32 →
      (12 + s.cr.payload.length ≤ s.cfg.outCap →
        Succeeds .chSerialize s [.out] fun t => OutIs t (record s.cr)) ∧
      (s.cfg.outCap < 12 + s.cr.payload.length →
        FailsWith .chSerialize s
          { kind := .capacityExceeded, a := sat32 (12 + s.cr.payload.length), b := word s.cfg.outCap,
            flags := ⟨false, false, 1⟩ }))

/-- R156, R157, R158: CH_LENGTH, CH_CRC and CH_TYPE. A payload fits a 32-bit length in every reachable state (R47). -/
def Obligations.ChunkAccessors : Prop :=
  decode 0x00000023#32 = .ok .chLength ∧ decode 0x00000024#32 = .ok .chCrc ∧ decode 0x00000025#32 = .ok .chType ∧
  ∀ s : State,
    (s.status.crValid = true →
      (s.cr.payload.length < 2 ^ 32 →
        Succeeds .chLength s [.result] fun t => t.result.toNat = s.cr.payload.length) ∧
      (Succeeds .chCrc s [.result] fun t => t.result = crc32 (s.cr.type.toList ++ s.cr.payload)) ∧
      (Succeeds .chType s [.tr, .result] fun t =>
        t.tr = s.cr.type ∧ t.status.trValid = true ∧ t.result = be32 s.cr.type)) ∧
    (s.status.crValid = false →
      ∀ i ∈ [Instr.chLength, .chCrc, .chType], FailsWith i s { kind := .noChunkOperand })

/-- R159, R161: CH_PAYLOAD outputs the payload unchecked; CH_PAYLOAD_AS_TEXT first requires well-formed UTF-8 and
otherwise reports the length of the valid prefix. -/
def Obligations.PayloadOutput : Prop :=
  decode 0x00000026#32 = .ok .chPayload ∧ decode 0x00000027#32 = .ok .chPayloadAsText ∧
  ∀ s : State,
    (s.status.crValid = false → ∀ i ∈ [Instr.chPayload, .chPayloadAsText], FailsWith i s { kind := .noChunkOperand }) ∧
    (s.status.crValid = true → s.cfg.outCap < 2 ^ 32 →
      (s.cr.payload.length ≤ s.cfg.outCap → Succeeds .chPayload s [.out] fun t => OutIs t s.cr.payload) ∧
      (s.cfg.outCap < s.cr.payload.length →
        FailsWith .chPayload s
          { kind := .capacityExceeded, a := sat32 s.cr.payload.length, b := word s.cfg.outCap,
            flags := ⟨false, false, 1⟩ }) ∧
      (¬ WellFormedUtf8 s.cr.payload →
        FailsWith .chPayloadAsText s { kind := .nonUtf8Payload, a := word (validUpTo s.cr.payload) }) ∧
      (WellFormedUtf8 s.cr.payload → s.cr.payload.length ≤ s.cfg.outCap →
        Succeeds .chPayloadAsText s [.out] fun t => OutIs t s.cr.payload) ∧
      (WellFormedUtf8 s.cr.payload → s.cfg.outCap < s.cr.payload.length →
        FailsWith .chPayloadAsText s
          { kind := .capacityExceeded, a := sat32 s.cr.payload.length, b := word s.cfg.outCap,
            flags := ⟨false, false, 1⟩ }))

/-- R163, the round trip of a chunk: CH_NEW, CH_SERIALIZE, the host's copy of OUT to IN, and CH_PARSE give the chunk
back. -/
def Obligations.ChunkRoundTrip : Prop :=
  ∀ (s : State) (p : List Byte), s.status.trValid = true → isValid s.tr = true → InputIs s p → s.cfg.outCap < 2 ^ 32 →
    12 + p.length ≤ min s.cfg.inCap s.cfg.outCap →
    ∃ s₁ s₂, exec .chNew s = .next s₁ ∧ exec .chSerialize s₁ = .next s₂ ∧
      ∀ s₃, CopiedOut s₂ s₃ →
        Succeeds .chParse s₃ [.cr, .result, .aux] fun t =>
          t.cr = ⟨s.tr, p⟩ ∧ t.result.toNat = 12 + p.length ∧ t.aux = 0

/-- R164: a record whose crc field is replaced by another value gives CrcMismatch, with ERR_A the original CRC and ERR_B
the new value. -/
def Obligations.TamperedCrcIsCaught : Prop :=
  ∀ (s : State) (c : Chunk) (v : Word), isValid c.type = true → c.payload.length < 2 ^ 32 →
    v ≠ crc32 (c.type.toList ++ c.payload) →
    InputIs s ((record c).take (8 + c.payload.length) ++ (bytesBe32 v).toList) →
    FailsWith .chParse s { kind := .crcMismatch, a := crc32 (c.type.toList ++ c.payload), b := v }

/-- R165: a chunk whose type is not valid is built and serialized normally, and parsing its record gives
InvalidChunkType with ERR_A its packed type. -/
def Obligations.InvalidTypeIsCaughtOnlyByParsing : Prop :=
  ∀ (s : State) (p : List Byte), s.status.trValid = true → constructible s.tr = true → isValid s.tr = false →
    InputIs s p → s.cfg.outCap < 2 ^ 32 → 12 + p.length ≤ min s.cfg.inCap s.cfg.outCap →
    ∃ s₁ s₂, exec .chNew s = .next s₁ ∧ exec .chSerialize s₁ = .next s₂ ∧ ShowsSuccess s₁ ∧ ShowsSuccess s₂ ∧
      OutIs s₂ (record ⟨s.tr, p⟩) ∧
      ∀ s₃, CopiedOut s₂ s₃ → FailsWith .chParse s₃ { kind := .invalidChunkType, a := be32 s.tr }

/-! ### The container -/

/-- R203, R210: PNG_CLEAR and PNG_COUNT. The count fits a register in every reachable state (R47), and equals what NCHUNKS
reads. -/
def Obligations.ClearAndCount : Prop :=
  decode 0x00000030#32 = .ok .pngClear ∧ decode 0x00000036#32 = .ok .pngCount ∧
  ∀ s : State,
    (Succeeds .pngClear s [.cl] fun t => t.cl = []) ∧
    (s.cl.length < 2 ^ 32 →
      Succeeds .pngCount s [.result] fun t => t.result.toNat = s.cl.length ∧ t.result = t.regView .nChunks)

/-- R211, R258: PNG_GET copies CL[ARG] into CR, and ends with IndexOutOfRange where ARG is not below len(CL). -/
def Obligations.PngGetResult : Prop :=
  decode 0x00000037#32 = .ok .pngGet ∧
  ∀ s : State,
    (∀ c, s.cl[s.arg.toNat]? = some c →
      Succeeds .pngGet s [.cr] fun t => t.cr = c ∧ t.status.crValid = true) ∧
    (s.cl.length ≤ s.arg.toNat →
      FailsWith .pngGet s { kind := .indexOutOfRange, a := s.arg, b := word s.cl.length })

/-- R206: PNG_APPEND. -/
def Obligations.PngAppendResult : Prop :=
  decode 0x00000033#32 = .ok .pngAppend ∧
  ∀ s : State, s.cfg.wf = true →
    (s.status.crValid = false → FailsWith .pngAppend s { kind := .noChunkOperand }) ∧
    (s.status.crValid = true →
      (s.cfg.maxChunks < s.cl.length + 1 →
        FailsWith .pngAppend s
          { kind := .capacityExceeded, a := sat32 (s.cl.length + 1), b := word s.cfg.maxChunks,
            flags := ⟨false, false, 2⟩ }) ∧
      (s.cl.length + 1 ≤ s.cfg.maxChunks →
        (s.cfg.storeCap < storeBytes s.cl + s.cr.payload.length →
          FailsWith .pngAppend s
            { kind := .capacityExceeded, a := sat32 (storeBytes s.cl + s.cr.payload.length), b := word s.cfg.storeCap,
              flags := ⟨false, false, 3⟩ }) ∧
        (storeBytes s.cl + s.cr.payload.length ≤ s.cfg.storeCap →
          Succeeds .pngAppend s [.cl, .result] fun t =>
            t.cl = s.cl ++ [s.cr] ∧ t.result.toNat = s.cl.length + 1)))

/-- R205: PNG_SERIALIZE outputs the signature and the records of CL in order, with CL unchanged. -/
def Obligations.PngSerializeResult : Prop :=
  decode 0x00000032#32 = .ok .pngSerialize ∧
  ∀ s : State, s.cfg.outCap < 2 ^ 32 →
    let out := [0x89, 0x50, 0x4E, 0x47, 0x0D, 0x0A, 0x1A, 0x0A] ++ (s.cl.map record).flatten
    (out.length ≤ s.cfg.outCap → Succeeds .pngSerialize s [.out] fun t => OutIs t out) ∧
    (s.cfg.outCap < out.length →
      FailsWith .pngSerialize s
        { kind := .capacityExceeded, a := sat32 out.length, b := word s.cfg.outCap, flags := ⟨false, false, 1⟩ })

/-- R204: PNG_PARSE, over `container_parse(IN_LEN)`. -/
def Obligations.PngParseResult : Prop :=
  decode 0x00000031#32 = .ok .pngParse ∧
  ∀ s : State, s.cfg.wf = true →
    (s.cfg.inCap < s.inLen.toNat →
      FailsWith .pngParse s { kind := .capacityExceeded, a := s.inLen, b := word s.cfg.inCap }) ∧
    (s.inLen.toNat ≤ s.cfg.inCap →
      (∀ e, containerParse s.inBuf s.inLen.toNat = raise e → FailsWith .pngParse s e) ∧
      (∀ f, containerParse s.inBuf s.inLen.toNat = .error (.fault f) → ModelFaults .pngParse s f) ∧
      (∀ l, containerParse s.inBuf s.inLen.toNat = .ok l →
        (s.cfg.maxChunks < l.length →
          FailsWith .pngParse s
            { kind := .capacityExceeded, a := word l.length, b := word s.cfg.maxChunks, flags := ⟨false, false, 2⟩ }) ∧
        (l.length ≤ s.cfg.maxChunks → s.cfg.storeCap < storeBytes l →
          FailsWith .pngParse s
            { kind := .capacityExceeded, a := word (storeBytes l), b := word s.cfg.storeCap,
              flags := ⟨false, false, 3⟩ }) ∧
        (l.length ≤ s.cfg.maxChunks → storeBytes l ≤ s.cfg.storeCap →
          Succeeds .pngParse s [.cl, .result] fun t => t.cl = l ∧ t.result.toNat = l.length)))

/-- PNG_PARSE succeeds exactly on the stream of a list of chunks with valid types that fits MAX_CHUNKS and STORE_CAP,
with nothing after it (derived from R202 and R204). -/
def Obligations.PngParseAcceptsExactlyStreams : Prop :=
  ∀ (s : State) (l : List Chunk), NoFault s → s.cfg.wf = true →
    ((Succeeds .pngParse s [.cl, .result] fun t => t.cl = l) ↔
      ((∀ c ∈ l, isValid c.type = true) ∧ InputIs s (stream l) ∧ l.length ≤ s.cfg.maxChunks ∧
        storeBytes l ≤ s.cfg.storeCap))

/-- R207, R208: PNG_CHUNK_BY_TYPE finds the first chunk of the queried type; a query of another length than 4, or one
that no chunk matches, gives RESULT = AUX = 0 and leaves CR as it is. -/
def Obligations.PngChunkByTypeResult : Prop :=
  decode 0x00000034#32 = .ok .pngChunkByType ∧
  ∀ s : State,
    (s.cfg.inCap < s.inLen.toNat →
      FailsWith .pngChunkByType s { kind := .capacityExceeded, a := s.inLen, b := word s.cfg.inCap }) ∧
    (s.inLen.toNat ≤ s.cfg.inCap → s.inLen.toNat ≠ 4 →
      Succeeds .pngChunkByType s [.result, .aux] fun t => t.result = 0 ∧ t.aux = 0) ∧
    (∀ q : TypeCode, InputIs s q.toList →
      ((∀ c ∈ s.cl, c.type ≠ q) →
        Succeeds .pngChunkByType s [.result, .aux] fun t => t.result = 0 ∧ t.aux = 0) ∧
      (∀ before c after, s.cl = before ++ c :: after → (∀ d ∈ before, d.type ≠ q) → c.type = q →
        before.length < 2 ^ 32 →
        Succeeds .pngChunkByType s [.cr, .result, .aux] fun t =>
          t.cr = c ∧ t.status.crValid = true ∧ t.result = 1 ∧ t.aux.toNat = before.length)) ∧
    (∀ k < 4, s.inLen.toNat = 4 → s.inLen.toNat ≤ s.cfg.inCap → s.inBuf.read? k = none →
      ModelFaults .pngChunkByType s .uninitInput)

/-- R209, R215: PNG_REMOVE removes the first chunk of the queried type and keeps the order of the rest; without a match it
ends with ChunkNotFound and CL is unchanged. -/
def Obligations.PngRemoveResult : Prop :=
  decode 0x00000035#32 = .ok .pngRemove ∧
  ∀ s : State,
    (s.cfg.inCap < s.inLen.toNat →
      FailsWith .pngRemove s { kind := .capacityExceeded, a := s.inLen, b := word s.cfg.inCap }) ∧
    (s.inLen.toNat ≤ s.cfg.inCap → s.inLen.toNat ≠ 4 →
      FailsWith .pngRemove s { kind := .chunkNotFound, a := s.inLen, b := 0 }) ∧
    (∀ q : TypeCode, InputIs s q.toList →
      ((∀ c ∈ s.cl, c.type ≠ q) → FailsWith .pngRemove s { kind := .chunkNotFound, a := 4, b := be32 q }) ∧
      (∀ before c after, s.cl = before ++ c :: after → (∀ d ∈ before, d.type ≠ q) → c.type = q →
        s.cl.length < 2 ^ 32 →
        Succeeds .pngRemove s [.cl, .cr, .result, .aux] fun t =>
          t.cr = c ∧ t.status.crValid = true ∧ t.cl = before ++ after ∧ t.result.toNat = before.length ∧
          t.aux.toNat = t.cl.length ∧ t.cl.length + 1 = s.cl.length)) ∧
    (∀ k < 4, s.inLen.toNat = 4 → s.inLen.toNat ≤ s.cfg.inCap → s.inBuf.read? k = none →
      ModelFaults .pngRemove s .uninitInput)

/-- R212, both directions. From a container of valid chunks, PNG_SERIALIZE, the host's copy of OUT to IN, and PNG_PARSE
leave CL as it was; and where PNG_PARSE succeeds on an input, PNG_SERIALIZE after it outputs exactly that input. The
premises on the parameters and on CL are invariants (R7, R47). -/
def Obligations.ContainerRoundTrip : Prop :=
  (∀ s : State, s.cfg.wf = true → (∀ c ∈ s.cl, isValid c.type = true) → s.cl.length ≤ s.cfg.maxChunks →
    storeBytes s.cl ≤ s.cfg.storeCap → 8 + (s.cl.map fun c => 12 + c.payload.length).sum ≤ min s.cfg.outCap s.cfg.inCap →
    ∃ s₁, exec .pngSerialize s = .next s₁ ∧
      ∀ s₂, CopiedOut s₁ s₂ →
        Succeeds .pngParse s₂ [.cl, .result] fun t => t.cl = s.cl ∧ t.result.toNat = s.cl.length) ∧
  (∀ (s t : State) (input : List Byte), s.cfg.wf = true → InputIs s input → input.length ≤ s.cfg.outCap →
    exec .pngParse s = .next t → t.status.err = false → t.pending = none → s.pending ≠ none →
    Succeeds .pngSerialize t [.out] fun u => OutIs u input)

/-- R213: after a successful PNG_APPEND of CR = (T, P), PNG_CHUNK_BY_TYPE with the query T finds it if no earlier entry has
type T, and otherwise finds the first such earlier entry. -/
def Obligations.AppendThenLookUp : Prop :=
  ∀ (s t u : State), s.cfg.wf = true → exec .pngAppend s = .next t → t.status.err = false →
    u = { t with inBuf := u.inBuf, inLen := u.inLen, env := u.env } → InputIs u s.cr.type.toList →
    ((∀ c ∈ s.cl, c.type ≠ s.cr.type) →
      Succeeds .pngChunkByType u [.cr, .result, .aux] fun v => v.result = 1 ∧ v.cr = s.cr) ∧
    (∀ before c after, s.cl = before ++ c :: after → (∀ d ∈ before, d.type ≠ s.cr.type) → c.type = s.cr.type →
      Succeeds .pngChunkByType u [.cr, .result, .aux] fun v => v.result = 1 ∧ v.cr = c)

/-- R46's last sentence: every chunk that a parse produced has a valid type code. -/
def Obligations.ParsedChunksAreValid : Prop :=
  ∀ s t : State, s.pending ≠ none → t.pending = none → t.status.err = false →
    (exec .chParse s = .next t → isValid t.cr.type = true) ∧
    (exec .pngParse s = .next t → ∀ c ∈ t.cl, isValid c.type = true)

/-! ### Reset and the host port -/

/-- R281: what reset leaves, whatever the parameters, and that `State.reset` is such a state. TR and CR hold no value
there. -/
def Obligations.ResetValues : Prop :=
  ∀ (cfg : Config) (env : Env),
    let s := State.resetWith cfg env
    s.cmd = 0 ∧ s.arg = 0 ∧ s.status.toWord = 0 ∧ s.result = 0 ∧ s.aux = 0 ∧ s.inLen = 0 ∧ s.outLen = 0 ∧ s.errA = 0 ∧
    s.errB = 0 ∧ s.errFlags.toWord = 0 ∧ s.errPos = 0 ∧ s.errIndex = 0 ∧ s.regView .nChunks = 0 ∧
    s.regView .storeUsed = 0 ∧ s.cl = [] ∧ (∀ i, s.inBuf.read? i = none) ∧ (∀ i, s.outBuf.read? i = none) ∧
    s.pending = none ∧ NoFault s ∧ s.cfg = cfg ∧ s.regView .id = 0x504E4746#32 ∧
    ∃ (cfg' : Config) (env' : Env), cfg'.wf = true ∧ State.reset = State.resetWith cfg' env'

/-- R282, R280: a reset that the platform asserts before the framer moves, whether a command is pending or not and whether
or not a model fault has been raised, leaves exactly the reset state of the block, with its parameters. (TR and CR hold
unspecified bytes then, with both valid bits 0.) The model's choices in it: that the reset lands between two steps and
that the host's script goes on (log 16), and when the framer moves (log 5). -/
def Obligations.ResetInputDiscardsEverything : Prop :=
  ∀ (s : State) (rest : List HostEvent), s.env.script = .reset :: rest →
    (s.pending = none ∨ ¬ NoFault s ∨ s.env.wait ≠ 0) →
    ∃ t, step s = .next t ∧ t = { State.resetWith s.cfg t.env with tr := t.tr, cr := t.cr } ∧ t.env.script = rest

/-- R61: the register map. A 4-byte read at each offset of the map returns that register or view: while BUSY = 0 for the
ten whose value is open while BUSY = 1 (R28 to R36, R285), and always for the others, STATUS among them. CMD, ARG and
IN_LEN are writable while BUSY = 0, and every other access is a HostFault. (That an offset of 0x100 and more is one too
is the model's reading, log 13.) -/
def Obligations.RegisterMap : Prop :=
  ∀ s : State,
    (∀ p ∈ [(0x000, s.cmd), (0x004, s.arg), (0x008, s.status.toWord), (0x014, s.inLen), (0x040, word s.cfg.inCap),
            (0x044, word s.cfg.outCap), (0x048, word s.cfg.maxChunks), (0x04C, word s.cfg.storeCap),
            (0x050, 0x504E4746#32)],
      access (.readReg p.1 4) s = { s with env := { s.env with readData := p.2 } }) ∧
    (s.status.busy = false →
      ∀ p ∈ [(0x00C, s.result), (0x010, s.aux), (0x018, s.outLen), (0x01C, word s.cl.length), (0x020, s.errA),
             (0x024, s.errB), (0x028, s.errFlags.toWord), (0x02C, s.errPos), (0x030, s.errIndex),
             (0x034, word (storeBytes s.cl))],
        access (.readReg p.1 4) s = { s with env := { s.env with readData := p.2 } }) ∧
    (s.status.busy = false → ∀ v : Word,
      access (.writeReg 0x000 4 v) s = s.submit v ∧
      access (.writeReg 0x004 4 v) s = { s with arg := v } ∧
      access (.writeReg 0x014 4 v) s = { s with inLen := v }) ∧
    (∀ offset size, (size ≠ 4 ∨ offset ∉ mapOffsets) →
      (access (.readReg offset size) s).fault.hostFault = true) ∧
    (∀ offset size v, (size ≠ 4 ∨ offset ∉ writableOffsets) →
      (access (.writeReg offset size v) s).fault.hostFault = true)

/-- R262: an access adds HostFault to FAULT exactly when it breaks the protocol, and no access adds anything else. (`Violates`
also takes REG offsets of 0x100 and more and a buffer width of 0, which is the model's reading, log 13.) -/
def Obligations.HostFaultExactlyOnViolation : Prop :=
  ∀ (s : State) (a : HostAccess),
    ((access a s).fault.hostFault = true ↔ s.fault.hostFault = true ∨ Violates s a) ∧
    (access a s).fault.uninitInput = s.fault.uninitInput

/-- R71: a read changes nothing of the block, and of the accesses that keep to the protocol only a write of CMD does more
than store a value in ARG, IN_LEN or IN. A read that is repeated while BUSY = 0 and no command completes, with or without
another read in between, returns the same value. -/
def Obligations.OnlyCmdWriteHasSideEffects : Prop :=
  ∀ (s : State) (a : HostAccess), ¬ Violates s a →
    (isRead a = true → SameBlock s (access a s)) ∧
    (isRead a = true → s.status.busy = false → access a (access a s) = access a s ∧
      ∀ b, isRead b = true → ¬ Violates s b →
        (access a (access b (access a s))).env.readData = (access a s).env.readData) ∧
    (isRead a = false → isSubmission a = false →
      let t := access a s
      t = { s with arg := t.arg, inLen := t.inLen, inBuf := t.inBuf })

/-- R23, R35: the fields of STATUS and of ERR_FLAGS in their registers, and the reserved bits, which read 0. -/
def Obligations.StatusAndFlagsLayout : Prop :=
  (∀ s : Status,
    s.toWord.getLsbD 0 = s.busy ∧ s.toWord.getLsbD 1 = s.done ∧ s.toWord.getLsbD 2 = s.err ∧
    s.toWord.getLsbD 3 = s.trValid ∧ s.toWord.getLsbD 4 = s.crValid ∧ s.toWord.extractLsb' 8 8 = s.ecode ∧
    s.toWord.extractLsb' 5 3 = 0 ∧ s.toWord.extractLsb' 16 16 = 0) ∧
  (∀ f : ErrFlags,
    f.toWord.getLsbD 0 = f.posValid ∧ f.toWord.getLsbD 1 = f.lenUnread ∧ f.toWord.extractLsb' 2 2 = f.capKind ∧
    f.toWord.extractLsb' 4 28 = 0)

/-- R32, R33, R37, R38: the views, as numbers: no reachable state has a count that its register cannot hold. -/
def Obligations.ViewsReadTheirNumbers : Prop :=
  ∀ s : State, Inv s → s.status.busy = false →
    (access (.readReg 0x01C 4) s).env.readData.toNat = s.cl.length ∧
    (access (.readReg 0x034 4) s).env.readData.toNat = (s.cl.map fun c => c.payload.length).sum ∧
    (access (.readReg 0x034 4) s).env.readData.toNat ≤ s.cfg.storeCap ∧
    (access (.readReg 0x040 4) s).env.readData.toNat = s.cfg.inCap ∧
    (access (.readReg 0x044 4) s).env.readData.toNat = s.cfg.outCap ∧
    (access (.readReg 0x048 4) s).env.readData.toNat = s.cfg.maxChunks ∧
    (access (.readReg 0x04C 4) s).env.readData.toNat = s.cfg.storeCap ∧
    (access (.readReg 0x050 4) s).env.readData = 0x504E4746#32

/-- R62, R63: the ports of IN and OUT. A write of IN stores that one byte and sets its written bit; a read of a written IN
byte returns it; a read of OUT below OUT_LEN returns the output while BUSY = 0. An index at or beyond the capacity, another
width than one byte, and any write of OUT are HostFaults (R69 for a wrong width; that the width 0 is one is log 13), and a
host's read of an unwritten byte is none. -/
def Obligations.BufferPorts : Prop :=
  ∀ (s : State) (i : Nat) (b : Byte),
    (i < s.cfg.inCap → s.status.busy = false →
      let t := access (.writeIn i 1 b) s
      t = { s with inBuf := t.inBuf } ∧ ∀ a, t.inBuf.read? a = if a = i then some b else s.inBuf.read? a) ∧
    (i < s.cfg.inCap → s.inBuf.read? i = some b → (access (.readIn i 1) s).env.readData.toNat = b.toNat) ∧
    (i < s.cfg.outCap → s.status.busy = false → i < s.outLen.toNat → s.outBuf.read? i = some b →
      (access (.readOut i 1) s).env.readData.toNat = b.toNat) ∧
    (∀ size, size ≠ 1 ∨ s.cfg.inCap ≤ i →
      (access (.readIn i size) s).fault.hostFault = true ∧ (access (.writeIn i size b) s).fault.hostFault = true) ∧
    (∀ size, size ≠ 1 ∨ s.cfg.outCap ≤ i → (access (.readOut i size) s).fault.hostFault = true) ∧
    (∀ size, (access (.writeOut i size b) s).fault.hostFault = true) ∧
    (i < s.cfg.inCap → (access (.readIn i 1) s).fault = s.fault)

/-- R86's COPYOUT and R286: on an idle block, the line's events copy OUT[0..OUT_LEN) to IN and set IN_LEN to OUT_LEN. (The
events are the model's reading of R86, log 15, and the byte that is written to IN is the low byte of the host's last read
value, log 10.) -/
def Obligations.CopyOutLineCopiesTheOutput : Prop :=
  ∀ s : State, Inv s → NoFault s → s.pending = none → s.outLen.toNat ≤ s.cfg.inCap →
    s.env.script = expandLine .copyOut →
    ∃ k t, Host.Core.run Sys2Proof.core k s = .next t ∧ t.env.script = [] ∧ CopiedOut s t

/-! ### The whole machine -/

/-- The invariant holds at reset, for all parameters that R7 allows. -/
def Obligations.InvariantHoldsAtReset : Prop :=
  Inv State.reset ∧ ∀ (cfg : Config) (env : Env), cfg.wf = true → Inv (State.resetWith cfg env)

/-- R44 to R47 and the rest of `Inv`: every step keeps the invariant, from every state that has it. -/
def Obligations.EveryStepKeepsTheInvariant : Prop :=
  ∀ s t : State, Inv s → step s = .next t → Inv t

/-- R25: DONE is set by every completion, and only reset clears it. -/
def Obligations.DoneIsClearedOnlyByReset : Prop :=
  (∀ (i : Instr) (s t : State), exec i s = .next t → s.pending ≠ none → t.pending = none → t.status.done = true) ∧
  (∀ s t : State, step s = .next t → s.status.done = true → s.env.script.head? ≠ some .reset → t.status.done = true)

/-- R52: apart from reset, nothing ever removes an element of FAULT, which is empty at reset. -/
def Obligations.FaultIsRemovedOnlyByReset : Prop :=
  NoFault State.reset ∧
  ∀ (s t : State) (f : ModelFault), step s = .next t → s.fault.has f = true →
    s.env.script.head? ≠ some .reset → t.fault.has f = true

/-- R263: once FAULT is not empty, no command completes: a step that is not reset leaves the pending word, STATUS, the
results, the error registers, TR, CR, CL and OUT as they are, or submits a word that BUSY then holds. -/
def Obligations.FaultedMachineCompletesNothing : Prop :=
  ∀ s t : State, step s = .next t → ¬ NoFault s → s.env.script.head? ≠ some .reset →
    (∀ w, s.pending = some w → s.status.busy = true → t.pending = some w ∧ t.status = s.status) ∧
    (t.pending = none → s.pending = none) ∧
    t.result = s.result ∧ t.aux = s.aux ∧ t.errA = s.errA ∧ t.errB = s.errB ∧ t.errFlags = s.errFlags ∧
    t.errPos = s.errPos ∧ t.errIndex = s.errIndex ∧ t.tr = s.tr ∧ t.cr = s.cr ∧ t.cl = s.cl ∧ t.outLen = s.outLen ∧
    t.outBuf = s.outBuf ∧ { t.status with busy := s.status.busy } = s.status

/-- R83: a command takes its inputs from its operand forms only, `IN[0..IN_LEN)` for one that reads IN. From two states that
agree on what R83 lists for the command (for PNG_APPEND also on CL, which R84 lists and R83 does not, log 17) and on the
parameters, both complete the same way or both raise UninitInput; the same error is shown; and every
part is the same after both, or is unchanged by both. -/
def Obligations.CommandsReadOnlyTheirOperands : Prop :=
  ∀ (i : Instr) (s s' t t' : State), NoFault s → NoFault s' → s'.cfg = s.cfg →
    (∀ x ∈ readsOf i, SameSource x s s') → exec i s = .next t → exec i s' = .next t' →
    t'.fault = t.fault ∧
    (NoFault t →
      t'.status.err = t.status.err ∧ t'.status.ecode = t.status.ecode ∧ t'.errA = t.errA ∧ t'.errB = t.errB ∧
      t'.errFlags = t.errFlags ∧ t'.errPos = t.errPos ∧ t'.errIndex = t.errIndex) ∧
    ∀ p, AgreeOn p t t' ∨ (AgreeOn p s t ∧ AgreeOn p s' t')

/-- R70, R293: no rule depends on how long a command takes. A host read that comes before the framer's step changes
nothing in what the command does to the block. -/
def Obligations.WaitingDoesNotChangeTheOutcome : Prop :=
  ∀ (i : Instr) (s t t' : State) (a : HostAccess), isRead a = true → ¬ Violates s a → exec i s = .next t →
    exec i (access a s) = .next t' → SameBlock t t'
end

