-- ==== Sys2Proof/Laws/Bytes.lean ====
section
/-!
SUPPORT. The laws of byte order, of numbers in registers, and of the type-code predicates.
-/
namespace Sys2Proof.Machine

@[simp] theorem be32_bytesBe32 (v : Word) : be32 (bytesBe32 v) = v := by
  apply BitVec.eq_of_getLsbD_eq
  intro i hi
  simp only [be32, bytesBe32, BitVec.getLsbD_append, BitVec.getLsbD_extractLsb']
  by_cases h1 : i < 8
  · simp [h1]
  · by_cases h2 : i < 16
    · have e1 : i - 8 < 8 := by omega
      have e2 : 8 + (i - 8) = i := by omega
      simp [h1, e1, e2]
    · by_cases h3 : i < 24
      · have e1 : ¬ i - 8 < 8 := by omega
        have e2 : i - 8 - 8 < 8 := by omega
        have e3 : 16 + (i - 8 - 8) = i := by omega
        simp [h1, e1, e2, e3]
      · have e1 : ¬ i - 8 < 8 := by omega
        have e2 : ¬ i - 8 - 8 < 8 := by omega
        have e3 : 24 + (i - 8 - 8 - 8) = i := by omega
        have e4 : i - 8 - 8 - 8 < 8 := by omega
        simp [h1, e1, e2, e3, e4]

@[simp] theorem bytesBe32_be32 (t : Bytes4) : bytesBe32 (be32 t) = t := by
  obtain ⟨a, b, c, d⟩ := t
  simp only [bytesBe32, be32, Bytes4.mk.injEq]
  refine ⟨?_, ?_, ?_, ?_⟩ <;> apply BitVec.eq_of_getLsbD_eq <;> intro i hi <;>
    simp only [BitVec.getLsbD_extractLsb', BitVec.getLsbD_append]
  · have e1 : ¬ 24 + i < 8 := by omega
    have e2 : ¬ 24 + i - 8 < 8 := by omega
    have e3 : ¬ 24 + i - 8 - 8 < 8 := by omega
    have e4 : 24 + i - 8 - 8 - 8 = i := by omega
    simp [hi, e1, e2, e3, e4]
  · have e1 : ¬ 16 + i < 8 := by omega
    have e2 : ¬ 16 + i - 8 < 8 := by omega
    have e3 : 16 + i - 8 - 8 < 8 := by omega
    have e4 : 16 + i - 8 - 8 = i := by omega
    simp [hi, e1, e2, e4]
  · have e1 : ¬ 8 + i < 8 := by omega
    have e2 : 8 + i - 8 < 8 := by omega
    have e4 : 8 + i - 8 = i := by omega
    simp [hi, e1, e4]
  · simp [hi]

theorem bytesBe32_injective {v w : Word} (h : bytesBe32 v = bytesBe32 w) : v = w := by
  rw [← be32_bytesBe32 v, h, be32_bytesBe32]

theorem be32_injective {t u : Bytes4} (h : be32 t = be32 u) : t = u := by
  rw [← bytesBe32_be32 t, h, bytesBe32_be32]

@[simp] theorem Bytes4.toList_length (t : Bytes4) : t.toList.length = 4 := rfl

theorem Bytes4.toList_injective {t u : Bytes4} (h : t.toList = u.toList) : t = u := by
  obtain ⟨a, b, c, d⟩ := t
  obtain ⟨a', b', c', d'⟩ := u
  simpa [Bytes4.toList] using h

@[simp] theorem word_toNat (w : Word) : word w.toNat = w := by simp [word]

theorem toNat_word {n : Nat} (h : n < 2 ^ 32) : (word n).toNat = n := by
  simp only [word, BitVec.toNat_ofNat, Nat.mod_eq_of_lt h]

theorem sat32_of_lt {n : Nat} (h : n < 2 ^ 32) : sat32 n = word n := by
  simp only [sat32, word]
  congr 1
  omega

/-- R121: the first failing index exists exactly when the code is not constructible. -/
theorem firstBadIndex_eq_none {t : Bytes4} : firstBadIndex t = none ↔ constructible t = true := by
  simp only [firstBadIndex, constructible]
  cases alphabetic t.b0 <;> cases alphabetic t.b1 <;> cases alphabetic t.b2 <;> cases alphabetic t.b3 <;> simp

/-- R121: the index is that of a byte that is not alphabetic, and every byte before it is alphabetic. -/
theorem firstBadIndex_eq_some {t : Bytes4} {k : Nat} :
    firstBadIndex t = some k ↔
      (∃ b, t.toList[k]? = some b ∧ alphabetic b = false) ∧
      ∀ j < k, ∀ b, t.toList[j]? = some b → alphabetic b = true := by
  simp only [firstBadIndex, Bytes4.toList]
  rcases k with _ | _ | _ | _ | k
  · cases h0 : alphabetic t.b0 <;> cases alphabetic t.b1 <;> cases alphabetic t.b2 <;> cases alphabetic t.b3 <;> simp [h0]
  · cases h0 : alphabetic t.b0 <;> cases h1 : alphabetic t.b1 <;> cases alphabetic t.b2 <;> cases alphabetic t.b3 <;>
      simp [h0, h1]
  · cases h0 : alphabetic t.b0 <;> cases h1 : alphabetic t.b1 <;> cases h2 : alphabetic t.b2 <;> cases alphabetic t.b3 <;>
      simp [h0, h1, h2, Nat.lt_succ_iff, Nat.le_one_iff_eq_zero_or_eq_one]
  · cases h0 : alphabetic t.b0 <;> cases h1 : alphabetic t.b1 <;> cases h2 : alphabetic t.b2 <;> cases h3 : alphabetic t.b3 <;>
      simp [h0, h1, h2, h3, Nat.lt_succ_iff, Nat.le_succ_iff]
    rintro j ((rfl | rfl) | rfl) <;> simp [h0, h1, h2]
  · cases h0 : alphabetic t.b0 <;> cases h1 : alphabetic t.b1 <;> cases h2 : alphabetic t.b2 <;> cases h3 : alphabetic t.b3 <;>
      simp

/-- R124 in terms of R14: a valid code is constructible with an uppercase byte 2. -/
theorem isValid_iff {t : TypeCode} : isValid t = true ↔ constructible t = true ∧ upper t.b2 = true := by
  simp [isValid, constructible, and_assoc]

theorem constructible_of_isValid {t : TypeCode} (h : isValid t = true) : constructible t = true := (isValid_iff.1 h).1

/-- R95: no error has code 0. -/
theorem ErrorKind.code_ne_zero (k : ErrorKind) : k.code ≠ 0 := by cases k <;> decide

theorem FaultSet.isEmpty_iff {f : FaultSet} : f.isEmpty = true ↔ f = ⟨false, false⟩ := by
  obtain ⟨a, b⟩ := f
  cases a <;> cases b <;> simp [FaultSet.isEmpty]

end Sys2Proof.Machine
end

