-- ==== Sys2Proof/Laws/Memory.lean ====
section
/-!
SUPPORT. The laws of the byte memories: read after write, the canonical form, and what the framer's reads answer.
-/
namespace Sys2Proof.Machine

@[simp] theorem Memory.read?_nil (a : Nat) : Memory.read? [] a = none := rfl

theorem Memory.read?_cons (i : Nat) (b : Byte) (m : Memory) (a : Nat) :
    Memory.read? ((i, b) :: m) a = if i = a then some b else Memory.read? m a := rfl

/-- An index below all listed ones is not listed. -/
theorem Memory.read?_eq_none_of_lt (m : Memory) (a : Nat) (h : ∀ c ∈ m, a < c.1) : Memory.read? m a = none := by
  induction m with
  | nil => rfl
  | cons c m ih =>
    have hc := h c (by simp)
    rw [show c = (c.1, c.2) from rfl, Memory.read?_cons, if_neg (by omega)]
    exact ih fun d hd => h d (by simp [hd])

/-- A listed byte is read at its index, and a byte that is read is listed. -/
theorem Memory.mem_of_read? (m : Memory) (a : Nat) (b : Byte) (h : m.read? a = some b) : (a, b) ∈ m := by
  induction m with
  | nil => simp at h
  | cons c m ih =>
    rw [show c = (c.1, c.2) from rfl, Memory.read?_cons] at h
    by_cases hc : c.1 = a
    · rw [if_pos hc] at h
      obtain rfl := Option.some.inj h
      simp [← hc]
    · rw [if_neg hc] at h
      simp [ih h]

/-- Reading back what was written; every other index reads as before. -/
theorem Memory.read?_write (m : Memory) (a : Nat) (v : Byte) (x : Nat) :
    (m.write a v).read? x = if a = x then some v else m.read? x := by
  induction m with
  | nil => rfl
  | cons c m ih =>
    obtain ⟨i, b⟩ := c
    simp only [Memory.write]
    split
    · simp only [Memory.read?_cons]
    · split
      · rename_i h1 h2
        subst h2
        simp only [Memory.read?_cons]
        by_cases h : a = x <;> simp [h]
      · rename_i h1 h2
        simp only [Memory.read?_cons, ih]
        by_cases hi : i = x
        · subst hi
          simp [h2]
        · simp [hi]

theorem Memory.mem_write (m : Memory) (a : Nat) (v : Byte) (c : Host.Cell) (h : c ∈ m.write a v) :
    c = (a, v) ∨ c ∈ m := by
  induction m with
  | nil => simpa [Memory.write] using h
  | cons d m ih =>
    obtain ⟨i, b⟩ := d
    simp only [Memory.write] at h
    split at h
    · simpa using h
    · split at h
      · simp at h ⊢
        tauto
      · simp only [List.mem_cons] at h ⊢
        rcases h with h | h
        · exact .inr (.inl h)
        · exact (ih h).imp id .inr

/-- Writing keeps the canonical form. -/
theorem Memory.wf_write (m : Memory) (a : Nat) (v : Byte) (h : m.wf = true) : (m.write a v).wf = true := by
  induction m with
  | nil => rfl
  | cons d m ih =>
    obtain ⟨i, b⟩ := d
    simp only [Memory.wf, Bool.and_eq_true, List.all_eq_true, decide_eq_true_eq] at h
    simp only [Memory.write]
    split
    · rename_i hlt
      simp only [Memory.wf, Bool.and_eq_true, List.all_eq_true, decide_eq_true_eq]
      refine ⟨fun c hc => ?_, h⟩
      rcases List.mem_cons.1 hc with rfl | hc
      · exact hlt
      · exact Nat.lt_trans hlt (h.1 c hc)
    · split
      · rename_i h1 h2
        subst h2
        simp only [Memory.wf, Bool.and_eq_true, List.all_eq_true, decide_eq_true_eq]
        exact h
      · rename_i h1 h2
        simp only [Memory.wf, Bool.and_eq_true, List.all_eq_true, decide_eq_true_eq]
        refine ⟨fun c hc => ?_, ih h.2⟩
        rcases Memory.mem_write m a v c hc with rfl | hc
        · omega
        · exact h.1 c hc

/-- What a memory that holds one sequence reads as. -/
theorem Memory.read?_holding (a : Nat) (bs : List Byte) (x : Nat) :
    (Memory.holding a bs).read? x = if x < a then none else bs[x - a]? := by
  induction bs generalizing a with
  | nil => simp [Memory.holding]
  | cons b bs ih =>
    simp only [Memory.holding, Memory.read?_cons, ih]
    by_cases h : a = x
    · subst h; simp
    · by_cases hlt : x < a
      · simp [h, hlt, Nat.lt_succ_of_lt hlt]
      · have : x - a = x - (a + 1) + 1 := by omega
        simp only [h, if_false, hlt, this, List.getElem?_cons_succ]
        rw [if_neg (by omega)]

@[simp] theorem Memory.read?_holding_zero (bs : List Byte) (x : Nat) :
    (Memory.holding 0 bs).read? x = bs[x]? := by
  simp [Memory.read?_holding]

theorem Memory.mem_holding (a : Nat) (bs : List Byte) (c : Host.Cell) (h : c ∈ Memory.holding a bs) :
    a ≤ c.1 ∧ c.1 < a + bs.length := by
  induction bs generalizing a with
  | nil => simp [Memory.holding] at h
  | cons b bs ih =>
    rcases List.mem_cons.1 h with rfl | h
    · simp
    · have := ih (a + 1) h
      simp only [List.length_cons]
      omega

theorem Memory.wf_holding (a : Nat) (bs : List Byte) : (Memory.holding a bs).wf = true := by
  induction bs generalizing a with
  | nil => rfl
  | cons b bs ih =>
    simp only [Memory.holding, Memory.wf, ih, Bool.and_true, List.all_eq_true, decide_eq_true_eq]
    intro c hc
    have := Memory.mem_holding (a + 1) bs c hc
    omega

/-! ### Reads of the framer -/

theorem readByte_of_some {m : Memory} {a : Nat} {b : Byte} (h : m.read? a = some b) : readByte m a = .ok b := by
  simp [readByte, h]

theorem readByte_of_none {m : Memory} {a : Nat} (h : m.read? a = none) :
    readByte m a = .error (.fault .uninitInput) := by
  simp [readByte, h]

/-- A framer read answers the byte, or the model fault UninitInput, and nothing else. -/
theorem readByte_cases (m : Memory) (a : Nat) :
    (∃ b, m.read? a = some b ∧ readByte m a = .ok b) ∨
    (m.read? a = none ∧ readByte m a = .error (.fault .uninitInput)) := by
  cases h : m.read? a with
  | none => exact .inr ⟨rfl, readByte_of_none h⟩
  | some b => exact .inl ⟨b, rfl, readByte_of_some h⟩

/-- A memory holds a sequence from an index on. -/
def Memory.Holds (m : Memory) (a : Nat) (bs : List Byte) : Prop := ∀ i b, bs[i]? = some b → m.read? (a + i) = some b

theorem Memory.Holds.head {m : Memory} {a : Nat} {b : Byte} {bs : List Byte} (h : m.Holds a (b :: bs)) :
    m.read? a = some b := by
  simpa using h 0 b rfl

theorem Memory.Holds.tail {m : Memory} {a : Nat} {b : Byte} {bs : List Byte} (h : m.Holds a (b :: bs)) :
    m.Holds (a + 1) bs := by
  intro i c hc
  have := h (i + 1) c (by simpa using hc)
  rwa [show a + 1 + i = a + (i + 1) by omega]

theorem Memory.holds_append {m : Memory} {a : Nat} {bs cs : List Byte} :
    m.Holds a (bs ++ cs) ↔ m.Holds a bs ∧ m.Holds (a + bs.length) cs := by
  constructor
  · intro h
    refine ⟨fun i b hb => h i b ?_, fun i b hb => ?_⟩
    · rw [List.getElem?_append_left (by
        by_contra hc
        rw [List.getElem?_eq_none (by omega)] at hb
        exact absurd hb (by simp))]
      exact hb
    · have := h (bs.length + i) b (by rw [List.getElem?_append_right (by omega)]; simpa using hb)
      rwa [← Nat.add_assoc] at this
  · rintro ⟨h1, h2⟩ i b hb
    by_cases hi : i < bs.length
    · rw [List.getElem?_append_left hi] at hb
      exact h1 i b hb
    · rw [List.getElem?_append_right (by omega)] at hb
      have := h2 (i - bs.length) b hb
      rwa [show a + bs.length + (i - bs.length) = a + i by omega] at this

/-- MemRead answers the bytes that the memory holds. -/
theorem memRead_of_holds {m : Memory} {a : Nat} {bs : List Byte} (h : m.Holds a bs) :
    memRead m a bs.length = .ok bs := by
  induction bs generalizing a with
  | nil => rfl
  | cons b bs ih => simp [memRead, readByte_of_some h.head, ih h.tail, bind, Except.bind, pure, Except.pure]

theorem memRead4_of_holds {m : Memory} {a : Nat} {t : Bytes4} (h : m.Holds a [t.b0, t.b1, t.b2, t.b3]) :
    memRead4 m a = .ok t := by
  simp [memRead4, readByte_of_some h.head, readByte_of_some h.tail.head, readByte_of_some h.tail.tail.head,
    readByte_of_some h.tail.tail.tail.head, bind, Except.bind, pure, Except.pure]

/-- What MemRead answers: the bytes, all written, or UninitInput with some byte unwritten. -/
theorem memRead_cases (m : Memory) (a n : Nat) :
    (∃ bs, bs.length = n ∧ m.Holds a bs ∧ memRead m a n = .ok bs) ∨
    ((∃ i < n, m.read? (a + i) = none) ∧ memRead m a n = .error (.fault .uninitInput)) := by
  induction n generalizing a with
  | zero => exact .inl ⟨[], rfl, by simp [Memory.Holds], rfl⟩
  | succ n ih =>
    rcases readByte_cases m a with ⟨b, hb, hr⟩ | ⟨hb, hr⟩
    · rcases ih (a + 1) with ⟨bs, hl, hh, he⟩ | ⟨⟨i, hi, hn⟩, he⟩
      · refine .inl ⟨b :: bs, by simp [hl], fun i c hc => ?_, by simp [memRead, hr, he, bind, Except.bind, pure, Except.pure]⟩
        cases i with
        | zero => simpa [← (show b = c by simpa using hc)] using hb
        | succ i =>
          have := hh i c (by simpa using hc)
          rwa [show a + 1 + i = a + (i + 1) by omega] at this
      · exact .inr ⟨⟨i + 1, by omega, by rwa [show a + (i + 1) = a + 1 + i by omega]⟩,
          by simp [memRead, hr, he, bind, Except.bind]⟩
    · exact .inr ⟨⟨0, by omega, by simpa using hb⟩, by simp [memRead, hr, bind, Except.bind]⟩

/-- What MemRead of 4 bytes answers. -/
theorem memRead4_cases (m : Memory) (a : Nat) :
    (∃ t : Bytes4, m.Holds a [t.b0, t.b1, t.b2, t.b3] ∧ memRead4 m a = .ok t) ∨
    ((∃ i < 4, m.read? (a + i) = none) ∧ memRead4 m a = .error (.fault .uninitInput)) := by
  have key : memRead4 m a = (memRead m a 4).bind fun
      | [b0, b1, b2, b3] => .ok ⟨b0, b1, b2, b3⟩
      | _ => .error (.fault .uninitInput) := by
    simp only [memRead4, memRead, bind, Except.bind, pure, Except.pure]
    rcases readByte_cases m a with ⟨b0, -, h0⟩ | ⟨-, h0⟩ <;> simp only [h0]
    rcases readByte_cases m (a + 1) with ⟨b1, -, h1⟩ | ⟨-, h1⟩ <;> simp only [h1]
    rcases readByte_cases m (a + 1 + 1) with ⟨b2, -, h2⟩ | ⟨-, h2⟩ <;> simp only [h2, show a + 2 = a + 1 + 1 from rfl]
    rcases readByte_cases m (a + 1 + 1 + 1) with ⟨b3, -, h3⟩ | ⟨-, h3⟩ <;>
      simp only [h3, show a + 3 = a + 1 + 1 + 1 from rfl]
  rcases memRead_cases m a 4 with ⟨bs, hl, hh, he⟩ | ⟨hn, he⟩
  · match bs, hl with
    | [b0, b1, b2, b3], _ => exact .inl ⟨⟨b0, b1, b2, b3⟩, hh, by simp [key, he, Except.bind]⟩
  · exact .inr ⟨hn, by simp [key, he, Except.bind]⟩

theorem memRead_eq_ok {m : Memory} {a n : Nat} {bs : List Byte} (h : memRead m a n = .ok bs) :
    bs.length = n ∧ m.Holds a bs := by
  rcases memRead_cases m a n with ⟨cs, hl, hh, he⟩ | ⟨-, he⟩ <;> rw [he] at h
  · obtain rfl : cs = bs := by simpa using h
    exact ⟨hl, hh⟩
  · exact absurd h (by simp)

theorem memRead4_eq_ok {m : Memory} {a : Nat} {t : Bytes4} (h : memRead4 m a = .ok t) :
    m.Holds a [t.b0, t.b1, t.b2, t.b3] := by
  rcases memRead4_cases m a with ⟨u, hh, he⟩ | ⟨-, he⟩ <;> rw [he] at h
  · obtain rfl : u = t := by simpa using h
    exact hh
  · exact absurd h (by simp)

/-- MemRead of a sequence that has an unwritten byte is the model fault UninitInput (R64). -/
theorem memRead_of_unwritten {m : Memory} {a n i : Nat} (hi : i < n) (h : m.read? (a + i) = none) :
    memRead m a n = .error (.fault .uninitInput) := by
  rcases memRead_cases m a n with ⟨cs, hl, hh, -⟩ | ⟨-, he⟩
  · have := hh i cs[i] (List.getElem?_eq_getElem (by omega))
    simp [h] at this
  · exact he

theorem memRead4_of_unwritten {m : Memory} {a i : Nat} (hi : i < 4) (h : m.read? (a + i) = none) :
    memRead4 m a = .error (.fault .uninitInput) := by
  rcases memRead4_cases m a with ⟨t, hh, -⟩ | ⟨-, he⟩
  · have := hh i [t.b0, t.b1, t.b2, t.b3][i] (List.getElem?_eq_getElem (by simpa using hi))
    simp [h] at this
  · exact he

/-- MemRead depends on the bytes that it reads, and on no others. -/
theorem memRead_congr {m m' : Memory} {a n : Nat} (h : ∀ i < n, m'.read? (a + i) = m.read? (a + i)) :
    memRead m' a n = memRead m a n := by
  induction n generalizing a with
  | zero => rfl
  | succ n ih =>
    have h0 : m'.read? a = m.read? a := by simpa using h 0 (by omega)
    have h1 : memRead m' (a + 1) n = memRead m (a + 1) n := ih fun i hi => by
      have := h (i + 1) (by omega)
      rwa [show a + (i + 1) = a + 1 + i by omega] at this
    simp only [memRead, readByte, h0, h1]

theorem memRead4_congr {m m' : Memory} {a : Nat} (h : ∀ i < 4, m'.read? (a + i) = m.read? (a + i)) :
    memRead4 m' a = memRead4 m a := by
  have h0 : m'.read? a = m.read? a := by simpa using h 0 (by omega)
  simp only [memRead4, readByte, h0, h 1 (by omega), h 2 (by omega), h 3 (by omega)]

end Sys2Proof.Machine
end

