-- ==== Sys2Proof/Laws/State.lean ====
section
/-!
SUPPORT. One lemma per field per update of Sys2Proof/Machine/Ops.lean, so that no later proof unfolds a record update.
`err`, `done`, `busy`, `trValid`, `crValid` and `ecode` are the fields of STATUS.
-/
namespace Sys2Proof.Machine

@[simp] theorem State.writeTr_cmd (s : State) (t : TypeCode) : (s.writeTr t).cmd = s.cmd := rfl
@[simp] theorem State.writeTr_arg (s : State) (t : TypeCode) : (s.writeTr t).arg = s.arg := rfl
@[simp] theorem State.writeTr_result (s : State) (t : TypeCode) : (s.writeTr t).result = s.result := rfl
@[simp] theorem State.writeTr_aux (s : State) (t : TypeCode) : (s.writeTr t).aux = s.aux := rfl
@[simp] theorem State.writeTr_inLen (s : State) (t : TypeCode) : (s.writeTr t).inLen = s.inLen := rfl
@[simp] theorem State.writeTr_outLen (s : State) (t : TypeCode) : (s.writeTr t).outLen = s.outLen := rfl
@[simp] theorem State.writeTr_errA (s : State) (t : TypeCode) : (s.writeTr t).errA = s.errA := rfl
@[simp] theorem State.writeTr_errB (s : State) (t : TypeCode) : (s.writeTr t).errB = s.errB := rfl
@[simp] theorem State.writeTr_errFlags (s : State) (t : TypeCode) : (s.writeTr t).errFlags = s.errFlags := rfl
@[simp] theorem State.writeTr_errPos (s : State) (t : TypeCode) : (s.writeTr t).errPos = s.errPos := rfl
@[simp] theorem State.writeTr_errIndex (s : State) (t : TypeCode) : (s.writeTr t).errIndex = s.errIndex := rfl
@[simp] theorem State.writeTr_tr (s : State) (t : TypeCode) : (s.writeTr t).tr = t := rfl
@[simp] theorem State.writeTr_cr (s : State) (t : TypeCode) : (s.writeTr t).cr = s.cr := rfl
@[simp] theorem State.writeTr_cl (s : State) (t : TypeCode) : (s.writeTr t).cl = s.cl := rfl
@[simp] theorem State.writeTr_inBuf (s : State) (t : TypeCode) : (s.writeTr t).inBuf = s.inBuf := rfl
@[simp] theorem State.writeTr_outBuf (s : State) (t : TypeCode) : (s.writeTr t).outBuf = s.outBuf := rfl
@[simp] theorem State.writeTr_pending (s : State) (t : TypeCode) : (s.writeTr t).pending = s.pending := rfl
@[simp] theorem State.writeTr_fault (s : State) (t : TypeCode) : (s.writeTr t).fault = s.fault := rfl
@[simp] theorem State.writeTr_cfg (s : State) (t : TypeCode) : (s.writeTr t).cfg = s.cfg := rfl
@[simp] theorem State.writeTr_env (s : State) (t : TypeCode) : (s.writeTr t).env = s.env := rfl
@[simp] theorem State.writeTr_busy (s : State) (t : TypeCode) : (s.writeTr t).status.busy = s.status.busy := rfl
@[simp] theorem State.writeTr_done (s : State) (t : TypeCode) : (s.writeTr t).status.done = s.status.done := rfl
@[simp] theorem State.writeTr_err (s : State) (t : TypeCode) : (s.writeTr t).status.err = s.status.err := rfl
@[simp] theorem State.writeTr_trValid (s : State) (t : TypeCode) : (s.writeTr t).status.trValid = true := rfl
@[simp] theorem State.writeTr_crValid (s : State) (t : TypeCode) : (s.writeTr t).status.crValid = s.status.crValid := rfl
@[simp] theorem State.writeTr_ecode (s : State) (t : TypeCode) : (s.writeTr t).status.ecode = s.status.ecode := rfl

@[simp] theorem State.writeCr_cmd (s : State) (c : Chunk) : (s.writeCr c).cmd = s.cmd := rfl
@[simp] theorem State.writeCr_arg (s : State) (c : Chunk) : (s.writeCr c).arg = s.arg := rfl
@[simp] theorem State.writeCr_result (s : State) (c : Chunk) : (s.writeCr c).result = s.result := rfl
@[simp] theorem State.writeCr_aux (s : State) (c : Chunk) : (s.writeCr c).aux = s.aux := rfl
@[simp] theorem State.writeCr_inLen (s : State) (c : Chunk) : (s.writeCr c).inLen = s.inLen := rfl
@[simp] theorem State.writeCr_outLen (s : State) (c : Chunk) : (s.writeCr c).outLen = s.outLen := rfl
@[simp] theorem State.writeCr_errA (s : State) (c : Chunk) : (s.writeCr c).errA = s.errA := rfl
@[simp] theorem State.writeCr_errB (s : State) (c : Chunk) : (s.writeCr c).errB = s.errB := rfl
@[simp] theorem State.writeCr_errFlags (s : State) (c : Chunk) : (s.writeCr c).errFlags = s.errFlags := rfl
@[simp] theorem State.writeCr_errPos (s : State) (c : Chunk) : (s.writeCr c).errPos = s.errPos := rfl
@[simp] theorem State.writeCr_errIndex (s : State) (c : Chunk) : (s.writeCr c).errIndex = s.errIndex := rfl
@[simp] theorem State.writeCr_tr (s : State) (c : Chunk) : (s.writeCr c).tr = s.tr := rfl
@[simp] theorem State.writeCr_cr (s : State) (c : Chunk) : (s.writeCr c).cr = c := rfl
@[simp] theorem State.writeCr_cl (s : State) (c : Chunk) : (s.writeCr c).cl = s.cl := rfl
@[simp] theorem State.writeCr_inBuf (s : State) (c : Chunk) : (s.writeCr c).inBuf = s.inBuf := rfl
@[simp] theorem State.writeCr_outBuf (s : State) (c : Chunk) : (s.writeCr c).outBuf = s.outBuf := rfl
@[simp] theorem State.writeCr_pending (s : State) (c : Chunk) : (s.writeCr c).pending = s.pending := rfl
@[simp] theorem State.writeCr_fault (s : State) (c : Chunk) : (s.writeCr c).fault = s.fault := rfl
@[simp] theorem State.writeCr_cfg (s : State) (c : Chunk) : (s.writeCr c).cfg = s.cfg := rfl
@[simp] theorem State.writeCr_env (s : State) (c : Chunk) : (s.writeCr c).env = s.env := rfl
@[simp] theorem State.writeCr_busy (s : State) (c : Chunk) : (s.writeCr c).status.busy = s.status.busy := rfl
@[simp] theorem State.writeCr_done (s : State) (c : Chunk) : (s.writeCr c).status.done = s.status.done := rfl
@[simp] theorem State.writeCr_err (s : State) (c : Chunk) : (s.writeCr c).status.err = s.status.err := rfl
@[simp] theorem State.writeCr_trValid (s : State) (c : Chunk) : (s.writeCr c).status.trValid = s.status.trValid := rfl
@[simp] theorem State.writeCr_crValid (s : State) (c : Chunk) : (s.writeCr c).status.crValid = true := rfl
@[simp] theorem State.writeCr_ecode (s : State) (c : Chunk) : (s.writeCr c).status.ecode = s.status.ecode := rfl

@[simp] theorem State.writeCl_cmd (s : State) (l : List Chunk) : (s.writeCl l).cmd = s.cmd := rfl
@[simp] theorem State.writeCl_arg (s : State) (l : List Chunk) : (s.writeCl l).arg = s.arg := rfl
@[simp] theorem State.writeCl_result (s : State) (l : List Chunk) : (s.writeCl l).result = s.result := rfl
@[simp] theorem State.writeCl_aux (s : State) (l : List Chunk) : (s.writeCl l).aux = s.aux := rfl
@[simp] theorem State.writeCl_inLen (s : State) (l : List Chunk) : (s.writeCl l).inLen = s.inLen := rfl
@[simp] theorem State.writeCl_outLen (s : State) (l : List Chunk) : (s.writeCl l).outLen = s.outLen := rfl
@[simp] theorem State.writeCl_errA (s : State) (l : List Chunk) : (s.writeCl l).errA = s.errA := rfl
@[simp] theorem State.writeCl_errB (s : State) (l : List Chunk) : (s.writeCl l).errB = s.errB := rfl
@[simp] theorem State.writeCl_errFlags (s : State) (l : List Chunk) : (s.writeCl l).errFlags = s.errFlags := rfl
@[simp] theorem State.writeCl_errPos (s : State) (l : List Chunk) : (s.writeCl l).errPos = s.errPos := rfl
@[simp] theorem State.writeCl_errIndex (s : State) (l : List Chunk) : (s.writeCl l).errIndex = s.errIndex := rfl
@[simp] theorem State.writeCl_tr (s : State) (l : List Chunk) : (s.writeCl l).tr = s.tr := rfl
@[simp] theorem State.writeCl_cr (s : State) (l : List Chunk) : (s.writeCl l).cr = s.cr := rfl
@[simp] theorem State.writeCl_cl (s : State) (l : List Chunk) : (s.writeCl l).cl = l := rfl
@[simp] theorem State.writeCl_inBuf (s : State) (l : List Chunk) : (s.writeCl l).inBuf = s.inBuf := rfl
@[simp] theorem State.writeCl_outBuf (s : State) (l : List Chunk) : (s.writeCl l).outBuf = s.outBuf := rfl
@[simp] theorem State.writeCl_pending (s : State) (l : List Chunk) : (s.writeCl l).pending = s.pending := rfl
@[simp] theorem State.writeCl_fault (s : State) (l : List Chunk) : (s.writeCl l).fault = s.fault := rfl
@[simp] theorem State.writeCl_cfg (s : State) (l : List Chunk) : (s.writeCl l).cfg = s.cfg := rfl
@[simp] theorem State.writeCl_env (s : State) (l : List Chunk) : (s.writeCl l).env = s.env := rfl
@[simp] theorem State.writeCl_busy (s : State) (l : List Chunk) : (s.writeCl l).status.busy = s.status.busy := rfl
@[simp] theorem State.writeCl_done (s : State) (l : List Chunk) : (s.writeCl l).status.done = s.status.done := rfl
@[simp] theorem State.writeCl_err (s : State) (l : List Chunk) : (s.writeCl l).status.err = s.status.err := rfl
@[simp] theorem State.writeCl_trValid (s : State) (l : List Chunk) : (s.writeCl l).status.trValid = s.status.trValid := rfl
@[simp] theorem State.writeCl_crValid (s : State) (l : List Chunk) : (s.writeCl l).status.crValid = s.status.crValid := rfl
@[simp] theorem State.writeCl_ecode (s : State) (l : List Chunk) : (s.writeCl l).status.ecode = s.status.ecode := rfl

@[simp] theorem State.writeResult_cmd (s : State) (v : Word) : (s.writeResult v).cmd = s.cmd := rfl
@[simp] theorem State.writeResult_arg (s : State) (v : Word) : (s.writeResult v).arg = s.arg := rfl
@[simp] theorem State.writeResult_result (s : State) (v : Word) : (s.writeResult v).result = v := rfl
@[simp] theorem State.writeResult_aux (s : State) (v : Word) : (s.writeResult v).aux = s.aux := rfl
@[simp] theorem State.writeResult_inLen (s : State) (v : Word) : (s.writeResult v).inLen = s.inLen := rfl
@[simp] theorem State.writeResult_outLen (s : State) (v : Word) : (s.writeResult v).outLen = s.outLen := rfl
@[simp] theorem State.writeResult_errA (s : State) (v : Word) : (s.writeResult v).errA = s.errA := rfl
@[simp] theorem State.writeResult_errB (s : State) (v : Word) : (s.writeResult v).errB = s.errB := rfl
@[simp] theorem State.writeResult_errFlags (s : State) (v : Word) : (s.writeResult v).errFlags = s.errFlags := rfl
@[simp] theorem State.writeResult_errPos (s : State) (v : Word) : (s.writeResult v).errPos = s.errPos := rfl
@[simp] theorem State.writeResult_errIndex (s : State) (v : Word) : (s.writeResult v).errIndex = s.errIndex := rfl
@[simp] theorem State.writeResult_tr (s : State) (v : Word) : (s.writeResult v).tr = s.tr := rfl
@[simp] theorem State.writeResult_cr (s : State) (v : Word) : (s.writeResult v).cr = s.cr := rfl
@[simp] theorem State.writeResult_cl (s : State) (v : Word) : (s.writeResult v).cl = s.cl := rfl
@[simp] theorem State.writeResult_inBuf (s : State) (v : Word) : (s.writeResult v).inBuf = s.inBuf := rfl
@[simp] theorem State.writeResult_outBuf (s : State) (v : Word) : (s.writeResult v).outBuf = s.outBuf := rfl
@[simp] theorem State.writeResult_pending (s : State) (v : Word) : (s.writeResult v).pending = s.pending := rfl
@[simp] theorem State.writeResult_fault (s : State) (v : Word) : (s.writeResult v).fault = s.fault := rfl
@[simp] theorem State.writeResult_cfg (s : State) (v : Word) : (s.writeResult v).cfg = s.cfg := rfl
@[simp] theorem State.writeResult_env (s : State) (v : Word) : (s.writeResult v).env = s.env := rfl
@[simp] theorem State.writeResult_busy (s : State) (v : Word) : (s.writeResult v).status.busy = s.status.busy := rfl
@[simp] theorem State.writeResult_done (s : State) (v : Word) : (s.writeResult v).status.done = s.status.done := rfl
@[simp] theorem State.writeResult_err (s : State) (v : Word) : (s.writeResult v).status.err = s.status.err := rfl
@[simp] theorem State.writeResult_trValid (s : State) (v : Word) : (s.writeResult v).status.trValid = s.status.trValid := rfl
@[simp] theorem State.writeResult_crValid (s : State) (v : Word) : (s.writeResult v).status.crValid = s.status.crValid := rfl
@[simp] theorem State.writeResult_ecode (s : State) (v : Word) : (s.writeResult v).status.ecode = s.status.ecode := rfl

@[simp] theorem State.writeAux_cmd (s : State) (v : Word) : (s.writeAux v).cmd = s.cmd := rfl
@[simp] theorem State.writeAux_arg (s : State) (v : Word) : (s.writeAux v).arg = s.arg := rfl
@[simp] theorem State.writeAux_result (s : State) (v : Word) : (s.writeAux v).result = s.result := rfl
@[simp] theorem State.writeAux_aux (s : State) (v : Word) : (s.writeAux v).aux = v := rfl
@[simp] theorem State.writeAux_inLen (s : State) (v : Word) : (s.writeAux v).inLen = s.inLen := rfl
@[simp] theorem State.writeAux_outLen (s : State) (v : Word) : (s.writeAux v).outLen = s.outLen := rfl
@[simp] theorem State.writeAux_errA (s : State) (v : Word) : (s.writeAux v).errA = s.errA := rfl
@[simp] theorem State.writeAux_errB (s : State) (v : Word) : (s.writeAux v).errB = s.errB := rfl
@[simp] theorem State.writeAux_errFlags (s : State) (v : Word) : (s.writeAux v).errFlags = s.errFlags := rfl
@[simp] theorem State.writeAux_errPos (s : State) (v : Word) : (s.writeAux v).errPos = s.errPos := rfl
@[simp] theorem State.writeAux_errIndex (s : State) (v : Word) : (s.writeAux v).errIndex = s.errIndex := rfl
@[simp] theorem State.writeAux_tr (s : State) (v : Word) : (s.writeAux v).tr = s.tr := rfl
@[simp] theorem State.writeAux_cr (s : State) (v : Word) : (s.writeAux v).cr = s.cr := rfl
@[simp] theorem State.writeAux_cl (s : State) (v : Word) : (s.writeAux v).cl = s.cl := rfl
@[simp] theorem State.writeAux_inBuf (s : State) (v : Word) : (s.writeAux v).inBuf = s.inBuf := rfl
@[simp] theorem State.writeAux_outBuf (s : State) (v : Word) : (s.writeAux v).outBuf = s.outBuf := rfl
@[simp] theorem State.writeAux_pending (s : State) (v : Word) : (s.writeAux v).pending = s.pending := rfl
@[simp] theorem State.writeAux_fault (s : State) (v : Word) : (s.writeAux v).fault = s.fault := rfl
@[simp] theorem State.writeAux_cfg (s : State) (v : Word) : (s.writeAux v).cfg = s.cfg := rfl
@[simp] theorem State.writeAux_env (s : State) (v : Word) : (s.writeAux v).env = s.env := rfl
@[simp] theorem State.writeAux_busy (s : State) (v : Word) : (s.writeAux v).status.busy = s.status.busy := rfl
@[simp] theorem State.writeAux_done (s : State) (v : Word) : (s.writeAux v).status.done = s.status.done := rfl
@[simp] theorem State.writeAux_err (s : State) (v : Word) : (s.writeAux v).status.err = s.status.err := rfl
@[simp] theorem State.writeAux_trValid (s : State) (v : Word) : (s.writeAux v).status.trValid = s.status.trValid := rfl
@[simp] theorem State.writeAux_crValid (s : State) (v : Word) : (s.writeAux v).status.crValid = s.status.crValid := rfl
@[simp] theorem State.writeAux_ecode (s : State) (v : Word) : (s.writeAux v).status.ecode = s.status.ecode := rfl

@[simp] theorem State.writeOut_cmd (s : State) (bs : List Byte) : (s.writeOut bs).cmd = s.cmd := rfl
@[simp] theorem State.writeOut_arg (s : State) (bs : List Byte) : (s.writeOut bs).arg = s.arg := rfl
@[simp] theorem State.writeOut_result (s : State) (bs : List Byte) : (s.writeOut bs).result = s.result := rfl
@[simp] theorem State.writeOut_aux (s : State) (bs : List Byte) : (s.writeOut bs).aux = s.aux := rfl
@[simp] theorem State.writeOut_inLen (s : State) (bs : List Byte) : (s.writeOut bs).inLen = s.inLen := rfl
@[simp] theorem State.writeOut_outLen (s : State) (bs : List Byte) : (s.writeOut bs).outLen = word bs.length := rfl
@[simp] theorem State.writeOut_errA (s : State) (bs : List Byte) : (s.writeOut bs).errA = s.errA := rfl
@[simp] theorem State.writeOut_errB (s : State) (bs : List Byte) : (s.writeOut bs).errB = s.errB := rfl
@[simp] theorem State.writeOut_errFlags (s : State) (bs : List Byte) : (s.writeOut bs).errFlags = s.errFlags := rfl
@[simp] theorem State.writeOut_errPos (s : State) (bs : List Byte) : (s.writeOut bs).errPos = s.errPos := rfl
@[simp] theorem State.writeOut_errIndex (s : State) (bs : List Byte) : (s.writeOut bs).errIndex = s.errIndex := rfl
@[simp] theorem State.writeOut_tr (s : State) (bs : List Byte) : (s.writeOut bs).tr = s.tr := rfl
@[simp] theorem State.writeOut_cr (s : State) (bs : List Byte) : (s.writeOut bs).cr = s.cr := rfl
@[simp] theorem State.writeOut_cl (s : State) (bs : List Byte) : (s.writeOut bs).cl = s.cl := rfl
@[simp] theorem State.writeOut_inBuf (s : State) (bs : List Byte) : (s.writeOut bs).inBuf = s.inBuf := rfl
@[simp] theorem State.writeOut_outBuf (s : State) (bs : List Byte) : (s.writeOut bs).outBuf = Memory.holding 0 bs := rfl
@[simp] theorem State.writeOut_pending (s : State) (bs : List Byte) : (s.writeOut bs).pending = s.pending := rfl
@[simp] theorem State.writeOut_fault (s : State) (bs : List Byte) : (s.writeOut bs).fault = s.fault := rfl
@[simp] theorem State.writeOut_cfg (s : State) (bs : List Byte) : (s.writeOut bs).cfg = s.cfg := rfl
@[simp] theorem State.writeOut_env (s : State) (bs : List Byte) : (s.writeOut bs).env = s.env := rfl
@[simp] theorem State.writeOut_busy (s : State) (bs : List Byte) : (s.writeOut bs).status.busy = s.status.busy := rfl
@[simp] theorem State.writeOut_done (s : State) (bs : List Byte) : (s.writeOut bs).status.done = s.status.done := rfl
@[simp] theorem State.writeOut_err (s : State) (bs : List Byte) : (s.writeOut bs).status.err = s.status.err := rfl
@[simp] theorem State.writeOut_trValid (s : State) (bs : List Byte) : (s.writeOut bs).status.trValid = s.status.trValid := rfl
@[simp] theorem State.writeOut_crValid (s : State) (bs : List Byte) : (s.writeOut bs).status.crValid = s.status.crValid := rfl
@[simp] theorem State.writeOut_ecode (s : State) (bs : List Byte) : (s.writeOut bs).status.ecode = s.status.ecode := rfl

@[simp] theorem State.completeOk_cmd (s : State) : (s.completeOk).cmd = s.cmd := rfl
@[simp] theorem State.completeOk_arg (s : State) : (s.completeOk).arg = s.arg := rfl
@[simp] theorem State.completeOk_result (s : State) : (s.completeOk).result = s.result := rfl
@[simp] theorem State.completeOk_aux (s : State) : (s.completeOk).aux = s.aux := rfl
@[simp] theorem State.completeOk_inLen (s : State) : (s.completeOk).inLen = s.inLen := rfl
@[simp] theorem State.completeOk_outLen (s : State) : (s.completeOk).outLen = s.outLen := rfl
@[simp] theorem State.completeOk_errA (s : State) : (s.completeOk).errA = 0 := rfl
@[simp] theorem State.completeOk_errB (s : State) : (s.completeOk).errB = 0 := rfl
@[simp] theorem State.completeOk_errFlags (s : State) : (s.completeOk).errFlags = ⟨false, false, 0⟩ := rfl
@[simp] theorem State.completeOk_errPos (s : State) : (s.completeOk).errPos = 0 := rfl
@[simp] theorem State.completeOk_errIndex (s : State) : (s.completeOk).errIndex = 0 := rfl
@[simp] theorem State.completeOk_tr (s : State) : (s.completeOk).tr = s.tr := rfl
@[simp] theorem State.completeOk_cr (s : State) : (s.completeOk).cr = s.cr := rfl
@[simp] theorem State.completeOk_cl (s : State) : (s.completeOk).cl = s.cl := rfl
@[simp] theorem State.completeOk_inBuf (s : State) : (s.completeOk).inBuf = s.inBuf := rfl
@[simp] theorem State.completeOk_outBuf (s : State) : (s.completeOk).outBuf = s.outBuf := rfl
@[simp] theorem State.completeOk_pending (s : State) : (s.completeOk).pending = none := rfl
@[simp] theorem State.completeOk_fault (s : State) : (s.completeOk).fault = s.fault := rfl
@[simp] theorem State.completeOk_cfg (s : State) : (s.completeOk).cfg = s.cfg := rfl
@[simp] theorem State.completeOk_env (s : State) : (s.completeOk).env = { s.env with epoch := s.env.epoch + 1 } := rfl
@[simp] theorem State.completeOk_busy (s : State) : (s.completeOk).status.busy = false := rfl
@[simp] theorem State.completeOk_done (s : State) : (s.completeOk).status.done = true := rfl
@[simp] theorem State.completeOk_err (s : State) : (s.completeOk).status.err = false := rfl
@[simp] theorem State.completeOk_trValid (s : State) : (s.completeOk).status.trValid = s.status.trValid := rfl
@[simp] theorem State.completeOk_crValid (s : State) : (s.completeOk).status.crValid = s.status.crValid := rfl
@[simp] theorem State.completeOk_ecode (s : State) : (s.completeOk).status.ecode = 0 := rfl

@[simp] theorem State.completeErr_cmd (s : State) (e : ErrorInfo) : (s.completeErr e).cmd = s.cmd := rfl
@[simp] theorem State.completeErr_arg (s : State) (e : ErrorInfo) : (s.completeErr e).arg = s.arg := rfl
@[simp] theorem State.completeErr_result (s : State) (e : ErrorInfo) : (s.completeErr e).result = s.result := rfl
@[simp] theorem State.completeErr_aux (s : State) (e : ErrorInfo) : (s.completeErr e).aux = s.aux := rfl
@[simp] theorem State.completeErr_inLen (s : State) (e : ErrorInfo) : (s.completeErr e).inLen = s.inLen := rfl
@[simp] theorem State.completeErr_outLen (s : State) (e : ErrorInfo) : (s.completeErr e).outLen = s.outLen := rfl
@[simp] theorem State.completeErr_errA (s : State) (e : ErrorInfo) : (s.completeErr e).errA = e.a := rfl
@[simp] theorem State.completeErr_errB (s : State) (e : ErrorInfo) : (s.completeErr e).errB = e.b := rfl
@[simp] theorem State.completeErr_errFlags (s : State) (e : ErrorInfo) : (s.completeErr e).errFlags = e.flags := rfl
@[simp] theorem State.completeErr_errPos (s : State) (e : ErrorInfo) : (s.completeErr e).errPos = e.pos := rfl
@[simp] theorem State.completeErr_errIndex (s : State) (e : ErrorInfo) : (s.completeErr e).errIndex = e.index := rfl
@[simp] theorem State.completeErr_tr (s : State) (e : ErrorInfo) : (s.completeErr e).tr = s.tr := rfl
@[simp] theorem State.completeErr_cr (s : State) (e : ErrorInfo) : (s.completeErr e).cr = s.cr := rfl
@[simp] theorem State.completeErr_cl (s : State) (e : ErrorInfo) : (s.completeErr e).cl = s.cl := rfl
@[simp] theorem State.completeErr_inBuf (s : State) (e : ErrorInfo) : (s.completeErr e).inBuf = s.inBuf := rfl
@[simp] theorem State.completeErr_outBuf (s : State) (e : ErrorInfo) : (s.completeErr e).outBuf = s.outBuf := rfl
@[simp] theorem State.completeErr_pending (s : State) (e : ErrorInfo) : (s.completeErr e).pending = none := rfl
@[simp] theorem State.completeErr_fault (s : State) (e : ErrorInfo) : (s.completeErr e).fault = s.fault := rfl
@[simp] theorem State.completeErr_cfg (s : State) (e : ErrorInfo) : (s.completeErr e).cfg = s.cfg := rfl
@[simp] theorem State.completeErr_env (s : State) (e : ErrorInfo) : (s.completeErr e).env = { s.env with epoch := s.env.epoch + 1 } := rfl
@[simp] theorem State.completeErr_busy (s : State) (e : ErrorInfo) : (s.completeErr e).status.busy = false := rfl
@[simp] theorem State.completeErr_done (s : State) (e : ErrorInfo) : (s.completeErr e).status.done = true := rfl
@[simp] theorem State.completeErr_err (s : State) (e : ErrorInfo) : (s.completeErr e).status.err = true := rfl
@[simp] theorem State.completeErr_trValid (s : State) (e : ErrorInfo) : (s.completeErr e).status.trValid = s.status.trValid := rfl
@[simp] theorem State.completeErr_crValid (s : State) (e : ErrorInfo) : (s.completeErr e).status.crValid = s.status.crValid := rfl
@[simp] theorem State.completeErr_ecode (s : State) (e : ErrorInfo) : (s.completeErr e).status.ecode = e.kind.code := rfl

@[simp] theorem State.recordFault_cmd (s : State) (f : ModelFault) : (s.recordFault f).cmd = s.cmd := rfl
@[simp] theorem State.recordFault_arg (s : State) (f : ModelFault) : (s.recordFault f).arg = s.arg := rfl
@[simp] theorem State.recordFault_result (s : State) (f : ModelFault) : (s.recordFault f).result = s.result := rfl
@[simp] theorem State.recordFault_aux (s : State) (f : ModelFault) : (s.recordFault f).aux = s.aux := rfl
@[simp] theorem State.recordFault_inLen (s : State) (f : ModelFault) : (s.recordFault f).inLen = s.inLen := rfl
@[simp] theorem State.recordFault_outLen (s : State) (f : ModelFault) : (s.recordFault f).outLen = s.outLen := rfl
@[simp] theorem State.recordFault_errA (s : State) (f : ModelFault) : (s.recordFault f).errA = s.errA := rfl
@[simp] theorem State.recordFault_errB (s : State) (f : ModelFault) : (s.recordFault f).errB = s.errB := rfl
@[simp] theorem State.recordFault_errFlags (s : State) (f : ModelFault) : (s.recordFault f).errFlags = s.errFlags := rfl
@[simp] theorem State.recordFault_errPos (s : State) (f : ModelFault) : (s.recordFault f).errPos = s.errPos := rfl
@[simp] theorem State.recordFault_errIndex (s : State) (f : ModelFault) : (s.recordFault f).errIndex = s.errIndex := rfl
@[simp] theorem State.recordFault_tr (s : State) (f : ModelFault) : (s.recordFault f).tr = s.tr := rfl
@[simp] theorem State.recordFault_cr (s : State) (f : ModelFault) : (s.recordFault f).cr = s.cr := rfl
@[simp] theorem State.recordFault_cl (s : State) (f : ModelFault) : (s.recordFault f).cl = s.cl := rfl
@[simp] theorem State.recordFault_inBuf (s : State) (f : ModelFault) : (s.recordFault f).inBuf = s.inBuf := rfl
@[simp] theorem State.recordFault_outBuf (s : State) (f : ModelFault) : (s.recordFault f).outBuf = s.outBuf := rfl
@[simp] theorem State.recordFault_pending (s : State) (f : ModelFault) : (s.recordFault f).pending = s.pending := rfl
@[simp] theorem State.recordFault_fault (s : State) (f : ModelFault) : (s.recordFault f).fault = s.fault.add f := rfl
@[simp] theorem State.recordFault_cfg (s : State) (f : ModelFault) : (s.recordFault f).cfg = s.cfg := rfl
@[simp] theorem State.recordFault_env (s : State) (f : ModelFault) : (s.recordFault f).env = s.env := rfl
@[simp] theorem State.recordFault_busy (s : State) (f : ModelFault) : (s.recordFault f).status.busy = s.status.busy := rfl
@[simp] theorem State.recordFault_done (s : State) (f : ModelFault) : (s.recordFault f).status.done = s.status.done := rfl
@[simp] theorem State.recordFault_err (s : State) (f : ModelFault) : (s.recordFault f).status.err = s.status.err := rfl
@[simp] theorem State.recordFault_trValid (s : State) (f : ModelFault) : (s.recordFault f).status.trValid = s.status.trValid := rfl
@[simp] theorem State.recordFault_crValid (s : State) (f : ModelFault) : (s.recordFault f).status.crValid = s.status.crValid := rfl
@[simp] theorem State.recordFault_ecode (s : State) (f : ModelFault) : (s.recordFault f).status.ecode = s.status.ecode := rfl

end Sys2Proof.Machine
end

