-- ==== Sys2Proof/Laws/Ops.lean ====
section
/-!
SUPPORT. What each shared operation can answer, said once: the sequencing of a command's computation, its commit, the
capacity checks and the operand forms.
-/
namespace Sys2Proof.Machine

/-! ### Sequencing -/

@[simp] theorem cmd_pure {α : Type} (a : α) : (pure a : Except Stop α) = .ok a := rfl

@[simp] theorem cmd_bind_ok {α β : Type} (a : α) (f : α → Except Stop β) : (Except.ok a >>= f) = f a := rfl

@[simp] theorem cmd_bind_error {α β : Type} (e : Stop) (f : α → Except Stop β) :
    ((Except.error e : Except Stop α) >>= f) = .error e := rfl

@[simp] theorem cmd_bind_raise {α β : Type} (e : ErrorInfo) (f : α → Except Stop β) :
    ((raise e : Except Stop α) >>= f) = .error (.raise e) := rfl

/-- A sequence answers only if its first part does and then its second part does. -/
theorem cmd_bind_eq_ok {α β : Type} {x : Except Stop α} {f : α → Except Stop β} {b : β} (h : (x >>= f) = .ok b) :
    ∃ a, x = .ok a ∧ f a = .ok b := by
  cases x with
  | ok a => exact ⟨a, rfl, h⟩
  | error e => exact absurd h (by simp)

/-- A sequence stops only where its first part stops, or where its second part stops. -/
theorem cmd_bind_eq_error {α β : Type} {x : Except Stop α} {f : α → Except Stop β} {e : Stop}
    (h : (x >>= f) = .error e) : x = .error e ∨ ∃ a, x = .ok a ∧ f a = .error e := by
  cases x with
  | ok a => exact .inr ⟨a, rfl, h⟩
  | error e' => exact .inl (by simpa using h)

/-! ### Commit -/

@[simp] theorem commit_ok (s t : State) : commit s (.ok t) = .next t.completeOk := rfl

@[simp] theorem commit_raise (s : State) (e : ErrorInfo) : commit s (.error (.raise e)) = .next (s.completeErr e) := rfl

@[simp] theorem commit_raise' (s : State) (e : ErrorInfo) : commit s (raise e) = .next (s.completeErr e) := rfl

@[simp] theorem commit_fault (s : State) (f : ModelFault) : commit s (.error (.fault f)) = .next (s.recordFault f) := rfl

theorem raise_eq {α : Type} (e : ErrorInfo) : (raise e : Except Stop α) = .error (.raise e) := rfl

/-- R251: a commit always answers a next state, in one of three ways. -/
theorem commit_cases {s t : State} {r : Except Stop State} (h : commit s r = .next t) :
    (∃ u, r = .ok u ∧ t = u.completeOk) ∨ (∃ e, r = .error (.raise e) ∧ t = s.completeErr e) ∨
    (∃ f, r = .error (.fault f) ∧ t = s.recordFault f) := by
  match r, h with
  | .ok u, h => exact .inl ⟨u, rfl, by simpa using h.symm⟩
  | .error (.raise e), h => exact .inr (.inl ⟨e, rfl, by simpa using h.symm⟩)
  | .error (.fault f), h => exact .inr (.inr ⟨f, rfl, by simpa using h.symm⟩)

/-! ### Checks -/

theorem failIf_pos {p : Prop} [Decidable p] {e : ErrorInfo} (h : p) : failIf p e = .error (.raise e) := by
  simp [failIf, h, raise]

theorem failIf_neg {p : Prop} [Decidable p] {e : ErrorInfo} (h : ¬ p) : failIf p e = .ok () := by
  simp [failIf, h]

@[simp] theorem failIf_false (e : ErrorInfo) : failIf False e = .ok () := rfl

@[simp] theorem failIf_true (e : ErrorInfo) : failIf True e = .error (.raise e) := rfl

theorem failIf_eq_ok {p : Prop} [Decidable p] {e : ErrorInfo} {u : Unit} (h : failIf p e = .ok u) : ¬ p := by
  intro hp
  rw [failIf_pos hp] at h
  exact absurd h (by simp)

theorem failIf_eq_error {p : Prop} [Decidable p] {e : ErrorInfo} {x : Stop} (h : failIf p e = .error x) :
    p ∧ x = .raise e := by
  by_cases hp : p
  · rw [failIf_pos hp] at h
    exact ⟨hp, by simpa using h.symm⟩
  · rw [failIf_neg hp] at h
    exact absurd h (by simp)

theorem checkCapacity_of_le {kind : BitVec 2} {required limit : Nat} (h : required ≤ limit) :
    checkCapacity kind required limit = .ok () := by
  exact failIf_neg (Nat.not_lt.2 h)

theorem checkCapacity_of_lt {kind : BitVec 2} {required limit : Nat} (h : limit < required) :
    checkCapacity kind required limit = .error (.raise (capacityError kind required limit)) := by
  exact failIf_pos h

theorem checkCapacity_eq_ok {kind : BitVec 2} {required limit : Nat} {u : Unit}
    (h : checkCapacity kind required limit = .ok u) : required ≤ limit := by
  exact Nat.not_lt.1 (failIf_eq_ok h)

theorem checkCapacity_eq_error {kind : BitVec 2} {required limit : Nat} {e : Stop}
    (h : checkCapacity kind required limit = .error e) :
    limit < required ∧ e = .raise (capacityError kind required limit) := by
  exact failIf_eq_error h

theorem emit_of_le {s : State} {bs : List Byte} (h : bs.length ≤ s.cfg.outCap) : emit s bs = .ok (s.writeOut bs) := by
  simp [emit, checkCapacity_of_le h]

theorem emit_of_lt {s : State} {bs : List Byte} (h : s.cfg.outCap < bs.length) :
    emit s bs = .error (.raise (capacityError 1 bs.length s.cfg.outCap)) := by
  simp [emit, checkCapacity_of_lt h]

theorem emit_eq_ok {s t : State} {bs : List Byte} (h : emit s bs = .ok t) :
    bs.length ≤ s.cfg.outCap ∧ t = s.writeOut bs := by
  obtain ⟨u, hu, ht⟩ := cmd_bind_eq_ok h
  exact ⟨checkCapacity_eq_ok hu, by simpa using ht.symm⟩

/-! ### Operand forms (R83) -/

theorem inputLength_of_le {s : State} (h : s.inLen.toNat ≤ s.cfg.inCap) : inputLength s = .ok s.inLen.toNat := by
  simp [inputLength, checkCapacity_of_le h]

theorem inputLength_of_lt {s : State} (h : s.cfg.inCap < s.inLen.toNat) :
    inputLength s = .error (.raise (capacityError 0 s.inLen.toNat s.cfg.inCap)) := by
  simp [inputLength, checkCapacity_of_lt h]

theorem inputLength_eq_ok {s : State} {n : Nat} (h : inputLength s = .ok n) :
    n = s.inLen.toNat ∧ s.inLen.toNat ≤ s.cfg.inCap := by
  obtain ⟨u, hu, hn⟩ := cmd_bind_eq_ok h
  exact ⟨by simpa using hn.symm, checkCapacity_eq_ok hu⟩

theorem operandTr_of_valid {s : State} (h : s.status.trValid = true) : operandTr s = .ok s.tr := by
  simp [operandTr, h]

theorem operandTr_of_invalid {s : State} (h : s.status.trValid = false) :
    operandTr s = .error (.raise { kind := .noTypeOperand }) := by
  simp [operandTr, h, raise]

theorem operandTr_eq_ok {s : State} {t : TypeCode} (h : operandTr s = .ok t) : s.status.trValid = true ∧ t = s.tr := by
  cases hv : s.status.trValid
  · rw [operandTr_of_invalid hv] at h
    exact absurd h (by simp)
  · rw [operandTr_of_valid hv] at h
    exact ⟨rfl, by simpa using h.symm⟩

theorem operandCr_of_valid {s : State} (h : s.status.crValid = true) : operandCr s = .ok s.cr := by
  simp [operandCr, h]

theorem operandCr_of_invalid {s : State} (h : s.status.crValid = false) :
    operandCr s = .error (.raise { kind := .noChunkOperand }) := by
  simp [operandCr, h, raise]

theorem operandCr_eq_ok {s : State} {c : Chunk} (h : operandCr s = .ok c) : s.status.crValid = true ∧ c = s.cr := by
  cases hv : s.status.crValid
  · rw [operandCr_of_invalid hv] at h
    exact absurd h (by simp)
  · rw [operandCr_of_valid hv] at h
    exact ⟨rfl, by simpa using h.symm⟩

/-- `IN:payload` answers all the input bytes, which then are written. -/
theorem inPayload_eq_ok {s : State} {bs : List Byte} (h : inPayload s = .ok bs) :
    bs.length = s.inLen.toNat ∧ s.inLen.toNat ≤ s.cfg.inCap ∧ s.inBuf.Holds 0 bs := by
  obtain ⟨n, hn, hr⟩ := cmd_bind_eq_ok h
  obtain ⟨rfl, hle⟩ := inputLength_eq_ok hn
  rcases memRead_cases s.inBuf 0 s.inLen.toNat with ⟨cs, hl, hh, he⟩ | ⟨-, he⟩
  · rw [he] at hr
    obtain rfl : cs = bs := by simpa using hr
    exact ⟨hl, hle, hh⟩
  · rw [he] at hr
    exact absurd hr (by simp)

end Sys2Proof.Machine
end

