-- ==== Sys2Proof/Laws/Codec.lean ====
section
/-!
SUPPORT. The laws of the wire format: lengths, what `chunk_parse` accepts, and that the loop of `container_parse` never
runs out of fuel.
-/
namespace Sys2Proof.Machine

theorem fromBytes_of_constructible {t : Bytes4} (h : constructible t = true) : fromBytes t = .ok t := by
  simp [fromBytes, firstBadIndex_eq_none.2 h]

theorem fromBytes_of_bad {t : Bytes4} {k : Nat} (h : firstBadIndex t = some k) :
    fromBytes t = .error (.raise { kind := .invalidTypeBytes, a := be32 t, b := word k }) := by
  simp [fromBytes, h, raise]

theorem fromBytes_eq_ok {t u : Bytes4} (h : fromBytes t = .ok u) : u = t ∧ constructible t = true := by
  cases hb : firstBadIndex t with
  | none =>
    have hc := firstBadIndex_eq_none.1 hb
    rw [fromBytes_of_constructible hc] at h
    exact ⟨by simpa using h.symm, hc⟩
  | some k =>
    rw [fromBytes_of_bad hb] at h
    exact absurd h (by simp)

/-- R151: the length of a record. -/
@[simp] theorem record_length (c : Chunk) : (record c).length = 12 + c.payload.length := by
  simp [record]
  omega

theorem signature_length : signature.length = 8 := rfl

@[simp] theorem stream_nil : stream [] = signature := by simp [stream]

theorem stream_append (l : List Chunk) (c : Chunk) : stream (l ++ [c]) = stream l ++ record c := by
  simp [stream, List.flatMap_append, List.append_assoc]

/-- R93: the size of a stream. -/
theorem stream_length (l : List Chunk) : (stream l).length = 8 + 12 * l.length + storeBytes l := by
  induction l with
  | nil => rfl
  | cons c l ih =>
    simp only [stream, List.length_append, List.flatMap_cons, record_length, storeBytes, List.map_cons, List.sum_cons,
      List.length_cons] at ih ⊢
    omega

/-- The fields of a record, where a memory holds it. -/
theorem holds_record {m : Memory} {a : Nat} {c : Chunk} (h : m.Holds a (record c)) :
    m.Holds a (bytesBe32 (word c.payload.length)).toList ∧ m.Holds (a + 4) c.type.toList ∧
    m.Holds (a + 8) c.payload ∧ m.Holds (a + 8 + c.payload.length) (bytesBe32 (chunkCrc c)).toList := by
  rw [record, Memory.holds_append, Memory.holds_append, Memory.holds_append] at h
  obtain ⟨⟨⟨h1, h2⟩, h3⟩, h4⟩ := h
  refine ⟨h1, h2, h3, ?_⟩
  have : a + ((bytesBe32 (word c.payload.length)).toList ++ c.type.toList ++ c.payload).length
      = a + 8 + c.payload.length := by
    simp
    omega
  rwa [this] at h4

/-- The steps of R152 after the length field has been read and the truncation test passed. -/
theorem chunkParse_of_length {m : Memory} {base n : Nat} {len : Word} (h4 : 4 ≤ n)
    (hl : m.Holds base (bytesBe32 len).toList) (hf : len.toNat + 8 ≤ n - 4) :
    chunkParse m base n = (do
      let typeField ← memRead4 m (base + 4)
      let t ← fromBytes typeField
      failIf (isValid t = false) { kind := .invalidChunkType, a := be32 t }
      let payload ← memRead m (base + 8) len.toNat
      let stored ← memRead4 m (base + 8 + len.toNat)
      failIf (chunkCrc ⟨t, payload⟩ ≠ be32 stored)
        { kind := .crcMismatch, a := chunkCrc ⟨t, payload⟩, b := be32 stored }
      return (⟨t, payload⟩, 12 + len.toNat)) := by
  have h2 : ¬ n - 4 < (be32 (bytesBe32 len)).toNat + 8 := by simp; omega
  rw [chunkParse, failIf_neg (by omega), cmd_bind_ok, memRead4_of_holds (t := bytesBe32 len) hl, cmd_bind_ok]
  simp only [failIf_neg h2, cmd_bind_ok]
  simp only [be32_bytesBe32]

/-- R152 accepts the record of a chunk with a valid type, and consumes exactly it. -/
theorem chunkParse_record {m : Memory} {base n : Nat} {c : Chunk} (hv : isValid c.type = true)
    (hlen : c.payload.length < 2 ^ 32) (hn : 12 + c.payload.length ≤ n) (h : m.Holds base (record c)) :
    chunkParse m base n = .ok (c, 12 + c.payload.length) := by
  obtain ⟨h1, h2, h3, h4⟩ := holds_record h
  have ht := toNat_word hlen
  rw [chunkParse_of_length (by omega) h1 (by omega), memRead4_of_holds (t := c.type) h2, ht, memRead_of_holds h3,
    memRead4_of_holds (t := bytesBe32 (chunkCrc c)) h4]
  simp [fromBytes_of_constructible (constructible_of_isValid hv), hv]

/-- What R152 accepts is the record of a chunk with a valid type, and the consumed bytes are that record. -/
theorem chunkParse_eq_ok {m : Memory} {base n used : Nat} {c : Chunk} (h : chunkParse m base n = .ok (c, used)) :
    isValid c.type = true ∧ c.payload.length < 2 ^ 32 ∧ used = 12 + c.payload.length ∧ used ≤ n ∧
    m.Holds base (record c) := by
  obtain ⟨_, h4, g1⟩ := cmd_bind_eq_ok h
  obtain ⟨l, hl, g2⟩ := cmd_bind_eq_ok g1
  obtain ⟨_, hf, g3⟩ := cmd_bind_eq_ok g2
  obtain ⟨t, ht, g4⟩ := cmd_bind_eq_ok g3
  obtain ⟨u, hu, g5⟩ := cmd_bind_eq_ok g4
  obtain ⟨_, hv, g6⟩ := cmd_bind_eq_ok g5
  obtain ⟨p, hp, g7⟩ := cmd_bind_eq_ok g6
  obtain ⟨d, hd, g8⟩ := cmd_bind_eq_ok g7
  obtain ⟨_, hc, g9⟩ := cmd_bind_eq_ok g8
  clear h g1 g2 g3 g4 g5 g6 g7 g8
  have h4 := failIf_eq_ok h4
  have hf := failIf_eq_ok hf
  obtain ⟨rfl, -⟩ := fromBytes_eq_ok hu
  have hv := failIf_eq_ok hv
  have hc := Classical.not_not.1 (failIf_eq_ok hc)
  simp only [cmd_pure, Except.ok.injEq, Prod.mk.injEq] at g9
  obtain ⟨rfl, rfl⟩ := g9
  have hl := memRead4_eq_ok hl
  have ht := memRead4_eq_ok ht
  obtain ⟨hpl, hp⟩ := memRead_eq_ok hp
  have hd := memRead4_eq_ok hd
  have hlt := (be32 l).isLt
  refine ⟨by simpa using hv, show p.length < _ by omega, show _ = 12 + p.length by omega, by omega, ?_⟩
  rw [record, Memory.holds_append, Memory.holds_append, Memory.holds_append]
  refine ⟨⟨⟨?_, ht⟩, hp⟩, ?_⟩
  · rw [show (⟨u, p⟩ : Chunk).payload = p from rfl, hpl, word_toNat, bytesBe32_be32]
    exact hl
  · rw [hc, bytesBe32_be32]
    have : base + ((bytesBe32 (word p.length)).toList ++ Bytes4.toList u ++ p).length = base + 8 + (be32 l).toNat := by
      simp [hpl]
      omega
    rw [this]
    exact hd

/-- R202: what an iteration of the loop does, said once. -/
theorem containerLoop_succ (m : Memory) (n fuel pos : Nat) (list : List Chunk) :
    containerLoop m n (fuel + 1) pos list =
      if pos < n then
        if n - pos < 12 then
          raise { kind := .unexpectedTrailingBytes, a := word (n - pos), pos := word pos, index := word list.length,
                  flags := ⟨true, false, 0⟩ }
        else
          match chunkParse m pos (n - pos) with
          | .ok (c, used) => containerLoop m n fuel (pos + used) (list ++ [c])
          | .error e => .error (annotate pos list.length e)
      else .ok list := rfl

/-- The loop never runs out of fuel: any two amounts that cover the bytes left give the same answer. -/
theorem containerLoop_fuel (m : Memory) (n f g pos : Nat) (list : List Chunk) (hf : n - pos ≤ f) (hg : n - pos ≤ g) :
    containerLoop m n f pos list = containerLoop m n g pos list := by
  induction f generalizing g pos list with
  | zero =>
    have : ¬ pos < n := by omega
    cases g with
    | zero => rfl
    | succ g => rw [containerLoop_succ, if_neg this]; rfl
  | succ f ih =>
    cases g with
    | zero =>
      have : ¬ pos < n := by omega
      rw [containerLoop_succ, if_neg this]; rfl
    | succ g =>
      rw [containerLoop_succ, containerLoop_succ]
      split
      · split
        · rfl
        · split
          · rename_i c used hp
            obtain ⟨-, -, rfl, -, -⟩ := chunkParse_eq_ok hp
            exact ih g _ _ (by omega) (by omega)
          · rfl
      · rfl

/-- The loop, once it has read the records of `l`, goes on where they end. -/
theorem containerLoop_records {m : Memory} {n : Nat} (l : List Chunk) (hv : ∀ c ∈ l, isValid c.type = true)
    (hlen : ∀ c ∈ l, c.payload.length < 2 ^ 32) (fuel pos : Nat) (list : List Chunk) (hf : n - pos ≤ fuel)
    (hn : pos + (l.flatMap record).length ≤ n) (h : m.Holds pos (l.flatMap record)) :
    containerLoop m n fuel pos list =
      containerLoop m n fuel (pos + (l.flatMap record).length) (list ++ l) := by
  induction l generalizing fuel pos list with
  | nil => simp
  | cons c l ih =>
    rw [List.flatMap_cons, Memory.holds_append] at h
    simp only [List.flatMap_cons, List.length_append, record_length] at hn
    have hp := chunkParse_record (n := n - pos) (hv c (by simp)) (hlen c (by simp)) (by omega) h.1
    cases fuel with
    | zero => omega
    | succ fuel =>
      rw [containerLoop_succ, if_pos (by omega), if_neg (by omega), hp]
      simp only
      have h2 := h.2
      rw [record_length] at h2
      rw [ih (fun d hd => hv d (by simp [hd])) (fun d hd => hlen d (by simp [hd])) fuel _ _ (by omega) (by omega) h2,
        containerLoop_fuel m n fuel (fuel + 1) _ _ (by omega) (by omega)]
      simp [Nat.add_assoc]

/-- What the loop accepts: the rest of the input is the records of the chunks it adds, exactly. -/
theorem containerLoop_eq_ok {m : Memory} {n : Nat} (fuel pos : Nat) (list out : List Chunk) (hf : n - pos ≤ fuel)
    (hp : pos ≤ n) (h : containerLoop m n fuel pos list = .ok out) :
    ∃ l, out = list ++ l ∧ (∀ c ∈ l, isValid c.type = true ∧ c.payload.length < 2 ^ 32) ∧
      pos + (l.flatMap record).length = n ∧ m.Holds pos (l.flatMap record) := by
  induction fuel generalizing pos list with
  | zero =>
    obtain rfl : list = out := by simpa [containerLoop] using h
    exact ⟨[], by simp, by simp, by simp; omega, by simp [Memory.Holds]⟩
  | succ fuel ih =>
    rw [containerLoop_succ] at h
    split at h
    · split at h
      · simp [raise] at h
      · split at h
        · rename_i c used hc
          obtain ⟨hv, hlt, rfl, hle, hh⟩ := chunkParse_eq_ok hc
          obtain ⟨l, rfl, hl, hn, hm⟩ := ih _ _ (by omega) (by omega) h
          refine ⟨c :: l, by simp, ?_, ?_, ?_⟩
          · intro d hd
            rcases List.mem_cons.1 hd with rfl | hd
            · exact ⟨hv, hlt⟩
            · exact hl d hd
          · simp only [List.flatMap_cons, List.length_append, record_length]
            omega
          · rw [List.flatMap_cons, Memory.holds_append, record_length]
            exact ⟨hh, hm⟩
        · exact absurd h (by simp)
    · obtain rfl : list = out := by simpa using h
      exact ⟨[], by simp, by simp, by simp; omega, by simp [Memory.Holds]⟩

theorem checkSignature_of_holds {m : Memory} {n : Nat} (hn : 8 ≤ n) (h : m.Holds 0 signature) :
    checkSignature m n = .ok () := by
  have hr : memRead m 0 8 = .ok signature := memRead_of_holds (bs := signature) h
  rw [checkSignature, failIf_neg (by omega), cmd_bind_ok, hr, cmd_bind_ok, failIf_neg (by simp)]

theorem checkSignature_eq_ok {m : Memory} {n : Nat} {u : Unit} (h : checkSignature m n = .ok u) :
    8 ≤ n ∧ m.Holds 0 signature := by
  obtain ⟨_, hn, h⟩ := cmd_bind_eq_ok h
  obtain ⟨bs, hr, h⟩ := cmd_bind_eq_ok h
  obtain rfl := Classical.not_not.1 (failIf_eq_ok h)
  exact ⟨Nat.not_lt.1 (failIf_eq_ok hn), (memRead_eq_ok hr).2⟩

/-- R202 on an input that begins with the stream of valid chunks: the loop goes on after them. -/
theorem containerParse_stream {m : Memory} {n : Nat} (l : List Chunk) (hv : ∀ c ∈ l, isValid c.type = true)
    (hlen : ∀ c ∈ l, c.payload.length < 2 ^ 32) (hn : (stream l).length ≤ n) (h : m.Holds 0 (stream l)) :
    containerParse m n = containerLoop m n n (stream l).length l := by
  rw [stream, Memory.holds_append, signature_length] at h
  simp only [stream, List.length_append, signature_length] at hn ⊢
  rw [containerParse, checkSignature_of_holds (by omega) h.1, cmd_bind_ok,
    containerLoop_records l hv hlen n 8 [] (by omega) (by omega) h.2]
  simp

/-- R212: what `container_parse` accepts is exactly the stream of the list it answers, and every chunk is valid. -/
theorem containerParse_eq_ok {m : Memory} {n : Nat} {l : List Chunk} (h : containerParse m n = .ok l) :
    (∀ c ∈ l, isValid c.type = true ∧ c.payload.length < 2 ^ 32) ∧ (stream l).length = n ∧ m.Holds 0 (stream l) := by
  obtain ⟨u, hs, hl⟩ := cmd_bind_eq_ok h
  obtain ⟨h8, hsig⟩ := checkSignature_eq_ok hs
  obtain ⟨l', rfl, hv, hn, hm⟩ := containerLoop_eq_ok n 8 [] l (by omega) h8 hl
  refine ⟨hv, ?_, ?_⟩
  · simpa [stream, signature_length] using hn
  · rw [stream, Memory.holds_append, signature_length]
    exact ⟨hsig, by simpa using hm⟩

/-! ### What the parsers read (R65) -/

/-- `chunk_parse(base, n)` depends only on the `n` bytes from `base` on. -/
theorem chunkParse_congr {m m' : Memory} {base n : Nat} (h : ∀ i < n, m'.read? (base + i) = m.read? (base + i)) :
    chunkParse m' base n = chunkParse m base n := by
  by_cases h4 : n < 4
  · rw [chunkParse, chunkParse, failIf_pos h4]
    rfl
  rw [chunkParse, chunkParse, memRead4_congr fun i hi => h i (by omega)]
  congr 1
  funext _
  congr 1
  funext l
  by_cases hf : n - 4 < (be32 l).toNat + 8
  · simp only [failIf_pos hf, cmd_bind_error]
  have hat : ∀ k i, k + i < n → m'.read? (base + k + i) = m.read? (base + k + i) := fun k i hi => by
    rw [Nat.add_assoc]
    exact h _ hi
  have e1 : memRead4 m' (base + 4) = memRead4 m (base + 4) := memRead4_congr fun i hi => hat 4 i (by omega)
  have e2 : memRead m' (base + 8) (be32 l).toNat = memRead m (base + 8) (be32 l).toNat :=
    memRead_congr fun i hi => hat 8 i (by omega)
  have e3 : memRead4 m' (base + 8 + (be32 l).toNat) = memRead4 m (base + 8 + (be32 l).toNat) :=
    memRead4_congr fun i hi => by
      rw [Nat.add_assoc base]
      exact hat _ i (by omega)
  simp only [e1, e2, e3]

theorem containerLoop_congr {m m' : Memory} {n : Nat} (h : ∀ i < n, m'.read? i = m.read? i) (fuel pos : Nat)
    (list : List Chunk) : containerLoop m' n fuel pos list = containerLoop m n fuel pos list := by
  induction fuel generalizing pos list with
  | zero => rfl
  | succ fuel ih =>
    simp only [containerLoop_succ, ih, chunkParse_congr (base := pos) fun i (hi : i < n - pos) => h (pos + i) (by omega)]

/-- `container_parse(n)` depends only on the first `n` bytes. -/
theorem containerParse_congr {m m' : Memory} {n : Nat} (h : ∀ i < n, m'.read? i = m.read? i) :
    containerParse m' n = containerParse m n := by
  by_cases h8 : n < 8
  · rw [containerParse, containerParse, checkSignature, checkSignature, failIf_pos h8]
    rfl
  have e : memRead m' 0 8 = memRead m 0 8 := memRead_congr fun i hi => by
    rw [Nat.zero_add]
    exact h i (by omega)
  simp only [containerParse, checkSignature, e, containerLoop_congr h]

end Sys2Proof.Machine
end

