-- ==== Sys2Proof/Laws/PortState.lean ====
section
/-!
SUPPORT. One lemma per field per update of Sys2Proof/Machine/Port.lean.
-/
namespace Sys2Proof.Machine

@[simp] theorem State.answer_cmd (s : State) (v : Word) : (s.answer v).cmd = s.cmd := rfl
@[simp] theorem State.answer_arg (s : State) (v : Word) : (s.answer v).arg = s.arg := rfl
@[simp] theorem State.answer_result (s : State) (v : Word) : (s.answer v).result = s.result := rfl
@[simp] theorem State.answer_aux (s : State) (v : Word) : (s.answer v).aux = s.aux := rfl
@[simp] theorem State.answer_inLen (s : State) (v : Word) : (s.answer v).inLen = s.inLen := rfl
@[simp] theorem State.answer_outLen (s : State) (v : Word) : (s.answer v).outLen = s.outLen := rfl
@[simp] theorem State.answer_errA (s : State) (v : Word) : (s.answer v).errA = s.errA := rfl
@[simp] theorem State.answer_errB (s : State) (v : Word) : (s.answer v).errB = s.errB := rfl
@[simp] theorem State.answer_errFlags (s : State) (v : Word) : (s.answer v).errFlags = s.errFlags := rfl
@[simp] theorem State.answer_errPos (s : State) (v : Word) : (s.answer v).errPos = s.errPos := rfl
@[simp] theorem State.answer_errIndex (s : State) (v : Word) : (s.answer v).errIndex = s.errIndex := rfl
@[simp] theorem State.answer_tr (s : State) (v : Word) : (s.answer v).tr = s.tr := rfl
@[simp] theorem State.answer_cr (s : State) (v : Word) : (s.answer v).cr = s.cr := rfl
@[simp] theorem State.answer_cl (s : State) (v : Word) : (s.answer v).cl = s.cl := rfl
@[simp] theorem State.answer_inBuf (s : State) (v : Word) : (s.answer v).inBuf = s.inBuf := rfl
@[simp] theorem State.answer_outBuf (s : State) (v : Word) : (s.answer v).outBuf = s.outBuf := rfl
@[simp] theorem State.answer_pending (s : State) (v : Word) : (s.answer v).pending = s.pending := rfl
@[simp] theorem State.answer_fault (s : State) (v : Word) : (s.answer v).fault = s.fault := rfl
@[simp] theorem State.answer_cfg (s : State) (v : Word) : (s.answer v).cfg = s.cfg := rfl
@[simp] theorem State.answer_env (s : State) (v : Word) : (s.answer v).env = { s.env with readData := v } := rfl
@[simp] theorem State.answer_busy (s : State) (v : Word) : (s.answer v).status.busy = s.status.busy := rfl
@[simp] theorem State.answer_done (s : State) (v : Word) : (s.answer v).status.done = s.status.done := rfl
@[simp] theorem State.answer_err (s : State) (v : Word) : (s.answer v).status.err = s.status.err := rfl
@[simp] theorem State.answer_trValid (s : State) (v : Word) : (s.answer v).status.trValid = s.status.trValid := rfl
@[simp] theorem State.answer_crValid (s : State) (v : Word) : (s.answer v).status.crValid = s.status.crValid := rfl
@[simp] theorem State.answer_ecode (s : State) (v : Word) : (s.answer v).status.ecode = s.status.ecode := rfl

@[simp] theorem State.nextEpoch_cmd (s : State) : (s.nextEpoch).cmd = s.cmd := rfl
@[simp] theorem State.nextEpoch_arg (s : State) : (s.nextEpoch).arg = s.arg := rfl
@[simp] theorem State.nextEpoch_result (s : State) : (s.nextEpoch).result = s.result := rfl
@[simp] theorem State.nextEpoch_aux (s : State) : (s.nextEpoch).aux = s.aux := rfl
@[simp] theorem State.nextEpoch_inLen (s : State) : (s.nextEpoch).inLen = s.inLen := rfl
@[simp] theorem State.nextEpoch_outLen (s : State) : (s.nextEpoch).outLen = s.outLen := rfl
@[simp] theorem State.nextEpoch_errA (s : State) : (s.nextEpoch).errA = s.errA := rfl
@[simp] theorem State.nextEpoch_errB (s : State) : (s.nextEpoch).errB = s.errB := rfl
@[simp] theorem State.nextEpoch_errFlags (s : State) : (s.nextEpoch).errFlags = s.errFlags := rfl
@[simp] theorem State.nextEpoch_errPos (s : State) : (s.nextEpoch).errPos = s.errPos := rfl
@[simp] theorem State.nextEpoch_errIndex (s : State) : (s.nextEpoch).errIndex = s.errIndex := rfl
@[simp] theorem State.nextEpoch_tr (s : State) : (s.nextEpoch).tr = s.tr := rfl
@[simp] theorem State.nextEpoch_cr (s : State) : (s.nextEpoch).cr = s.cr := rfl
@[simp] theorem State.nextEpoch_cl (s : State) : (s.nextEpoch).cl = s.cl := rfl
@[simp] theorem State.nextEpoch_inBuf (s : State) : (s.nextEpoch).inBuf = s.inBuf := rfl
@[simp] theorem State.nextEpoch_outBuf (s : State) : (s.nextEpoch).outBuf = s.outBuf := rfl
@[simp] theorem State.nextEpoch_pending (s : State) : (s.nextEpoch).pending = s.pending := rfl
@[simp] theorem State.nextEpoch_fault (s : State) : (s.nextEpoch).fault = s.fault := rfl
@[simp] theorem State.nextEpoch_cfg (s : State) : (s.nextEpoch).cfg = s.cfg := rfl
@[simp] theorem State.nextEpoch_env (s : State) : (s.nextEpoch).env = { s.env with epoch := s.env.epoch + 1 } := rfl
@[simp] theorem State.nextEpoch_busy (s : State) : (s.nextEpoch).status.busy = s.status.busy := rfl
@[simp] theorem State.nextEpoch_done (s : State) : (s.nextEpoch).status.done = s.status.done := rfl
@[simp] theorem State.nextEpoch_err (s : State) : (s.nextEpoch).status.err = s.status.err := rfl
@[simp] theorem State.nextEpoch_trValid (s : State) : (s.nextEpoch).status.trValid = s.status.trValid := rfl
@[simp] theorem State.nextEpoch_crValid (s : State) : (s.nextEpoch).status.crValid = s.status.crValid := rfl
@[simp] theorem State.nextEpoch_ecode (s : State) : (s.nextEpoch).status.ecode = s.status.ecode := rfl

@[simp] theorem State.advance_cmd (s : State) (rest : List HostEvent) : (s.advance rest).cmd = s.cmd := rfl
@[simp] theorem State.advance_arg (s : State) (rest : List HostEvent) : (s.advance rest).arg = s.arg := rfl
@[simp] theorem State.advance_result (s : State) (rest : List HostEvent) : (s.advance rest).result = s.result := rfl
@[simp] theorem State.advance_aux (s : State) (rest : List HostEvent) : (s.advance rest).aux = s.aux := rfl
@[simp] theorem State.advance_inLen (s : State) (rest : List HostEvent) : (s.advance rest).inLen = s.inLen := rfl
@[simp] theorem State.advance_outLen (s : State) (rest : List HostEvent) : (s.advance rest).outLen = s.outLen := rfl
@[simp] theorem State.advance_errA (s : State) (rest : List HostEvent) : (s.advance rest).errA = s.errA := rfl
@[simp] theorem State.advance_errB (s : State) (rest : List HostEvent) : (s.advance rest).errB = s.errB := rfl
@[simp] theorem State.advance_errFlags (s : State) (rest : List HostEvent) : (s.advance rest).errFlags = s.errFlags := rfl
@[simp] theorem State.advance_errPos (s : State) (rest : List HostEvent) : (s.advance rest).errPos = s.errPos := rfl
@[simp] theorem State.advance_errIndex (s : State) (rest : List HostEvent) : (s.advance rest).errIndex = s.errIndex := rfl
@[simp] theorem State.advance_tr (s : State) (rest : List HostEvent) : (s.advance rest).tr = s.tr := rfl
@[simp] theorem State.advance_cr (s : State) (rest : List HostEvent) : (s.advance rest).cr = s.cr := rfl
@[simp] theorem State.advance_cl (s : State) (rest : List HostEvent) : (s.advance rest).cl = s.cl := rfl
@[simp] theorem State.advance_inBuf (s : State) (rest : List HostEvent) : (s.advance rest).inBuf = s.inBuf := rfl
@[simp] theorem State.advance_outBuf (s : State) (rest : List HostEvent) : (s.advance rest).outBuf = s.outBuf := rfl
@[simp] theorem State.advance_pending (s : State) (rest : List HostEvent) : (s.advance rest).pending = s.pending := rfl
@[simp] theorem State.advance_fault (s : State) (rest : List HostEvent) : (s.advance rest).fault = s.fault := rfl
@[simp] theorem State.advance_cfg (s : State) (rest : List HostEvent) : (s.advance rest).cfg = s.cfg := rfl
@[simp] theorem State.advance_env (s : State) (rest : List HostEvent) : (s.advance rest).env = { s.env with script := rest, wait := s.env.wait - 1 } := rfl
@[simp] theorem State.advance_busy (s : State) (rest : List HostEvent) : (s.advance rest).status.busy = s.status.busy := rfl
@[simp] theorem State.advance_done (s : State) (rest : List HostEvent) : (s.advance rest).status.done = s.status.done := rfl
@[simp] theorem State.advance_err (s : State) (rest : List HostEvent) : (s.advance rest).status.err = s.status.err := rfl
@[simp] theorem State.advance_trValid (s : State) (rest : List HostEvent) : (s.advance rest).status.trValid = s.status.trValid := rfl
@[simp] theorem State.advance_crValid (s : State) (rest : List HostEvent) : (s.advance rest).status.crValid = s.status.crValid := rfl
@[simp] theorem State.advance_ecode (s : State) (rest : List HostEvent) : (s.advance rest).status.ecode = s.status.ecode := rfl

@[simp] theorem State.submit_cmd (s : State) (w : Word) : (s.submit w).cmd = w := rfl
@[simp] theorem State.submit_arg (s : State) (w : Word) : (s.submit w).arg = s.arg := rfl
@[simp] theorem State.submit_result (s : State) (w : Word) : (s.submit w).result = s.result := rfl
@[simp] theorem State.submit_aux (s : State) (w : Word) : (s.submit w).aux = s.aux := rfl
@[simp] theorem State.submit_inLen (s : State) (w : Word) : (s.submit w).inLen = s.inLen := rfl
@[simp] theorem State.submit_outLen (s : State) (w : Word) : (s.submit w).outLen = s.outLen := rfl
@[simp] theorem State.submit_errA (s : State) (w : Word) : (s.submit w).errA = s.errA := rfl
@[simp] theorem State.submit_errB (s : State) (w : Word) : (s.submit w).errB = s.errB := rfl
@[simp] theorem State.submit_errFlags (s : State) (w : Word) : (s.submit w).errFlags = s.errFlags := rfl
@[simp] theorem State.submit_errPos (s : State) (w : Word) : (s.submit w).errPos = s.errPos := rfl
@[simp] theorem State.submit_errIndex (s : State) (w : Word) : (s.submit w).errIndex = s.errIndex := rfl
@[simp] theorem State.submit_tr (s : State) (w : Word) : (s.submit w).tr = s.tr := rfl
@[simp] theorem State.submit_cr (s : State) (w : Word) : (s.submit w).cr = s.cr := rfl
@[simp] theorem State.submit_cl (s : State) (w : Word) : (s.submit w).cl = s.cl := rfl
@[simp] theorem State.submit_inBuf (s : State) (w : Word) : (s.submit w).inBuf = s.inBuf := rfl
@[simp] theorem State.submit_outBuf (s : State) (w : Word) : (s.submit w).outBuf = s.outBuf := rfl
@[simp] theorem State.submit_pending (s : State) (w : Word) : (s.submit w).pending = some w := rfl
@[simp] theorem State.submit_fault (s : State) (w : Word) : (s.submit w).fault = s.fault := rfl
@[simp] theorem State.submit_cfg (s : State) (w : Word) : (s.submit w).cfg = s.cfg := rfl
@[simp] theorem State.submit_env (s : State) (w : Word) : (s.submit w).env =
    { s.env with wait := s.env.delays.headD 0, delays := s.env.delays.tail, epoch := s.env.epoch + 1 } := rfl
@[simp] theorem State.submit_busy (s : State) (w : Word) : (s.submit w).status.busy = true := rfl
@[simp] theorem State.submit_done (s : State) (w : Word) : (s.submit w).status.done = s.status.done := rfl
@[simp] theorem State.submit_err (s : State) (w : Word) : (s.submit w).status.err = s.status.err := rfl
@[simp] theorem State.submit_trValid (s : State) (w : Word) : (s.submit w).status.trValid = s.status.trValid := rfl
@[simp] theorem State.submit_crValid (s : State) (w : Word) : (s.submit w).status.crValid = s.status.crValid := rfl
@[simp] theorem State.submit_ecode (s : State) (w : Word) : (s.submit w).status.ecode = s.status.ecode := rfl

@[simp] theorem State.hostFault_cmd (s : State) : (s.hostFault).cmd = s.cmd := rfl
@[simp] theorem State.hostFault_arg (s : State) : (s.hostFault).arg = s.arg := rfl
@[simp] theorem State.hostFault_result (s : State) : (s.hostFault).result = s.result := rfl
@[simp] theorem State.hostFault_aux (s : State) : (s.hostFault).aux = s.aux := rfl
@[simp] theorem State.hostFault_inLen (s : State) : (s.hostFault).inLen = s.inLen := rfl
@[simp] theorem State.hostFault_outLen (s : State) : (s.hostFault).outLen = s.outLen := rfl
@[simp] theorem State.hostFault_errA (s : State) : (s.hostFault).errA = s.errA := rfl
@[simp] theorem State.hostFault_errB (s : State) : (s.hostFault).errB = s.errB := rfl
@[simp] theorem State.hostFault_errFlags (s : State) : (s.hostFault).errFlags = s.errFlags := rfl
@[simp] theorem State.hostFault_errPos (s : State) : (s.hostFault).errPos = s.errPos := rfl
@[simp] theorem State.hostFault_errIndex (s : State) : (s.hostFault).errIndex = s.errIndex := rfl
@[simp] theorem State.hostFault_tr (s : State) : (s.hostFault).tr = s.tr := rfl
@[simp] theorem State.hostFault_cr (s : State) : (s.hostFault).cr = s.cr := rfl
@[simp] theorem State.hostFault_cl (s : State) : (s.hostFault).cl = s.cl := rfl
@[simp] theorem State.hostFault_inBuf (s : State) : (s.hostFault).inBuf = s.inBuf := rfl
@[simp] theorem State.hostFault_outBuf (s : State) : (s.hostFault).outBuf = s.outBuf := rfl
@[simp] theorem State.hostFault_pending (s : State) : (s.hostFault).pending = s.pending := rfl
@[simp] theorem State.hostFault_fault (s : State) : (s.hostFault).fault = s.fault.add .hostFault := rfl
@[simp] theorem State.hostFault_cfg (s : State) : (s.hostFault).cfg = s.cfg := rfl
@[simp] theorem State.hostFault_env (s : State) : (s.hostFault).env = s.env := rfl
@[simp] theorem State.hostFault_busy (s : State) : (s.hostFault).status.busy = s.status.busy := rfl
@[simp] theorem State.hostFault_done (s : State) : (s.hostFault).status.done = s.status.done := rfl
@[simp] theorem State.hostFault_err (s : State) : (s.hostFault).status.err = s.status.err := rfl
@[simp] theorem State.hostFault_trValid (s : State) : (s.hostFault).status.trValid = s.status.trValid := rfl
@[simp] theorem State.hostFault_crValid (s : State) : (s.hostFault).status.crValid = s.status.crValid := rfl
@[simp] theorem State.hostFault_ecode (s : State) : (s.hostFault).status.ecode = s.status.ecode := rfl

end Sys2Proof.Machine
end

