-- ==== Sys2Proof/Laws/Exec.lean ====
section
/-!
SUPPORT. What a command, a host access and a step can do, said once (the inversion lemmas that every invariant cites).
-/
namespace Sys2Proof.Machine

/-- `u` is `s` with the named parts written, and nothing else. -/
def WritesOnly (written : List Part) (s u : State) : Prop :=
  u = { s with
    tr := u.tr, cr := u.cr, cl := u.cl, result := u.result, aux := u.aux, outLen := u.outLen, outBuf := u.outBuf,
    status := { s.status with trValid := u.status.trValid, crValid := u.status.crValid } } ∧
  ∀ p, p ∉ written → AgreeOn p s u

theorem agreeOn_refl (p : Part) (s : State) : AgreeOn p s s := by
  cases p <;> simp [AgreeOn]

/-- Every command's outcome is a success that writes at most the parts of R84, an error, or the fault UninitInput. -/
def OutcomeOk (written : List Part) (s : State) (r : Except Stop State) : Prop :=
  (∀ u, r = .ok u → WritesOnly written s u) ∧ (∀ f, r = .error (.fault f) → f = .uninitInput)

theorem OutcomeOk.ok {w : List Part} {s u : State} (h : WritesOnly w s u) : OutcomeOk w s (.ok u) :=
  ⟨fun v hv => by cases hv; exact h, fun f hf => by cases hf⟩

theorem OutcomeOk.raise {w : List Part} {s : State} (e : ErrorInfo) : OutcomeOk w s (.error (.raise e)) :=
  ⟨fun v hv => (by cases hv), fun f hf => (by cases hf)⟩

/-- A computation that does not raise a model fault other than UninitInput. -/
def OnlyUninit {α : Type} (r : Except Stop α) : Prop := ∀ f, r = .error (.fault f) → f = .uninitInput

theorem OutcomeOk.bind {w : List Part} {s : State} {α : Type} {x : Except Stop α} {f : α → Except Stop State}
    (hx : OnlyUninit x) (hf : ∀ a, x = .ok a → OutcomeOk w s (f a)) : OutcomeOk w s (x >>= f) := by
  cases x with
  | ok a => exact hf a rfl
  | error e => exact ⟨fun u hu => (by cases hu), fun g hg => hx g (by simpa using hg)⟩

theorem onlyUninit_bind {α β : Type} {x : Except Stop α} {f : α → Except Stop β} (hx : OnlyUninit x)
    (hf : ∀ a, OnlyUninit (f a)) : OnlyUninit (x >>= f) := by
  cases x with
  | ok a => exact hf a
  | error e => exact fun g hg => hx g (by simpa using hg)

theorem onlyUninit_ok {α : Type} (a : α) : OnlyUninit (.ok a : Except Stop α) := fun _ h => by cases h

theorem onlyUninit_raise {α : Type} (e : ErrorInfo) : OnlyUninit (raise e : Except Stop α) := fun _ h => by cases h

theorem onlyUninit_failIf (p : Prop) [Decidable p] (e : ErrorInfo) : OnlyUninit (failIf p e) := by
  unfold failIf
  split
  · exact onlyUninit_raise e
  · exact onlyUninit_ok ()

theorem onlyUninit_memRead (m : Memory) (a n : Nat) : OnlyUninit (memRead m a n) := by
  rcases memRead_cases m a n with ⟨bs, -, -, h⟩ | ⟨-, h⟩ <;> rw [h] <;> intro f hf <;> cases hf
  rfl

theorem onlyUninit_memRead4 (m : Memory) (a : Nat) : OnlyUninit (memRead4 m a) := by
  rcases memRead4_cases m a with ⟨bs, -, h⟩ | ⟨-, h⟩ <;> rw [h] <;> intro f hf <;> cases hf
  rfl

theorem onlyUninit_fromBytes (t : Bytes4) : OnlyUninit (fromBytes t) := by
  unfold fromBytes
  split
  · exact onlyUninit_raise _
  · exact onlyUninit_ok t

theorem onlyUninit_chunkParse (m : Memory) (base n : Nat) : OnlyUninit (chunkParse m base n) := by
  unfold chunkParse
  refine onlyUninit_bind (onlyUninit_failIf _ _) fun _ => onlyUninit_bind (onlyUninit_memRead4 _ _) fun _ =>
    onlyUninit_bind (onlyUninit_failIf _ _) fun _ => onlyUninit_bind (onlyUninit_memRead4 _ _) fun _ =>
    onlyUninit_bind (onlyUninit_fromBytes _) fun _ => onlyUninit_bind (onlyUninit_failIf _ _) fun _ =>
    onlyUninit_bind (onlyUninit_memRead _ _ _) fun _ => onlyUninit_bind (onlyUninit_memRead4 _ _) fun _ =>
    onlyUninit_bind (onlyUninit_failIf _ _) fun _ => onlyUninit_ok _

theorem onlyUninit_containerLoop (m : Memory) (n fuel pos : Nat) (list : List Chunk) :
    OnlyUninit (containerLoop m n fuel pos list) := by
  induction fuel generalizing pos list with
  | zero => exact onlyUninit_ok list
  | succ fuel ih =>
    rw [containerLoop_succ]
    split
    · split
      · exact onlyUninit_raise _
      · split
        · exact ih _ _
        · rename_i e he
          intro f hf
          cases e with
          | raise e => cases hf
          | fault g =>
            have := onlyUninit_chunkParse m pos (n - pos) g he
            cases hf
            exact this
    · exact onlyUninit_ok list

theorem onlyUninit_containerParse (m : Memory) (n : Nat) : OnlyUninit (containerParse m n) :=
  onlyUninit_bind
    (onlyUninit_bind (onlyUninit_failIf _ _) fun _ => onlyUninit_bind (onlyUninit_memRead _ _ _) fun _ =>
      onlyUninit_failIf _ _)
    fun _ => onlyUninit_containerLoop _ _ _ _ _

theorem onlyUninit_inputLength (s : State) : OnlyUninit (inputLength s) :=
  onlyUninit_bind (onlyUninit_failIf _ _) fun _ => onlyUninit_ok _

theorem onlyUninit_operandTr (s : State) : OnlyUninit (operandTr s) := by
  unfold operandTr
  split
  · exact onlyUninit_ok _
  · exact onlyUninit_raise _

theorem onlyUninit_operandCr (s : State) : OnlyUninit (operandCr s) := by
  unfold operandCr
  split
  · exact onlyUninit_ok _
  · exact onlyUninit_raise _

theorem onlyUninit_inPayload (s : State) : OnlyUninit (inPayload s) :=
  onlyUninit_bind (onlyUninit_inputLength s) fun _ => onlyUninit_memRead _ _ _

theorem onlyUninit_inTypeString (s : State) : OnlyUninit (inTypeString s) := by
  refine onlyUninit_bind (onlyUninit_inputLength s) fun n => ?_
  split
  · exact onlyUninit_memRead4 _ _
  · exact onlyUninit_raise _

theorem onlyUninit_query (s : State) : OnlyUninit (query s) := by
  refine onlyUninit_bind (onlyUninit_inputLength s) fun n => ?_
  split
  · exact onlyUninit_bind (onlyUninit_memRead4 _ _) fun _ => onlyUninit_ok _
  · exact onlyUninit_ok _

theorem outcomeOk_emit (s : State) (bs : List Byte) : OutcomeOk [.out] s (emit s bs) := by
  refine OutcomeOk.bind (onlyUninit_failIf _ _) fun _ _ => OutcomeOk.ok ⟨rfl, fun p hp => ?_⟩
  cases p <;> simp_all [AgreeOn]

/-- A success that is `s` with parts written one after the other. -/
theorem writesOnly_of {w : List Part} {s u : State} (h : u = { s with
    tr := u.tr, cr := u.cr, cl := u.cl, result := u.result, aux := u.aux, outLen := u.outLen, outBuf := u.outBuf,
    status := { s.status with trValid := u.status.trValid, crValid := u.status.crValid } })
    (htr : .tr ∉ w → AgreeOn .tr s u) (hcr : .cr ∉ w → AgreeOn .cr s u) (hcl : .cl ∉ w → AgreeOn .cl s u)
    (hresult : .result ∉ w → AgreeOn .result s u) (haux : .aux ∉ w → AgreeOn .aux s u)
    (hout : .out ∉ w → AgreeOn .out s u) : OutcomeOk w s (.ok u) := by
  refine OutcomeOk.ok ⟨h, fun p hp => ?_⟩
  cases p
  · exact htr hp
  · exact hcr hp
  · exact hcl hp
  · exact hresult hp
  · exact haux hp
  · exact hout hp

/-- Every command is the commit of an outcome that keeps to R84's column "writes". -/
theorem exec_eq_commit (i : Instr) (s : State) : ∃ r, exec i s = commit s r ∧ OutcomeOk (writesOf i) s r := by
  cases i
  case tcFromBytes =>
    exact ⟨_, rfl, OutcomeOk.bind (onlyUninit_fromBytes _) fun _ _ => writesOnly_of rfl
      (by simp [writesOf]) (by simp [AgreeOn]) (by simp [AgreeOn]) (by simp [AgreeOn]) (by simp [AgreeOn]) (by simp [AgreeOn])⟩
  case tcFromString =>
    exact ⟨_, rfl, OutcomeOk.bind (onlyUninit_inTypeString _) fun _ _ => OutcomeOk.bind (onlyUninit_fromBytes _)
      fun _ _ => writesOnly_of rfl
      (by simp [writesOf]) (by simp [AgreeOn]) (by simp [AgreeOn]) (by simp [AgreeOn]) (by simp [AgreeOn]) (by simp [AgreeOn])⟩
  case tcToString =>
    exact ⟨_, rfl, OutcomeOk.bind (onlyUninit_operandTr _) fun _ _ => OutcomeOk.bind (onlyUninit_failIf _ _)
      fun _ _ => writesOnly_of rfl
      (by simp [AgreeOn]) (by simp [AgreeOn]) (by simp [AgreeOn]) (by simp [AgreeOn]) (by simp [AgreeOn]) (by simp [writesOf])⟩
  case chNew =>
    exact ⟨_, rfl, OutcomeOk.bind (onlyUninit_operandTr _) fun _ _ => OutcomeOk.bind (onlyUninit_inPayload _)
      fun _ _ => writesOnly_of rfl
      (by simp [AgreeOn]) (by simp [writesOf]) (by simp [AgreeOn]) (by simp [AgreeOn]) (by simp [AgreeOn]) (by simp [AgreeOn])⟩
  case chParse =>
    exact ⟨_, rfl, OutcomeOk.bind (onlyUninit_inputLength _) fun _ _ => OutcomeOk.bind (onlyUninit_chunkParse _ _ _)
      fun _ _ => writesOnly_of rfl
      (by simp [AgreeOn]) (by simp [writesOf]) (by simp [AgreeOn]) (by simp [writesOf]) (by simp [writesOf]) (by simp [AgreeOn])⟩
  case chSerialize =>
    exact ⟨_, rfl, OutcomeOk.bind (onlyUninit_operandCr _) fun _ _ => outcomeOk_emit _ _⟩
  case chPayload =>
    exact ⟨_, rfl, OutcomeOk.bind (onlyUninit_operandCr _) fun _ _ => outcomeOk_emit _ _⟩
  case chPayloadAsText =>
    exact ⟨_, rfl, OutcomeOk.bind (onlyUninit_operandCr _) fun _ _ => OutcomeOk.bind (onlyUninit_failIf _ _)
      fun _ _ => outcomeOk_emit _ _⟩
  case chType =>
    exact ⟨_, rfl, OutcomeOk.bind (onlyUninit_operandCr _) fun _ _ => writesOnly_of rfl
      (by simp [writesOf]) (by simp [AgreeOn]) (by simp [AgreeOn]) (by simp [writesOf]) (by simp [AgreeOn]) (by simp [AgreeOn])⟩
  case chLength | chCrc =>
    exact ⟨_, rfl, OutcomeOk.bind (onlyUninit_operandCr _) fun _ _ => writesOnly_of rfl
      (by simp [AgreeOn]) (by simp [AgreeOn]) (by simp [AgreeOn]) (by simp [writesOf]) (by simp [AgreeOn]) (by simp [AgreeOn])⟩
  case tcIsValid | tcIsCritical | tcIsPublic | tcIsReservedBitValid | tcIsSafeToCopy | tcBytes =>
    exact ⟨_, rfl, OutcomeOk.bind (onlyUninit_operandTr _) fun _ _ => writesOnly_of rfl
      (by simp [AgreeOn]) (by simp [AgreeOn]) (by simp [AgreeOn]) (by simp [writesOf]) (by simp [AgreeOn]) (by simp [AgreeOn])⟩
  case pngClear =>
    exact ⟨_, rfl, writesOnly_of rfl
      (by simp [AgreeOn]) (by simp [AgreeOn]) (by simp [writesOf]) (by simp [AgreeOn]) (by simp [AgreeOn]) (by simp [AgreeOn])⟩
  case pngParse =>
    exact ⟨_, rfl, OutcomeOk.bind (onlyUninit_inputLength _) fun _ _ => OutcomeOk.bind (onlyUninit_containerParse _ _)
      fun _ _ => OutcomeOk.bind (onlyUninit_failIf _ _) fun _ _ => OutcomeOk.bind (onlyUninit_failIf _ _)
      fun _ _ => writesOnly_of rfl
      (by simp [AgreeOn]) (by simp [AgreeOn]) (by simp [writesOf]) (by simp [writesOf]) (by simp [AgreeOn]) (by simp [AgreeOn])⟩
  case pngSerialize => exact ⟨_, rfl, outcomeOk_emit _ _⟩
  case pngAppend =>
    exact ⟨_, rfl, OutcomeOk.bind (onlyUninit_operandCr _) fun _ _ => OutcomeOk.bind (onlyUninit_failIf _ _)
      fun _ _ => OutcomeOk.bind (onlyUninit_failIf _ _) fun _ _ => writesOnly_of rfl
      (by simp [AgreeOn]) (by simp [AgreeOn]) (by simp [writesOf]) (by simp [writesOf]) (by simp [AgreeOn]) (by simp [AgreeOn])⟩
  case pngChunkByType =>
    refine ⟨_, rfl, OutcomeOk.bind (onlyUninit_query _) fun q _ => ?_⟩
    split
    · exact writesOnly_of rfl
        (by simp [AgreeOn]) (by simp [AgreeOn]) (by simp [AgreeOn]) (by simp [writesOf]) (by simp [writesOf]) (by simp [AgreeOn])
    · split
      · exact writesOnly_of rfl
          (by simp [AgreeOn]) (by simp [writesOf]) (by simp [AgreeOn]) (by simp [writesOf]) (by simp [writesOf]) (by simp [AgreeOn])
      · exact writesOnly_of rfl
          (by simp [AgreeOn]) (by simp [AgreeOn]) (by simp [AgreeOn]) (by simp [writesOf]) (by simp [writesOf]) (by simp [AgreeOn])
  case pngRemove =>
    refine ⟨_, rfl, OutcomeOk.bind (onlyUninit_query _) fun q _ => ?_⟩
    split
    · exact OutcomeOk.raise _
    · split
      · exact writesOnly_of rfl
          (by simp [AgreeOn]) (by simp [writesOf]) (by simp [writesOf]) (by simp [writesOf]) (by simp [writesOf]) (by simp [AgreeOn])
      · exact OutcomeOk.raise _
  case pngCount =>
    exact ⟨_, rfl, writesOnly_of rfl
      (by simp [AgreeOn]) (by simp [AgreeOn]) (by simp [AgreeOn]) (by simp [writesOf]) (by simp [AgreeOn]) (by simp [AgreeOn])⟩
  case pngGet =>
    refine ⟨_, rfl, ?_⟩
    split
    · exact writesOnly_of rfl
        (by simp [AgreeOn]) (by simp [writesOf]) (by simp [AgreeOn]) (by simp [AgreeOn]) (by simp [AgreeOn]) (by simp [AgreeOn])
    · exact OutcomeOk.raise _

/-- The inversion lemma of `exec`: if it answers a next state, that is a success that wrote at most R84's parts, an error
completion, or UninitInput recorded. -/
theorem exec_cases {i : Instr} {s t : State} (h : exec i s = .next t) :
    (∃ u, WritesOnly (writesOf i) s u ∧ t = u.completeOk) ∨ (∃ e, t = s.completeErr e) ∨
    t = s.recordFault .uninitInput := by
  obtain ⟨r, hr, hok⟩ := exec_eq_commit i s
  rw [hr] at h
  rcases commit_cases h with ⟨u, rfl, ht⟩ | ⟨e, rfl, ht⟩ | ⟨f, rfl, ht⟩
  · exact .inl ⟨u, hok.1 u rfl, ht⟩
  · exact .inr (.inl ⟨e, ht⟩)
  · rw [hok.2 f rfl] at ht
    exact .inr (.inr ht)

/-- The inversion lemma of `step`: the framer completes the pending word, or the host does its next event, or nothing
happens. -/
theorem step_cases {s t : State} (h : step s = .next t) :
    (∃ w, s.pending = some w ∧ framerMoves s = true ∧ framerStep w s = .next t) ∨
    (∃ e rest, s.env.script = e :: rest ∧ framerMoves s = false ∧ t = hostEvent e rest s) ∨
    (s.env.script = [] ∧ s.pending = none ∧ s.fault.isEmpty = true ∧ t = s) := by
  have host : ∀ {u : State}, hostStep u = .next t → framerMoves u = false →
      (∃ e rest, u.env.script = e :: rest ∧ framerMoves u = false ∧ t = hostEvent e rest u) ∨
      (u.env.script = [] ∧ u.fault.isEmpty = true ∧ t = u) := by
    intro u hu hm
    unfold hostStep at hu
    split at hu
    · rename_i e rest hs
      exact .inl ⟨e, rest, hs, hm, by simpa using hu.symm⟩
    · rename_i hs
      split at hu
      · rename_i hf
        exact .inr ⟨hs, hf, by simpa using hu.symm⟩
      · cases hu
  cases hp : s.pending with
  | none =>
    have hm : framerMoves s = false := by simp [framerMoves, hp]
    have : hostStep s = .next t := by simpa [step, hp] using h
    rcases host this hm with hl | ⟨h1, h2, h3⟩
    · exact .inr (.inl hl)
    · exact .inr (.inr ⟨h1, rfl, h2, h3⟩)
  | some w =>
    cases hm : framerMoves s
    · have : hostStep s = .next t := by simpa [step, hp, hm] using h
      rcases host this hm with hl | ⟨h1, h2, -⟩
      · obtain ⟨e, rest, h1, -, h2⟩ := hl
        exact .inr (.inl ⟨e, rest, h1, rfl, h2⟩)
      · simp [framerMoves, hp, h1, h2] at hm
    · exact .inl ⟨w, rfl, rfl, by simpa [step, hp, hm] using h⟩

end Sys2Proof.Machine
end

