-- ==== Sys2Proof/Laws/Access.lean ====
section
/-!
SUPPORT. What a host access and a host event can do, said once, and the two ways in which a protocol violation and the
offsets of the register map are written down.
-/
namespace Sys2Proof.Machine

/-- R61: an access reaches a register exactly when it moves 4 bytes at an offset of the map. -/
theorem accessedReg_isSome {offset size : Nat} :
    (accessedReg offset size).isSome = true ↔ size = 4 ∧ offset ∈ mapOffsets := by
  have h1 : (RegName.atOffset offset).isSome = true ↔ offset ∈ mapOffsets := by
    unfold RegName.atOffset
    split <;> simp_all [mapOffsets]
  have h2 : offset ∈ mapOffsets → offset % 4 = 0 := by
    simp only [mapOffsets, List.mem_cons, List.not_mem_nil, or_false]
    omega
  unfold accessedReg
  split
  · rename_i h
    rw [h1]
    exact ⟨fun h3 => ⟨h.1, h3⟩, fun h3 => h3.2⟩
  · rename_i h
    exact ⟨fun h3 => (by cases h3), fun h3 => absurd ⟨h3.1, h2 h3.2⟩ h⟩

/-- The inversion lemma of `access`: a read answers a value (and may advance the model's counter), a legal write stores
its value or submits a word, and an access that records HostFault breaks the protocol. -/
theorem access_cases (a : HostAccess) (s : State) :
    (isRead a = true ∧ ∃ v, access a s = s.answer v ∨ (s.status.busy = true ∧ access a s = (s.answer v).nextEpoch)) ∨
    (isRead a = false ∧ s.status.busy = false ∧
      ((∃ w, a = .writeReg 0 4 w ∧ access a s = s.submit w) ∨ (∃ w, a = .writeReg 4 4 w ∧ access a s = { s with arg := w }) ∨
       (∃ w, a = .writeReg 20 4 w ∧ access a s = { s with inLen := w }) ∨
       (∃ i b, i < s.cfg.inCap ∧ a = .writeIn i 1 b ∧ access a s = { s with inBuf := s.inBuf.write i b }))) ∨
    (Violates s a ∧ access a s = s.hostFault) := by
  cases a with
  | readReg offset size =>
    simp only [access, hostReadReg]
    split
    · rename_i h
      refine .inr (.inr ⟨?_, rfl⟩)
      simp only [Violates]
      by_contra hv
      simp only [not_or, not_not] at hv
      have := accessedReg_isSome.2 hv
      rw [h] at this
      cases this
    · split
      · rename_i h
        exact .inl ⟨rfl, _, .inr ⟨by simp_all, rfl⟩⟩
      · exact .inl ⟨rfl, _, .inl rfl⟩
  | writeReg offset size w =>
    simp only [access, hostWriteReg]
    have key : ∀ r, accessedReg offset size = some r → size = 4 ∧ RegName.atOffset offset = some r := by
      intro r h
      unfold accessedReg at h
      split at h
      · rename_i hc
        exact ⟨hc.1, h⟩
      · cases h
    have off : ∀ r o, RegName.atOffset o = some r → o = r.offset := by
      intro r o h
      unfold RegName.atOffset at h
      split at h <;> first | (cases h; rfl) | cases h
    split
    · rename_i hr
      obtain ⟨rfl, ho⟩ := key _ hr
      obtain rfl := off _ _ ho
      cases hb : s.status.busy
      · exact .inr (.inl ⟨rfl, rfl, .inl ⟨w, rfl, rfl⟩⟩)
      · exact .inr (.inr ⟨by simp [Violates, hb], rfl⟩)
    · rename_i hr
      obtain ⟨rfl, ho⟩ := key _ hr
      obtain rfl := off _ _ ho
      cases hb : s.status.busy
      · exact .inr (.inl ⟨rfl, rfl, .inr (.inl ⟨w, rfl, rfl⟩)⟩)
      · exact .inr (.inr ⟨by simp [Violates, hb], rfl⟩)
    · rename_i hr
      obtain ⟨rfl, ho⟩ := key _ hr
      obtain rfl := off _ _ ho
      cases hb : s.status.busy
      · exact .inr (.inl ⟨rfl, rfl, .inr (.inr (.inl ⟨w, rfl, rfl⟩))⟩)
      · exact .inr (.inr ⟨by simp [Violates, hb], rfl⟩)
    · rename_i h1 h2 h3
      refine .inr (.inr ⟨?_, rfl⟩)
      simp only [Violates]
      by_contra hv
      obtain ⟨rfl, ho, -⟩ : size = 4 ∧ offset ∈ writableOffsets ∧ ¬ s.status.busy = true := by
        simpa only [not_or, not_not] using hv
      simp only [writableOffsets, List.mem_cons, List.not_mem_nil, or_false] at ho
      rcases ho with rfl | rfl | rfl
      · exact h1 rfl
      · exact h2 rfl
      · exact h3 rfl
  | readIn index size =>
    simp only [access, hostReadIn]
    split
    · split
      · exact .inl ⟨rfl, _, .inl rfl⟩
      · split
        · exact .inl ⟨rfl, _, .inr ⟨by assumption, rfl⟩⟩
        · exact .inl ⟨rfl, _, .inl rfl⟩
    · rename_i h
      exact .inr (.inr ⟨by simp only [Violates]; omega, rfl⟩)
  | writeIn index size b =>
    simp only [access, hostWriteIn]
    split
    · rename_i h
      obtain ⟨rfl, hi⟩ := h
      cases hb : s.status.busy
      · exact .inr (.inl ⟨rfl, rfl, .inr (.inr (.inr ⟨index, b, hi, rfl, rfl⟩))⟩)
      · exact .inr (.inr ⟨by simp [Violates, hb], rfl⟩)
    · rename_i h
      refine .inr (.inr ⟨?_, rfl⟩)
      by_contra hv
      simp only [Violates, not_or, not_not, Nat.not_le] at hv
      exact h ⟨hv.1, hv.2.1⟩
  | readOut index size =>
    simp only [access, hostReadOut]
    split
    · split
      · exact .inl ⟨rfl, _, .inr ⟨by assumption, rfl⟩⟩
      · split
        · split
          · exact .inl ⟨rfl, _, .inl rfl⟩
          · exact .inl ⟨rfl, _, .inl rfl⟩
        · exact .inl ⟨rfl, _, .inl rfl⟩
    · rename_i h
      exact .inr (.inr ⟨by simp only [Violates]; omega, rfl⟩)
  | writeOut index size b => exact .inr (.inr ⟨trivial, rfl⟩)

/-- The inversion lemma of `hostEvent`: it is an access after the host's script has advanced, the copy loop unrolled, or
the reset input. -/
theorem hostEvent_cases (e : HostEvent) (rest : List HostEvent) (s : State) :
    (∃ a rest', hostEvent e rest s = access a (s.advance rest')) ∨
    (∃ script, hostEvent e rest s = { s with env := { s.env with script := script } }) ∨
    (e = .reset ∧ hostEvent e rest s = (s.advance rest).resetInput) := by
  cases e with
  | access a => exact .inl ⟨a, rest, rfl⟩
  | poll => exact .inl ⟨.readReg RegName.status.offset 4, _, rfl⟩
  | storeRead i => exact .inl ⟨.writeIn i 1 (s.env.readData.setWidth 8), _, rfl⟩
  | copyLoop => exact .inr (.inl ⟨_, rfl⟩)
  | reset => exact .inr (.inr ⟨rfl, rfl⟩)

end Sys2Proof.Machine
end

