-- ==== Sys2Proof/Laws/Outcome.lean ====
section
/-!
SUPPORT. From what a command computes to what a claim says of it: the three completions in the vocabulary of
Sys2Proof/Safety.lean, and the facts about operands that the command claims share.
-/
namespace Sys2Proof.Machine

/-! ### Completions -/

theorem agreeOn_completeOk (p : Part) (s u : State) : AgreeOn p s u.completeOk ↔ AgreeOn p s u := by
  cases p <;> simp [AgreeOn]

theorem agreeOn_completeErr (p : Part) (s : State) (e : ErrorInfo) : AgreeOn p s (s.completeErr e) := by
  cases p <;> simp [AgreeOn]

/-- Writing parts and completing keeps every input of a command. -/
theorem keepsInputs_completeOk {w : List Part} {s u : State} (h : WritesOnly w s u) : KeepsInputs s u.completeOk := by
  rw [h.1]
  simp [KeepsInputs]

/-- A success that wrote only the named parts. -/
theorem succeeds_of {i : Instr} {s u : State} {w : List Part} {post : State → Prop}
    (h : exec i s = .next u.completeOk) (hw : WritesOnly w s u) (hp : post u.completeOk) : Succeeds i s w post :=
  ⟨_, h, by simp [Finished], by simp [ShowsSuccess],
    ⟨keepsInputs_completeOk hw, fun p hn => (agreeOn_completeOk p s u).2 (hw.2 p hn)⟩, hp⟩

/-- An error completion. -/
theorem failsWith_of {i : Instr} {s : State} {e : ErrorInfo} (h : exec i s = .next (s.completeErr e)) :
    FailsWith i s e :=
  ⟨_, h, by simp [Finished], by simp [ShowsError], ⟨by simp [KeepsInputs], fun p _ => agreeOn_completeErr p s e⟩⟩

/-- An error completion is no success. -/
theorem not_succeeds_of_completeErr {i : Instr} {s : State} {w : List Part} {post : State → Prop} {e : ErrorInfo}
    (h : exec i s = .next (s.completeErr e)) : ¬ Succeeds i s w post := by
  rintro ⟨t, ht, -, hs, -⟩
  rw [h] at ht
  cases ht
  simpa using hs.1

/-- A recorded model fault is no success. -/
theorem not_succeeds_of_recordFault {i : Instr} {s : State} {w : List Part} {post : State → Prop} {f : ModelFault}
    (hn : NoFault s) (h : exec i s = .next (s.recordFault f)) : ¬ Succeeds i s w post := by
  rintro ⟨t, ht, -, -, hk, -⟩
  rw [h] at ht
  cases ht
  have hf : s.fault.add f = s.fault := hk.1.2.2.2.2.1
  rw [hn] at hf
  cases f <;> cases hf

/-- A success of a command is a success of its computation. -/
theorem ok_of_succeeds {i : Instr} {s : State} {w : List Part} {post : State → Prop} {r : Except Stop State}
    (hr : exec i s = commit s r) (hn : NoFault s) (h : Succeeds i s w post) : ∃ u, r = .ok u ∧ post u.completeOk := by
  match r, hr with
  | .ok u, hr =>
    obtain ⟨t, ht, -, -, -, hp⟩ := h
    rw [hr] at ht
    cases ht
    exact ⟨u, rfl, hp⟩
  | .error (.raise e), hr => exact absurd h (not_succeeds_of_completeErr hr)
  | .error (.fault f), hr => exact absurd h (not_succeeds_of_recordFault hn hr)

theorem outIs_writeOut {s : State} {bs : List Byte} (h : bs.length < 2 ^ 32) :
    OutIs (s.writeOut bs).completeOk bs := by
  simp [OutIs, toNat_word h]

/-! ### Operands -/

theorem constructible_iff {t : Bytes4} : constructible t = true ↔ ∀ b ∈ t.toList, alphabetic b = true := by
  simp [constructible, Bytes4.toList, and_assoc]

/-- R121, from what a claim says of the bytes. -/
theorem firstBadIndex_of {t : Bytes4} {k : Nat} {b : Byte} (h1 : t.toList[k]? = some b) (h2 : alphabetic b = false)
    (h3 : ∀ c ∈ t.toList.take k, alphabetic c = true) : firstBadIndex t = some k := by
  refine firstBadIndex_eq_some.2 ⟨⟨b, h1, h2⟩, fun j hj c hc => h3 c ?_⟩
  rw [List.mem_take_iff_getElem]
  obtain ⟨hl, rfl⟩ := List.getElem?_eq_some_iff.1 hc
  exact ⟨j, by omega, rfl⟩

theorem config_bounds {c : Config} (h : c.wf = true) :
    12 ≤ c.inCap ∧ c.inCap < 2 ^ 32 ∧ 12 ≤ c.outCap ∧ c.outCap < 2 ^ 32 ∧ 1 ≤ c.maxChunks ∧ c.maxChunks < 2 ^ 32 ∧
    c.storeCap < 2 ^ 32 := by
  simp [Config.wf] at h
  omega

/-- A state whose IN was just loaded with a sequence has that sequence as its input. -/
theorem inputIs_holding {s : State} {bs : List Byte} (h1 : s.inBuf = Memory.holding 0 bs)
    (h2 : s.inLen = word bs.length) (h3 : bs.length ≤ s.cfg.inCap) (h4 : bs.length < 2 ^ 32) : InputIs s bs := by
  refine ⟨by rw [h2, toNat_word h4], h3, fun i b hb => ?_⟩
  rw [h1, Memory.read?_holding_zero]
  simpa using hb

/-- A part of what was loaded into IN, at its offset. -/
theorem inHolds_holding {s : State} {before bs after : List Byte}
    (h : s.inBuf = Memory.holding 0 (before ++ bs ++ after)) : InHolds s before.length bs := by
  intro i b hb
  have hi : i < bs.length := (List.getElem?_eq_some_iff.1 hb).1
  rw [h, Memory.read?_holding_zero, List.append_assoc, List.getElem?_append_right (by omega),
    List.getElem?_append_left (by omega), Nat.add_sub_cancel_left, hb]

/-- An input of 4 bytes, as the framer reads it. -/
theorem reads_of_inputIs4 {s : State} {q : Bytes4} (h : InputIs s q.toList) :
    inputLength s = .ok 4 ∧ memRead4 s.inBuf 0 = .ok q := by
  obtain ⟨h1, h2, h3⟩ := h
  simp only [Bytes4.toList_length] at h1 h2
  exact ⟨by rw [inputLength_of_le (by omega), h1], memRead4_of_holds h3⟩

theorem query_of_inputIs {s : State} {q : Bytes4} (h : InputIs s q.toList) : query s = .ok (some q) := by
  obtain ⟨h1, h2⟩ := reads_of_inputIs4 h
  simp [query, h1, h2]

theorem query_of_other_length {s : State} (h : s.inLen.toNat ≤ s.cfg.inCap) (h4 : s.inLen.toNat ≠ 4) :
    query s = .ok none := by
  simp [query, inputLength_of_le h, h4]

theorem firstMatch_eq_none {l : List Chunk} {q : Bytes4} (h : ∀ c ∈ l, c.type ≠ q) : firstMatch l (some q) = none := by
  simpa [firstMatch, List.findIdx?_eq_none_iff] using h

theorem firstMatch_eq_length {before after : List Chunk} {c : Chunk} {q : Bytes4} (h : ∀ d ∈ before, d.type ≠ q)
    (hc : c.type = q) : firstMatch (before ++ c :: after) (some q) = some before.length := by
  have hb : List.findIdx? (fun d : Chunk => decide (d.type = q)) before = none := by
    simpa [List.findIdx?_eq_none_iff] using h
  simp [firstMatch, List.findIdx?_append, List.findIdx?_cons, hc, hb]

/-- R43, R286: the output, copied to IN, is the next input. -/
theorem inputIs_of_copiedOut {s t : State} {bs : List Byte} (ho : OutIs s bs) (hc : CopiedOut s t)
    (hle : bs.length ≤ s.cfg.inCap) : InputIs t bs := by
  obtain ⟨h1, h2⟩ := hc
  obtain ⟨o1, o2⟩ := ho
  refine ⟨by rw [h1]; exact o1, by rw [h1]; exact hle, fun i b hb => ?_⟩
  have hi : i < bs.length := (List.getElem?_eq_some_iff.1 hb).1
  rw [h2, if_pos (by omega), o2]
  simpa using hb

/-- Where IN holds nothing beyond the output's length, the copied state is easily written down. -/
theorem copiedOut_outBuf {s : State} {bs : List Byte} (ho : OutIs s bs)
    (hi : ∀ i, bs.length ≤ i → s.inBuf.read? i = none) :
    CopiedOut s { s with inLen := s.outLen, inBuf := s.outBuf } := by
  refine ⟨rfl, fun i => ?_⟩
  by_cases h : i < s.outLen.toNat
  · simp [h]
  · have hb : bs.length ≤ i := by
      have := ho.1
      omega
    simp [h, hi i hb, ho.2 i, hb]

theorem payload_le_storeBytes {l : List Chunk} {c : Chunk} (h : c ∈ l) : c.payload.length ≤ storeBytes l :=
  List.single_le_sum (by simp) _ (List.mem_map.2 ⟨c, h, rfl⟩)

end Sys2Proof.Machine
end

