-- ==== Sys2Proof/Laws/PerInstr.lean ====
section
/-!
SUPPORT. The per-instruction family Encoding: decoding the encoding of a command gives it back, and its word is well
formed (R80, R81, R84, R85).
-/
namespace Sys2Proof.Laws.Encoding

/-- What is claimed of each command. -/
def Statement (i : Instr) : Prop :=
  i.wf = true ∧ wordWf (encode i) = true ∧ decode (encode i) = .ok i ∧ decodeTableWord 32 (encode i).toNat = some i

theorem tcFromBytes : Statement .tcFromBytes := by unfold Statement; decide
theorem tcFromString : Statement .tcFromString := by unfold Statement; decide
theorem tcIsValid : Statement .tcIsValid := by unfold Statement; decide
theorem tcIsCritical : Statement .tcIsCritical := by unfold Statement; decide
theorem tcIsPublic : Statement .tcIsPublic := by unfold Statement; decide
theorem tcIsReservedBitValid : Statement .tcIsReservedBitValid := by unfold Statement; decide
theorem tcIsSafeToCopy : Statement .tcIsSafeToCopy := by unfold Statement; decide
theorem tcToString : Statement .tcToString := by unfold Statement; decide
theorem tcBytes : Statement .tcBytes := by unfold Statement; decide
theorem chNew : Statement .chNew := by unfold Statement; decide
theorem chParse : Statement .chParse := by unfold Statement; decide
theorem chSerialize : Statement .chSerialize := by unfold Statement; decide
theorem chLength : Statement .chLength := by unfold Statement; decide
theorem chCrc : Statement .chCrc := by unfold Statement; decide
theorem chType : Statement .chType := by unfold Statement; decide
theorem chPayload : Statement .chPayload := by unfold Statement; decide
theorem chPayloadAsText : Statement .chPayloadAsText := by unfold Statement; decide
theorem pngClear : Statement .pngClear := by unfold Statement; decide
theorem pngParse : Statement .pngParse := by unfold Statement; decide
theorem pngSerialize : Statement .pngSerialize := by unfold Statement; decide
theorem pngAppend : Statement .pngAppend := by unfold Statement; decide
theorem pngChunkByType : Statement .pngChunkByType := by unfold Statement; decide
theorem pngRemove : Statement .pngRemove := by unfold Statement; decide
theorem pngCount : Statement .pngCount := by unfold Statement; decide
theorem pngGet : Statement .pngGet := by unfold Statement; decide

end Sys2Proof.Laws.Encoding
end

