-- ==== Sys2Proof/Tests/Slice0.lean ====
section
/-!
SUPPORT. The model's own tests. Expected values come from spec/95_test_vectors.md (the vector is named) or are worked out
by hand from the rule named. Then one witness theorem for every obligation that has hypotheses.
-/
namespace Sys2Proof.Tests
open Sys2Proof Sys2Proof.Machine

/-! ### Syntax: each check of WellFormed.lean refuses an ill-formed term -/

theorem test_wf_reserved_bits : wordWf 0x00000131#32 = false ∧ wordWf 0x00000100#32 = false := by decide
theorem test_wf_reserved_opcode :
    wordWf 0x00#32 = false ∧ wordWf 0x0F#32 = false ∧ wordWf 0x19#32 = false ∧ wordWf 0x1F#32 = false ∧
    wordWf 0x28#32 = false ∧ wordWf 0x2F#32 = false ∧ wordWf 0x38#32 = false ∧ wordWf 0xFF#32 = false := by decide
theorem test_wf_word_ok : wordWf 0x10#32 = true ∧ wordWf 0x27#32 = true ∧ wordWf 0x37#32 = true := by decide
theorem test_wf_config :
    Config.wf { Config.default with inCap := 11 } = false ∧ Config.wf { Config.default with inCap := 2 ^ 32 } = false ∧
    Config.wf { Config.default with outCap := 11 } = false ∧ Config.wf { Config.default with outCap := 2 ^ 32 } = false ∧
    Config.wf { Config.default with maxChunks := 0 } = false ∧
    Config.wf { Config.default with maxChunks := 2 ^ 32 } = false ∧
    Config.wf { Config.default with storeCap := 2 ^ 32 } = false ∧ Config.default.wf = true := by decide
theorem test_wf_host_line :
    HostLine.wf (.commandImm .chNew 0) = false ∧ HostLine.wf (.commandImm .pngGet 0) = true ∧
    HostLine.wf (.commandImm .tcFromBytes 0) = true := by decide
theorem test_wf_load_length : ∀ bs : List Byte, 2 ^ 32 ≤ bs.length → HostLine.wf (.loadIn bs) = false := by
  intro bs h
  simp only [HostLine.wf, decide_eq_false_iff_not, Nat.not_lt]
  exact h

/-! ### Decoding: words written out from R80 and R84 -/

/-- Bits 31:8 zero, bits 7:0 the opcode: one command of each unit, bit by bit. -/
theorem test_decode_bits :
    decode 0b00000000000000000000000000010101#32 = .ok .tcIsReservedBitValid ∧
    decode 0b00000000000000000000000000100011#32 = .ok .chLength ∧
    decode 0b00000000000000000000000000110100#32 = .ok .pngChunkByType := by decide
theorem test_decode_type_unit :
    decode 0x10#32 = .ok .tcFromBytes ∧ decode 0x11#32 = .ok .tcFromString ∧ decode 0x12#32 = .ok .tcIsValid ∧
    decode 0x13#32 = .ok .tcIsCritical ∧ decode 0x14#32 = .ok .tcIsPublic ∧
    decode 0x15#32 = .ok .tcIsReservedBitValid ∧ decode 0x16#32 = .ok .tcIsSafeToCopy ∧
    decode 0x17#32 = .ok .tcToString ∧ decode 0x18#32 = .ok .tcBytes := by decide
theorem test_decode_chunk_unit :
    decode 0x20#32 = .ok .chNew ∧ decode 0x21#32 = .ok .chParse ∧ decode 0x22#32 = .ok .chSerialize ∧
    decode 0x23#32 = .ok .chLength ∧ decode 0x24#32 = .ok .chCrc ∧ decode 0x25#32 = .ok .chType ∧
    decode 0x26#32 = .ok .chPayload ∧ decode 0x27#32 = .ok .chPayloadAsText := by decide
theorem test_decode_container_unit :
    decode 0x30#32 = .ok .pngClear ∧ decode 0x31#32 = .ok .pngParse ∧ decode 0x32#32 = .ok .pngSerialize ∧
    decode 0x33#32 = .ok .pngAppend ∧ decode 0x34#32 = .ok .pngChunkByType ∧ decode 0x35#32 = .ok .pngRemove ∧
    decode 0x36#32 = .ok .pngCount ∧ decode 0x37#32 = .ok .pngGet := by decide
/-- V13. -/
theorem test_decode_illegal :
    decode 0x00#32 = .error .reservedOpcode ∧ decode 0x19#32 = .error .reservedOpcode ∧
    decode 0xFF#32 = .error .reservedOpcode ∧ decode 0x100#32 = .error .reservedBits ∧
    decode 0x131#32 = .error .reservedBits := by decide

/-! ### Small states -/

/-- "RuSt", "Rust", "teSt" -/
def typeRuSt : TypeCode := ⟨0x52, 0x75, 0x53, 0x74⟩
/-- See `typeRuSt`. -/
def typeRust : TypeCode := ⟨0x52, 0x75, 0x73, 0x74⟩
/-- See `typeRuSt`. -/
def typeTest : TypeCode := ⟨0x74, 0x65, 0x53, 0x74⟩
/-- "hello" -/
def hello : List Byte := [0x68, 0x65, 0x6C, 0x6C, 0x6F]
/-- R1 of V18: the record of ("RuSt", "hello"), as V10 gives it. -/
def recordHello : List Byte :=
  [0x00, 0x00, 0x00, 0x05, 0x52, 0x75, 0x53, 0x74, 0x68, 0x65, 0x6C, 0x6C, 0x6F, 0x2C, 0xA1, 0x0F, 0xCC]
/-- R2 of V18: the record of ("teSt", empty), as V10 gives it. -/
def recordTest : List Byte := [0x00, 0x00, 0x00, 0x00, 0x74, 0x65, 0x53, 0x74, 0x4D, 0xFB, 0x5A, 0xAE]
/-- SIG, as R89 gives it. -/
def sig : List Byte := [0x89, 0x50, 0x4E, 0x47, 0x0D, 0x0A, 0x1A, 0x0A]
/-- V19's container. -/
def threeChunks : List Chunk := [⟨typeTest, []⟩, ⟨typeRuSt, [0x61]⟩, ⟨typeRuSt, [0x62]⟩]

/-- A state with an input loaded. -/
def withIn (bs : List Byte) (s : State) : State := { s with inBuf := Memory.holding 0 bs, inLen := word bs.length }
/-- A state whose TR holds a code. -/
def withTr (t : TypeCode) (s : State) : State := { s with tr := t, status := { s.status with trValid := true } }
/-- A state whose CR holds a chunk. -/
def withCr (c : Chunk) (s : State) : State := { s with cr := c, status := { s.status with crValid := true } }
/-- A state whose CL holds a list. -/
def withCl (l : List Chunk) (s : State) : State := { s with cl := l }
/-- A state with ARG written. -/
def withArg (v : Word) (s : State) : State := { s with arg := v }
/-- The next state of one step that runs a command word, and `s` itself where there is none. -/
def after (w : Nat) (s : State) : State :=
  match step (s.withFetchWord 32 w) with
  | .next t => t
  | _ => s
/-- STATUS, ERR_A, ERR_B and the rest of the error registers, as words. -/
def errors (s : State) : Word × Word × Word × Word × Word × Word :=
  (s.status.toWord, s.errA, s.errB, s.errFlags.toWord, s.errPos, s.errIndex)

/-! ### One step per command -/

/-- V3, V12. -/
theorem test_tcFromBytes :
    (after 0x10 (withArg 0x52755374 .reset)).tr = typeRuSt ∧
    (after 0x10 (withArg 0x52755374 .reset)).status.toWord = 0x0A := by decide
theorem test_tcFromBytes_bad : errors (after 0x10 (withArg 0x527553FF .reset)) = (0x0106, 0x527553FF, 3, 0, 0, 0) := by
  decide
/-- V12. -/
theorem test_tcFromString_length :
    errors (after 0x11 (withIn [0x52, 0x75, 0x73, 0x74, 0x21] .reset)) = (0x0206, 5, 0, 0, 0, 0) := by decide
theorem test_tcFromString_bytes :
    errors (after 0x11 (withIn [0xC3, 0xA9, 0xC3, 0xA9] .reset)) = (0x0106, 0xC3A9C3A9, 0, 0, 0, 0) := by decide
/-- V11. -/
theorem test_tcIsValid :
    (after 0x12 (withTr typeRuSt .reset)).result = 1 ∧ (after 0x12 (withTr typeRust .reset)).result = 0 := by decide
theorem test_tcIsCritical :
    (after 0x13 (withTr typeRuSt .reset)).result = 1 ∧
    (after 0x13 (withTr ⟨0x72, 0x75, 0x53, 0x74⟩ .reset)).result = 0 := by decide
theorem test_tcIsPublic :
    (after 0x14 (withTr typeRuSt .reset)).result = 0 ∧
    (after 0x14 (withTr ⟨0x52, 0x55, 0x53, 0x74⟩ .reset)).result = 1 := by decide
theorem test_tcIsReservedBitValid :
    (after 0x15 (withTr typeRuSt .reset)).result = 1 ∧ (after 0x15 (withTr typeRust .reset)).result = 0 := by decide
theorem test_tcIsSafeToCopy :
    (after 0x16 (withTr typeRuSt .reset)).result = 1 ∧
    (after 0x16 (withTr ⟨0x52, 0x75, 0x53, 0x54⟩ .reset)).result = 0 := by decide
theorem test_tcToString :
    (after 0x17 (withTr typeRuSt .reset)).outBuf = [(0, 0x52), (1, 0x75), (2, 0x53), (3, 0x74)] ∧
    (after 0x17 (withTr typeRuSt .reset)).outLen = 4 := by decide
theorem test_tcBytes : (after 0x18 (withTr typeRuSt .reset)).result = 0x52755374 := by decide
/-- V13: NoTypeOperand comes before capacity. -/
theorem test_chNew_empty_tr : errors (after 0x20 (State.reset)) = (0x1106, 0, 0, 0, 0, 0) ∧
    errors (after 0x20 { State.reset with inLen := 0xFFFFFFFF }) = (0x1106, 0, 0, 0, 0, 0) := by decide
/-- P1 line 7. -/
theorem test_chNew : (after 0x20 (withIn hello (withTr typeRuSt .reset))).cr = ⟨typeRuSt, hello⟩ ∧
    (after 0x20 (withIn hello (withTr typeRuSt .reset))).status.toWord = 0x1A := by decide
/-- V16's excess data on V10's record: 17 bytes used, 3 left. -/
theorem test_chParse :
    (after 0x21 (withIn (recordHello ++ [1, 2, 3]) .reset)).cr = ⟨typeRuSt, hello⟩ ∧
    (after 0x21 (withIn (recordHello ++ [1, 2, 3]) .reset)).result = 17 ∧
    (after 0x21 (withIn (recordHello ++ [1, 2, 3]) .reset)).aux = 3 := by decide +kernel
/-- V14: the truncation test does not wrap. -/
theorem test_chParse_no_wrap :
    errors (after 0x21 (withIn [0xFF, 0xFF, 0xFF, 0xFF, 0x52, 0x75, 0x53, 0x74, 0, 0, 0, 0] .reset)) =
      (0x0406, 0xFFFFFFFF, 8, 0, 0, 0) := by decide
/-- V10. -/
theorem test_chSerialize :
    (after 0x22 (withCr ⟨typeRuSt, hello⟩ .reset)).outBuf = Memory.holding 0 recordHello ∧
    (after 0x22 (withCr ⟨typeRuSt, hello⟩ .reset)).outLen = 17 := by decide +kernel
theorem test_chLength : (after 0x23 (withCr ⟨typeRuSt, hello⟩ .reset)).result = 5 := by decide
theorem test_chCrc : (after 0x24 (withCr ⟨typeRuSt, hello⟩ .reset)).result = 0x2CA10FCC := by decide +kernel
theorem test_chType :
    (after 0x25 (withCr ⟨typeRuSt, hello⟩ .reset)).result = 0x52755374 ∧
    (after 0x25 (withCr ⟨typeRuSt, hello⟩ .reset)).tr = typeRuSt := by decide
theorem test_chPayload :
    (after 0x26 (withCr ⟨typeRuSt, hello⟩ .reset)).outBuf = Memory.holding 0 hello := by decide
/-- V17. -/
theorem test_chPayloadAsText :
    (after 0x27 (withCr ⟨typeRuSt, [0xC3, 0xA9, 0xE2, 0x82, 0xAC, 0xF0, 0x9F, 0x98, 0x80]⟩ .reset)).outLen = 9 := by
  decide
theorem test_chPayloadAsText_bad :
    errors (after 0x27 (withCr ⟨typeRuSt, [0x61, 0xE2, 0x82, 0xAC, 0xF0]⟩ .reset)) = (0x0716, 4, 0, 0, 0, 0) ∧
    errors (after 0x27 (withCr ⟨typeRuSt, [0xED, 0xA0, 0x80]⟩ .reset)) = (0x0716, 0, 0, 0, 0, 0) := by decide
theorem test_pngClear : (after 0x30 (withCl threeChunks .reset)).cl = [] := by decide
/-- V18. -/
theorem test_pngParse :
    (after 0x31 (withIn (sig ++ recordHello ++ recordTest) .reset)).cl = [⟨typeRuSt, hello⟩, ⟨typeTest, []⟩] ∧
    (after 0x31 (withIn (sig ++ recordHello ++ recordTest) .reset)).result = 2 := by decide +kernel
theorem test_pngParse_crc :
    errors (after 0x31 (withIn (sig ++ recordHello ++ recordTest.take 11 ++ [0]) .reset)) =
      (0x0606, 0x4DFB5AAE, 0x4DFB5A00, 1, 25, 1) := by decide +kernel
/-- V21's last record and the size of its stream, from the container of V19. -/
theorem test_pngSerialize :
    (after 0x32 (withCl threeChunks .reset)).outLen = 46 ∧
    ((after 0x32 (withCl threeChunks .reset)).outBuf.drop 33).map Prod.snd =
      [0x00, 0x00, 0x00, 0x01, 0x52, 0x75, 0x53, 0x74, 0x62, 0x5E, 0x05, 0x17, 0x77] := by decide +kernel
/-- V20. -/
theorem test_pngAppend_full :
    errors (after 0x33 (withCr ⟨typeRuSt, hello⟩ { State.reset with cfg := { Config.default with storeCap := 4 } })) =
      (0x1316, 5, 4, 0xC, 0, 0) := by decide
theorem test_pngAppend : (after 0x33 (withCl threeChunks (withCr ⟨typeRuSt, hello⟩ .reset))).cl =
    threeChunks ++ [⟨typeRuSt, hello⟩] := by decide
/-- V19. -/
theorem test_pngChunkByType :
    (after 0x34 (withIn [0x52, 0x75, 0x53, 0x74] (withCl threeChunks .reset))).aux = 1 ∧
    (after 0x34 (withIn [0x52, 0x75, 0x53, 0x74] (withCl threeChunks .reset))).cr = ⟨typeRuSt, [0x61]⟩ := by decide
theorem test_pngChunkByType_none :
    (after 0x34 (withIn [0x72, 0x75, 0x73, 0x74] (withCl threeChunks .reset))).result = 0 ∧
    (after 0x34 (withIn [0x72, 0x75, 0x73, 0x74] (withCl threeChunks .reset))).status.toWord = 0x02 := by decide
/-- V19. -/
theorem test_pngRemove :
    (after 0x35 (withIn [0x52, 0x75, 0x53, 0x74] (withCl threeChunks .reset))).cl =
      [⟨typeTest, []⟩, ⟨typeRuSt, [0x62]⟩] ∧
    (after 0x35 (withIn [0x52, 0x75, 0x53, 0x74] (withCl threeChunks .reset))).aux = 2 := by decide
theorem test_pngRemove_none :
    errors (after 0x35 (withIn [0x49, 0x45, 0x4E, 0x44] (withCl threeChunks .reset))) =
      (0x0A06, 4, 0x49454E44, 0, 0, 0) := by decide
theorem test_pngCount : (after 0x36 (withCl threeChunks .reset)).result = 3 := by decide
/-- R211's example, and P3 line 20. -/
theorem test_pngGet :
    (after 0x37 (withArg 1 (withCl threeChunks .reset))).cr = ⟨typeRuSt, [0x61]⟩ ∧
    errors (after 0x37 (withArg 1 (withCl [⟨typeTest, []⟩] .reset))) = (0x1406, 1, 1, 0, 0, 0) := by decide
/-- V13. -/
theorem test_illegal : errors (after 0x131 .reset) = (0x1006, 0x131, 0, 0, 0, 0) := by decide
/-- P6: the command does not complete. -/
theorem test_uninitInput :
    (after 0x11 { State.reset with inLen := 4 }).fault = ⟨false, true⟩ ∧
    (after 0x11 { State.reset with inLen := 4 }).pending = some 0x11 ∧
    (after 0x11 { State.reset with inLen := 4 }).status.toWord = 1 := by decide

/-! ### The host port -/

/-- R38, R61. -/
theorem test_id : (access (.readReg 0x050 4) State.reset).env.readData = 0x504E4746 := by decide
/-- R61, R262: a misaligned read, a reserved offset, a read-only register, a write while busy. -/
theorem test_hostFault :
    (access (.readReg 0x002 4) State.reset).fault.hostFault = true ∧
    (access (.readReg 0x038 4) State.reset).fault.hostFault = true ∧
    (access (.writeReg 0x008 4 0) State.reset).fault.hostFault = true ∧
    (access (.writeReg 0x004 4 0) (State.reset.submit 0x36)).fault.hostFault = true ∧
    (access (.writeIn 4096 1 0) State.reset).fault.hostFault = true := by decide
/-- R86: a command line is a write of CMD and a poll. -/
theorem test_expandLine :
    expandLine (.command .pngCount) = [.access (.writeReg 0x000 4 0x36), .poll] ∧
    expandLine (.loadIn [0x61]) = [.access (.writeIn 0 1 0x61), .access (.writeReg 0x014 4 1)] := by decide
/-- R282. -/
theorem test_reset_discards :
    (hostEvent .reset [] (State.reset.submit 0x36)).pending = none ∧
    (hostEvent .reset [] (State.reset.submit 0x36)).status.toWord = 0 := by decide

/-! ### Witnesses: states and operands that meet the hypotheses of the obligations, clause by clause -/

/-- The input of `withIn`. -/
theorem inputIs_withIn {bs : List Byte} {s : State} (h : bs.length ≤ s.cfg.inCap) (h' : bs.length < 2 ^ 32) :
    InputIs (withIn bs s) bs := inputIs_holding rfl rfl h h'
/-- A part of the input of `withIn`. -/
theorem inHolds_withIn (before bs after : List Byte) (s : State) :
    InHolds (withIn (before ++ bs ++ after) s) before.length bs := inHolds_holding rfl

/-- A command that is due, and one with 3 host events to go while the host polls. -/
theorem witness_StepRunsThePendingCommand :
    (∃ (s : State) (w : Word) (i : Instr), s.pending = some w ∧ NoFault s ∧ decode w = .ok i ∧
      (s.env.wait = 0 ∨ s.env.script = [])) ∧
    (∃ (s : State) (w : Word) (i : Instr) (rest : List HostEvent), s.pending = some w ∧ NoFault s ∧ decode w = .ok i ∧
      s.status.busy = true ∧ s.env.script = .poll :: rest ∧ s.env.wait = 3) :=
  ⟨⟨State.reset.withFetchWord 32 0x36, 0x36, .pngCount, rfl, rfl, by decide, .inl rfl⟩,
   ⟨{ State.reset.submit 0x36 with env := { Env.reset with script := [.poll], wait := 3 } }, 0x36, .pngCount, [], rfl, rfl,
    by decide, rfl, rfl, rfl⟩⟩

/-- The first word with a reserved bit set, and the ends of the reserved opcode ranges. -/
theorem witness_IllegalWordCompletesWithIllegalCommand :
    ∀ w ∈ [0x100#32, 0xFFFFFFFF#32, 0x00#32, 0x0F#32, 0x19#32, 0x1F#32, 0x28#32, 0x2F#32, 0x38#32, 0xFF#32],
      ∃ s : State, s.pending = some w ∧ NoFault s ∧ (s.env.wait = 0 ∨ s.env.script = []) ∧
        (0x100 ≤ w.toNat ∨ opcodeAssigned (w.toNat % 0x100) = false) := by
  intro w hw
  refine ⟨State.reset.submit w, rfl, rfl, .inl rfl, ?_⟩
  fin_cases hw <;> decide

theorem witness_StepWithoutTheFramer :
    (∃ (s : State) (e : HostEvent) (rest : List HostEvent), s.env.script = e :: rest ∧ s.pending = none) ∧
    (∃ (s : State) (e : HostEvent) (rest : List HostEvent), s.env.script = e :: rest ∧ ¬ NoFault s) ∧
    (∃ (s : State) (e : HostEvent) (rest : List HostEvent), s.env.script = e :: rest ∧ s.env.wait ≠ 0) ∧
    (∃ s : State, s.env.script = [] ∧ s.pending = none ∧ NoFault s) ∧
    (∃ s : State, s.env.script = [] ∧ ¬ NoFault s) ∧
    (∃ (s : State) (a : HostAccess), Violates s a) :=
  ⟨⟨{ State.reset with env := { Env.reset with script := [.poll] } }, .poll, [], rfl, rfl⟩,
   ⟨{ State.reset.hostFault with env := { Env.reset with script := [.poll] } }, .poll, [], rfl, nofun⟩,
   ⟨{ State.reset.submit 0x36 with env := { Env.reset with script := [.poll], wait := 1 } }, .poll, [], rfl, nofun⟩,
   ⟨State.reset, rfl, rfl, rfl⟩, ⟨State.reset.hostFault, rfl, nofun⟩,
   ⟨State.reset, .writeOut 0 1 0, trivial⟩⟩

theorem witness_CmdWriteSubmits : ∃ s : State, s.status.busy = false := ⟨State.reset, rfl⟩

theorem witness_StatusHoldsWhileBusy :
    (∃ (i : Instr) (s t : State), exec i s = .next t ∧ t.pending = none ∧ s.pending ≠ none) ∧
    (∃ s t : State, Inv s ∧ step s = .next t ∧ t.status.busy = true) := by
  refine ⟨⟨.pngCount, State.reset.submit 0x36, _, rfl, rfl, nofun⟩,
    ⟨{ State.reset with env := { Env.reset with script := [.access (.writeReg 0 4 0x36)] } }, _, ?_, rfl, rfl⟩⟩
  exact ⟨rfl, rfl, nofun, rfl, nofun, rfl, by simp [State.reset, State.resetWith], by simp [State.reset, State.resetWith],
    nofun, nofun, nofun, by decide, by decide, fun _ => ⟨rfl, rfl, rfl, rfl, rfl, rfl, rfl⟩, nofun, fun _ => ⟨rfl, rfl⟩,
    fun _ => rfl⟩

theorem witness_EmptyOperandRegisterIsRefused :
    ∃ s : State, s.status.trValid = false ∧ s.status.crValid = false := ⟨State.reset, rfl, rfl⟩

/-- One byte too long. -/
theorem witness_InputBeyondCapacityIsRefused :
    ∃ s : State, s.cfg.inCap < s.inLen.toNat ∧ s.status.trValid = true :=
  ⟨withTr typeRuSt { State.reset with inLen := 4097 }, by decide, rfl⟩

/-- The last byte of the 4, of the payload and of the 8. -/
theorem witness_UnwrittenInputByteIsModelFault :
    (∃ s : State, s.inLen.toNat ≤ s.cfg.inCap ∧ s.inBuf.read? 3 = none ∧ s.inLen.toNat = 4 ∧ s.status.trValid = true) ∧
    (∃ s : State, s.inLen.toNat ≤ s.cfg.inCap ∧ s.inBuf.read? 3 = none ∧ 4 ≤ s.inLen.toNat) ∧
    (∃ s : State, s.inLen.toNat ≤ s.cfg.inCap ∧ s.inBuf.read? 7 = none ∧ 8 ≤ s.inLen.toNat) :=
  ⟨⟨{ withIn [0x52, 0x75, 0x53] (withTr typeRuSt .reset) with inLen := 4 }, by decide, rfl, rfl, rfl⟩,
   ⟨{ withIn [0, 0, 0] State.reset with inLen := 12 }, by decide, rfl, by decide⟩,
   ⟨{ withIn (sig.take 7) State.reset with inLen := 8 }, by decide, by decide, by decide⟩⟩

/-- The ends of the two letter ranges. -/
theorem witness_CharacterClasses :
    alphabetic 0x41 = true ∧ alphabetic 0x5A = true ∧ alphabetic 0x61 = true ∧ alphabetic 0x7A = true ∧
    alphabetic 0x40 = false ∧ alphabetic 0x5B = false ∧ alphabetic 0x60 = false ∧ alphabetic 0x7B = false := by decide

/-- "AAZz" (V12), and a bad byte at each of the 4 places. -/
theorem witness_TcFromBytesResult :
    (∀ b ∈ (bytesBe32 0x41415A7A).toList, alphabetic b = true) ∧
    (∀ p ∈ [(0x31755374#32, 0), (0x52315374#32, 1), (0x52753174#32, 2), (0x52755331#32, 3)],
      (bytesBe32 p.1).toList[p.2]? = some 0x31 ∧ alphabetic 0x31 = false ∧
      ∀ c ∈ (bytesBe32 p.1).toList.take p.2, alphabetic c = true) := by decide

theorem witness_TcFromStringResult :
    (∃ s : State, s.cfg.inCap < s.inLen.toNat) ∧
    (∃ s : State, s.inLen.toNat ≤ s.cfg.inCap ∧ s.inLen.toNat ≠ 4) ∧
    (∃ (s : State) (t : TypeCode), InputIs s t.toList ∧ ∀ b ∈ t.toList, alphabetic b = true) ∧
    (∃ (s : State) (t : TypeCode), InputIs s t.toList ∧ t.toList[3]? = some 0x00 ∧ alphabetic 0x00 = false ∧
      ∀ c ∈ t.toList.take 3, alphabetic c = true) ∧
    (∃ s : State, s.inLen.toNat = 4 ∧ s.inLen.toNat ≤ s.cfg.inCap ∧ s.inBuf.read? 3 = none) :=
  ⟨⟨{ State.reset with inLen := 4097 }, by decide⟩, ⟨State.reset, by decide, by decide⟩,
   ⟨withIn typeRuSt.toList .reset, typeRuSt, inputIs_withIn (by decide) (by decide), by decide⟩,
   ⟨withIn [0x52, 0x75, 0x53, 0x00] .reset, ⟨0x52, 0x75, 0x53, 0x00⟩, inputIs_withIn (by decide) (by decide), rfl,
    by decide, by decide⟩,
   ⟨{ withIn [0x52, 0x75, 0x53] State.reset with inLen := 4 }, rfl, by decide, rfl⟩⟩

theorem witness_TypePredicates :
    (∃ s : State, s.status.trValid = true ∧ ∀ b ∈ s.tr.toList, alphabetic b = true) ∧
    (∃ s : State, s.status.trValid = false) :=
  ⟨⟨withTr typeRuSt .reset, rfl, by decide⟩, ⟨State.reset, rfl⟩⟩

theorem witness_TypeAccessors :
    (∃ s : State, s.status.trValid = true ∧ ∀ b ∈ s.tr.toList, alphabetic b = true) ∧
    (∃ s : State, s.status.trValid = true ∧ ∃ b ∈ s.tr.toList, alphabetic b = false) ∧
    (∃ s : State, s.status.trValid = false) :=
  ⟨⟨withTr typeRuSt .reset, rfl, by decide⟩, ⟨withTr ⟨0x52, 0x75, 0x53, 0x31⟩ .reset, rfl, by decide⟩,
   ⟨State.reset, rfl⟩⟩

theorem witness_TypeCodeSurvivesTheRegister :
    ∃ s t : State, exec .tcFromBytes s = .next t ∧ t.status.err = false :=
  ⟨withArg 0x52755374 .reset, _, rfl, rfl⟩

theorem witness_RecordLayout : ∃ c : Chunk, c.payload.length < 2 ^ 32 ∧ 4 < c.payload.length :=
  ⟨⟨typeRuSt, hello⟩, by decide, by decide⟩

theorem witness_OneChangedByteChangesTheCrc : ∃ a b : Byte, a ≠ b := ⟨0, 1, by decide⟩

/-- A form of each length, at the ends of its ranges. -/
theorem witness_Utf8ValidPrefix :
    Utf8Form [0x7F] ∧ Utf8Form [0xC2, 0x80] ∧ Utf8Form [0xE0, 0xA0, 0x80] ∧ Utf8Form [0xED, 0x9F, 0xBF] ∧
    Utf8Form [0xF0, 0x90, 0x80, 0x80] ∧ Utf8Form [0xF4, 0x8F, 0xBF, 0xBF] := by
  refine ⟨.inl ⟨_, rfl, by decide, by decide⟩, .inr (.inl ⟨_, _, rfl, by decide, by decide⟩),
    .inr (.inr (.inl ⟨_, _, _, rfl, by decide, .inl (by decide)⟩)),
    .inr (.inr (.inl ⟨_, _, _, rfl, by decide, .inr (.inr (.inl (by decide)))⟩)),
    .inr (.inr (.inr ⟨_, _, _, _, rfl, by decide, by decide, .inl (by decide)⟩)),
    .inr (.inr (.inr ⟨_, _, _, _, rfl, by decide, by decide, .inr (.inr (by decide))⟩))⟩

/-- A record one byte short, and each failing field of a whole record, and the record of ("RuSt", "hello"); then that
record with everything unwritten, from its type, its payload and its crc on. -/
theorem witness_ChunkParseByCases :
    (∃ (s : State) (len : Word) (n : Nat), 4 ≤ n ∧ InHolds s 0 (bytesBe32 len).toList ∧ n - 4 + 1 = len.toNat + 8) ∧
    (∃ (s : State) (t : Bytes4), InHolds s 0 (bytesBe32 0).toList ∧ InHolds s 4 t.toList ∧ t.toList[2]? = some 0x31 ∧
      alphabetic 0x31 = false ∧ ∀ c ∈ t.toList.take 2, alphabetic c = true) ∧
    (∃ (s : State) (t : Bytes4), InHolds s 0 (bytesBe32 0).toList ∧ InHolds s 4 t.toList ∧
      (∀ b ∈ t.toList, alphabetic b = true) ∧ upper t.b2 = false) ∧
    (∃ (s : State) (t : Bytes4) (p : List Byte), InHolds s 0 (bytesBe32 5).toList ∧ InHolds s 4 t.toList ∧
      (∀ b ∈ t.toList, alphabetic b = true) ∧ upper t.b2 = true ∧ p.length = 5 ∧ InHolds s 8 p ∧
      InHolds s 13 (bytesBe32 0x2CA10FCC).toList ∧ crc32 (t.toList ++ p) = 0x2CA10FCC ∧
      crc32 (t.toList ++ p) ≠ 0x2CA10FCD) ∧
    (∃ s : State, s.inBuf.read? 3 = none) ∧
    (∃ s : State, InHolds s 0 (bytesBe32 5).toList ∧ s.inBuf.read? (4 + 3) = none) ∧
    (∃ (s : State) (t : Bytes4), InHolds s 0 (bytesBe32 5).toList ∧ InHolds s 4 t.toList ∧
      (∀ b ∈ t.toList, alphabetic b = true) ∧ upper t.b2 = true ∧ s.inBuf.read? (8 + 4) = none) ∧
    (∃ (s : State) (t : Bytes4) (p : List Byte), InHolds s 0 (bytesBe32 5).toList ∧ InHolds s 4 t.toList ∧
      (∀ b ∈ t.toList, alphabetic b = true) ∧ upper t.b2 = true ∧ p.length = 5 ∧ InHolds s 8 p ∧
      s.inBuf.read? (8 + 5 + 3) = none) :=
  ⟨⟨withIn (recordHello.take 16) .reset, 5, 16, by decide,
    inHolds_withIn [] [0, 0, 0, 5] ((recordHello.take 16).drop 4) State.reset, by decide⟩,
   ⟨withIn [0, 0, 0, 0, 0x52, 0x75, 0x31, 0x74, 0, 0, 0, 0] .reset, ⟨0x52, 0x75, 0x31, 0x74⟩,
    inHolds_withIn [] [0, 0, 0, 0] [0x52, 0x75, 0x31, 0x74, 0, 0, 0, 0] State.reset,
    inHolds_withIn [0, 0, 0, 0] [0x52, 0x75, 0x31, 0x74] [0, 0, 0, 0] State.reset, rfl, by decide, by decide⟩,
   ⟨withIn [0, 0, 0, 0, 0x52, 0x75, 0x73, 0x74, 0, 0, 0, 0] .reset, typeRust,
    inHolds_withIn [] [0, 0, 0, 0] [0x52, 0x75, 0x73, 0x74, 0, 0, 0, 0] State.reset,
    inHolds_withIn [0, 0, 0, 0] [0x52, 0x75, 0x73, 0x74] [0, 0, 0, 0] State.reset, by decide, by decide⟩,
   ⟨withIn recordHello .reset, typeRuSt, hello, inHolds_withIn [] (recordHello.take 4) (recordHello.drop 4) State.reset,
    inHolds_withIn (recordHello.take 4) typeRuSt.toList (recordHello.drop 8) State.reset, by decide, by decide, rfl,
    inHolds_withIn (recordHello.take 8) hello (recordHello.drop 13) State.reset,
    inHolds_withIn (recordHello.take 13) [0x2C, 0xA1, 0x0F, 0xCC] [] State.reset, by decide +kernel, by decide +kernel⟩,
   ⟨State.reset, rfl⟩,
   ⟨withIn (recordHello.take 4) .reset, inHolds_withIn [] (recordHello.take 4) [] State.reset, rfl⟩,
   ⟨withIn (recordHello.take 8) .reset, typeRuSt,
    inHolds_withIn [] (recordHello.take 4) typeRuSt.toList State.reset,
    inHolds_withIn (recordHello.take 4) typeRuSt.toList [] State.reset, by decide, by decide, rfl⟩,
   ⟨withIn (recordHello.take 13) .reset, typeRuSt, hello,
    inHolds_withIn [] (recordHello.take 4) (typeRuSt.toList ++ hello) State.reset,
    inHolds_withIn (recordHello.take 4) typeRuSt.toList hello State.reset, by decide, by decide, rfl,
    inHolds_withIn (recordHello.take 8) hello [] State.reset, rfl⟩⟩

/-- A wrong signature; the stream of one chunk, alone, with 1 and with 11 bytes after it, and with 12 that fail; a stream
with nothing written after it; and an unwritten signature. -/
theorem witness_ContainerParseByCases :
    (∃ (s : State) (bs : List Byte), bs.length = 8 ∧ InHolds s 0 bs ∧
      bs ≠ [0x89, 0x50, 0x4E, 0x47, 0x0D, 0x0A, 0x1A, 0x0A]) ∧
    (∃ (s : State) (l : List Chunk), (∀ c ∈ l, isValid c.type = true ∧ c.payload.length < 2 ^ 32) ∧
      InHolds s 0 (stream l) ∧ (stream l).length < (stream l).length + 1 ∧
      (stream l).length + 11 - (stream l).length < 12 ∧
      ∃ e, chunkParse s.inBuf (stream l).length 12 = raise e) ∧
    (∃ (s : State) (l : List Chunk) (f : ModelFault), l = [] ∧ InHolds s 0 (stream l) ∧
      chunkParse s.inBuf (stream l).length 12 = .error (.fault f)) ∧
    (∃ s : State, s.inBuf.read? 7 = none) := by
  refine ⟨⟨withIn (sig.take 7 ++ [0x0B]) .reset, sig.take 7 ++ [0x0B], rfl,
      inHolds_withIn [] (sig.take 7 ++ [0x0B]) [] State.reset, by decide⟩,
    ⟨withIn (stream [⟨typeTest, []⟩] ++ List.replicate 12 0) .reset, [⟨typeTest, []⟩], by decide,
      inHolds_withIn [] (stream [⟨typeTest, []⟩]) (List.replicate 12 0) State.reset, by omega, by omega, ?_⟩,
    ⟨withIn sig .reset, [], .uninitInput, rfl, inHolds_withIn [] sig [] State.reset, rfl⟩, ⟨State.reset, rfl⟩⟩
  have h := inHolds_withIn (stream [⟨typeTest, []⟩]) (List.replicate 4 0) (List.replicate 8 0) State.reset
  have h' := inHolds_withIn (stream [⟨typeTest, []⟩] ++ List.replicate 4 0) (List.replicate 4 0) (List.replicate 4 0)
    State.reset
  rw [List.append_assoc] at h h'
  rw [List.append_assoc, List.length_append] at h'
  refine ⟨{ kind := .invalidTypeBytes, a := be32 ⟨0, 0, 0, 0⟩, b := word 0 }, ?_⟩
  have hs : (withIn (stream [⟨typeTest, []⟩] ++ List.replicate 12 0) State.reset).inBuf.Holds
      (stream [⟨typeTest, []⟩]).length (bytesBe32 0).toList := h
  have ht : (withIn (stream [⟨typeTest, []⟩] ++ List.replicate 12 0) State.reset).inBuf.Holds
      ((stream [⟨typeTest, []⟩]).length + 4) [0, 0, 0, 0] := h'
  rw [chunkParse_of_length (n := 12) (len := 0) (by decide) hs (by decide), memRead4_of_holds (t := ⟨0, 0, 0, 0⟩) ht]
  rfl

theorem witness_ChNewResult :
    (∃ s : State, s.status.trValid = false) ∧ (∃ s : State, s.status.trValid = true ∧ s.cfg.inCap < s.inLen.toNat) ∧
    (∃ (s : State) (p : List Byte), s.status.trValid = true ∧ InputIs s p ∧ p = hello) ∧
    (∃ (s : State) (p : List Byte), s.status.trValid = true ∧ InputIs s p ∧ p = []) ∧
    (∃ s : State, 4 < s.inLen.toNat ∧ s.status.trValid = true ∧ s.inLen.toNat ≤ s.cfg.inCap ∧ s.inBuf.read? 4 = none) :=
  ⟨⟨State.reset, rfl⟩, ⟨withTr typeRuSt { State.reset with inLen := 4097 }, rfl, by decide⟩,
   ⟨withIn hello (withTr typeRuSt .reset), hello, rfl, inputIs_withIn (by decide) (by decide), rfl⟩,
   ⟨withIn [] (withTr typeRuSt .reset), [], rfl, inputIs_withIn (by decide) (by decide), rfl⟩,
   ⟨{ withTr typeRuSt .reset with inLen := 5 }, by decide, rfl, by decide, rfl⟩⟩

/-- The three ways that `chunk_parse` ends, on an input within IN_CAP. -/
theorem witness_ChParseResult :
    (∃ s : State, s.cfg.inCap < s.inLen.toNat) ∧
    (∃ (s : State) (c : Chunk) (used : Nat), s.inLen.toNat ≤ s.cfg.inCap ∧
      chunkParse s.inBuf 0 s.inLen.toNat = .ok (c, used)) ∧
    (∃ (s : State) (e : ErrorInfo), s.inLen.toNat ≤ s.cfg.inCap ∧ chunkParse s.inBuf 0 s.inLen.toNat = raise e) ∧
    (∃ (s : State) (f : ModelFault), s.inLen.toNat ≤ s.cfg.inCap ∧
      chunkParse s.inBuf 0 s.inLen.toNat = .error (.fault f)) :=
  ⟨⟨{ State.reset with inLen := 4097 }, by decide⟩,
   ⟨withIn (record ⟨typeRuSt, hello⟩) .reset, ⟨typeRuSt, hello⟩, 17, by decide +kernel,
    chunkParse_record (by decide) (by decide) (by decide +kernel) (inHolds_withIn [] (record ⟨typeRuSt, hello⟩) [] State.reset)⟩,
   ⟨State.reset, _, by decide, rfl⟩, ⟨{ State.reset with inLen := 4 }, _, by decide, rfl⟩⟩

theorem witness_ChParseAcceptsExactlyRecords :
    ∃ (s : State) (c : Chunk), NoFault s ∧ s.inLen.toNat ≤ s.cfg.inCap ∧ isValid c.type = true ∧
      c.payload.length < 2 ^ 32 ∧ 12 + c.payload.length ≤ s.inLen.toNat ∧ InHolds s 0 (record c) :=
  ⟨withIn (record ⟨typeRuSt, hello⟩) .reset, ⟨typeRuSt, hello⟩, rfl, by decide +kernel, by decide, by decide,
    by decide +kernel, inHolds_withIn [] (record ⟨typeRuSt, hello⟩) [] State.reset⟩

/-- OUT_CAP exactly the record's size, and one less. -/
theorem witness_ChSerializeResult :
    (∃ s : State, s.status.crValid = false) ∧
    (∃ s : State, s.status.crValid = true ∧ s.cfg.outCap < 2 ^ 32 ∧ 12 + s.cr.payload.length = s.cfg.outCap) ∧
    (∃ s : State, s.status.crValid = true ∧ s.cfg.outCap < 2 ^ 32 ∧ s.cfg.outCap + 1 = 12 + s.cr.payload.length) :=
  ⟨⟨State.reset, rfl⟩,
   ⟨withCr ⟨typeRuSt, hello⟩ { State.reset with cfg := { Config.default with outCap := 17 } }, rfl, by decide, rfl⟩,
   ⟨withCr ⟨typeRuSt, hello⟩ { State.reset with cfg := { Config.default with outCap := 16 } }, rfl, by decide, rfl⟩⟩

theorem witness_ChunkAccessors :
    (∃ s : State, s.status.crValid = true ∧ s.cr.payload.length < 2 ^ 32) ∧ (∃ s : State, s.status.crValid = false) :=
  ⟨⟨withCr ⟨typeRuSt, hello⟩ .reset, rfl, by decide⟩, ⟨State.reset, rfl⟩⟩

/-- Well-formed and not, at OUT_CAP and one beyond. -/
theorem witness_PayloadOutput :
    (∃ s : State, s.status.crValid = false) ∧
    (∃ s : State, s.status.crValid = true ∧ s.cfg.outCap < 2 ^ 32 ∧ s.cr.payload.length = s.cfg.outCap ∧
      WellFormedUtf8 s.cr.payload) ∧
    (∃ s : State, s.status.crValid = true ∧ s.cfg.outCap < 2 ^ 32 ∧ s.cr.payload.length = s.cfg.outCap + 1 ∧
      WellFormedUtf8 s.cr.payload) ∧
    (∃ s : State, s.status.crValid = true ∧ s.cfg.outCap < 2 ^ 32 ∧ ¬ WellFormedUtf8 s.cr.payload) := by
  have ascii : ∀ n, WellFormedUtf8 (List.replicate n 0x61) := fun n =>
    ⟨List.replicate n [0x61], fun f hf => by
      rw [(List.mem_replicate.1 hf).2]
      exact .inl ⟨_, rfl, by decide, by decide⟩, by simp⟩
  refine ⟨⟨State.reset, rfl⟩,
    ⟨withCr ⟨typeRuSt, List.replicate 12 0x61⟩ { State.reset with cfg := { Config.default with outCap := 12 } }, rfl,
      by decide, rfl, ascii 12⟩,
    ⟨withCr ⟨typeRuSt, List.replicate 13 0x61⟩ { State.reset with cfg := { Config.default with outCap := 12 } }, rfl,
      by decide, rfl, ascii 13⟩,
    ⟨withCr ⟨typeRuSt, [0xFF]⟩ .reset, rfl, by decide, ?_⟩⟩
  rintro ⟨fs, hfs, hf⟩
  have hf : fs.flatten = [0xFF] := hf
  match fs, hfs, hf with
  | [] :: _, hfs, _ =>
    have := hfs [] (by simp)
    simp [Utf8Form] at this
  | (a :: r) :: rest, hfs, hf =>
    have h := hfs (a :: r) (by simp)
    simp only [List.flatten_cons, List.cons_append, List.cons.injEq] at hf
    obtain ⟨rfl, -⟩ := hf
    simp [Utf8Form] at h

/-- The states of the round trip: the chunk ("RuSt", "hello") is built, serialized and copied. -/
theorem witness_ChunkRoundTrip :
    ∃ (s : State) (p : List Byte), s.status.trValid = true ∧ isValid s.tr = true ∧ InputIs s p ∧
      s.cfg.outCap < 2 ^ 32 ∧ 12 + p.length ≤ min s.cfg.inCap s.cfg.outCap ∧
      ∃ s₁ s₂ s₃, exec .chNew s = .next s₁ ∧ exec .chSerialize s₁ = .next s₂ ∧ CopiedOut s₂ s₃ := by
  refine ⟨withIn hello (withTr typeRuSt .reset), hello, rfl, by decide, inputIs_withIn (by decide) (by decide), by decide,
    by decide, _, _, _, rfl, rfl, copiedOut_outBuf (bs := record ⟨typeRuSt, hello⟩) ?_ fun i hi => ?_⟩
  · exact outIs_writeOut (by decide)
  · show (Memory.holding 0 hello).read? i = none
    rw [Memory.read?_holding_zero, List.getElem?_eq_none]
    simp only [record_length] at hi
    exact Nat.le_trans (by decide) hi

/-- V7: the record of ("RuSt", "hello") with its crc field changed. -/
theorem witness_TamperedCrcIsCaught :
    ∃ (s : State) (c : Chunk) (v : Word), isValid c.type = true ∧ c.payload.length < 2 ^ 32 ∧
      v ≠ crc32 (c.type.toList ++ c.payload) ∧
      InputIs s ((record c).take (8 + c.payload.length) ++ (bytesBe32 v).toList) :=
  ⟨withIn ((record ⟨typeRuSt, hello⟩).take 13 ++ (bytesBe32 0x2CA10FCD).toList) .reset, ⟨typeRuSt, hello⟩, 0x2CA10FCD,
    by decide, by decide, by decide +kernel, inputIs_withIn (by decide +kernel) (by decide +kernel)⟩

theorem witness_InvalidTypeIsCaughtOnlyByParsing :
    ∃ (s : State) (p : List Byte), s.status.trValid = true ∧ constructible s.tr = true ∧ isValid s.tr = false ∧
      InputIs s p ∧ s.cfg.outCap < 2 ^ 32 ∧ 12 + p.length ≤ min s.cfg.inCap s.cfg.outCap :=
  ⟨withIn hello (withTr typeRust .reset), hello, rfl, by decide, by decide, inputIs_withIn (by decide) (by decide),
    by decide, by decide⟩

theorem witness_ClearAndCount : ∃ s : State, s.cl.length < 2 ^ 32 := ⟨State.reset, by decide⟩

/-- The last index, and the first one beyond. -/
theorem witness_PngGetResult :
    (∃ (s : State) (c : Chunk), s.cl[s.arg.toNat]? = some c ∧ s.arg.toNat + 1 = s.cl.length) ∧
    (∃ s : State, s.cl.length = s.arg.toNat) :=
  ⟨⟨withArg 2 (withCl threeChunks .reset), ⟨typeRuSt, [0x62]⟩, rfl, rfl⟩, ⟨withArg 3 (withCl threeChunks .reset), rfl⟩⟩

/-- Each clause at its boundary. -/
theorem witness_PngAppendResult :
    (∃ s : State, s.cfg.wf = true ∧ s.status.crValid = false) ∧
    (∃ s : State, s.cfg.wf = true ∧ s.status.crValid = true ∧ s.cfg.maxChunks = s.cl.length) ∧
    (∃ s : State, s.cfg.wf = true ∧ s.status.crValid = true ∧ s.cl.length + 1 = s.cfg.maxChunks ∧
      s.cfg.storeCap + 1 = storeBytes s.cl + s.cr.payload.length) ∧
    (∃ s : State, s.cfg.wf = true ∧ s.status.crValid = true ∧ s.cl.length + 1 = s.cfg.maxChunks ∧
      storeBytes s.cl + s.cr.payload.length = s.cfg.storeCap) :=
  ⟨⟨State.reset, by decide, rfl⟩,
   ⟨withCl threeChunks (withCr ⟨typeRuSt, hello⟩ { State.reset with cfg := { Config.default with maxChunks := 3 } }),
    by decide, rfl, rfl⟩,
   ⟨withCl threeChunks (withCr ⟨typeRuSt, hello⟩
      { State.reset with cfg := { Config.default with maxChunks := 4, storeCap := 6 } }), by decide, rfl, rfl, rfl⟩,
   ⟨withCl threeChunks (withCr ⟨typeRuSt, hello⟩
      { State.reset with cfg := { Config.default with maxChunks := 4, storeCap := 7 } }), by decide, rfl, rfl, rfl⟩⟩

/-- OUT_CAP exactly V21's 46 bytes, and one less. -/
theorem witness_PngSerializeResult :
    (∃ s : State, s.cfg.outCap < 2 ^ 32 ∧ (stream s.cl).length = s.cfg.outCap) ∧
    (∃ s : State, s.cfg.outCap < 2 ^ 32 ∧ s.cfg.outCap + 1 = (stream s.cl).length) :=
  ⟨⟨withCl threeChunks { State.reset with cfg := { Config.default with outCap := 46 } }, by decide,
    by rw [stream_length]; rfl⟩,
   ⟨withCl threeChunks { State.reset with cfg := { Config.default with outCap := 45 } }, by decide,
    by rw [stream_length]; rfl⟩⟩

/-- What `container_parse` accepts of a stream, for the witnesses. -/
theorem containerParse_withIn {l : List Chunk} {s : State} (hv : ∀ c ∈ l, isValid c.type = true)
    (hl : ∀ c ∈ l, c.payload.length < 2 ^ 32) (hn : (stream l).length < 2 ^ 32) :
    containerParse (withIn (stream l) s).inBuf (withIn (stream l) s).inLen.toNat = .ok l := by
  have hh := inHolds_withIn [] (stream l) [] s
  simp only [List.nil_append, List.append_nil, List.length_nil] at hh
  rw [show (withIn (stream l) s).inLen.toNat = (stream l).length from toNat_word hn,
    containerParse_stream l hv hl (Nat.le_refl _) hh]
  obtain ⟨n, hn⟩ : ∃ n, (stream l).length = n + 1 := ⟨(stream l).length - 1, by have := stream_length l; omega⟩
  rw [hn, containerLoop_succ, if_neg (Nat.lt_irrefl _)]

/-- The ways that PNG_PARSE ends; the two capacities each at its boundary. -/
theorem witness_PngParseResult :
    (∃ s : State, s.cfg.wf = true ∧ s.cfg.inCap < s.inLen.toNat) ∧
    (∃ (s : State) (e : ErrorInfo), s.cfg.wf = true ∧ s.inLen.toNat ≤ s.cfg.inCap ∧
      containerParse s.inBuf s.inLen.toNat = raise e) ∧
    (∃ (s : State) (f : ModelFault), s.cfg.wf = true ∧ s.inLen.toNat ≤ s.cfg.inCap ∧
      containerParse s.inBuf s.inLen.toNat = .error (.fault f)) ∧
    (∀ p ∈ [(1, 2), (2, 1), (2, 2)], ∃ (s : State) (l : List Chunk), s.cfg.wf = true ∧ s.inLen.toNat ≤ s.cfg.inCap ∧
      containerParse s.inBuf s.inLen.toNat = .ok l ∧ l.length = 2 ∧ storeBytes l = 2 ∧ s.cfg.maxChunks = p.1 ∧
      s.cfg.storeCap = p.2) := by
  refine ⟨⟨{ State.reset with inLen := 4097 }, by decide, by decide⟩, ⟨State.reset, _, by decide, by decide, rfl⟩,
    ⟨{ State.reset with inLen := 8 }, _, by decide, by decide, rfl⟩, fun p hp => ?_⟩
  refine ⟨withIn (stream (threeChunks.drop 1))
      { State.reset with cfg := { Config.default with maxChunks := p.1, storeCap := p.2 } },
    threeChunks.drop 1, ?_, ?_, containerParse_withIn (by decide) (by decide) ?_, rfl, rfl, rfl, rfl⟩
  · revert hp p
    decide
  · show (word (stream (threeChunks.drop 1)).length).toNat ≤ 4096
    rw [stream_length]
    decide
  · rw [stream_length]
    decide

theorem witness_PngParseAcceptsExactlyStreams :
    ∃ (s : State) (l : List Chunk), NoFault s ∧ s.cfg.wf = true ∧ (∀ c ∈ l, isValid c.type = true) ∧
      InputIs s (stream l) ∧ l.length ≤ s.cfg.maxChunks ∧ storeBytes l ≤ s.cfg.storeCap :=
  ⟨withIn (stream threeChunks) .reset, threeChunks, rfl, by decide, by decide,
    inputIs_withIn (by rw [stream_length]; decide) (by rw [stream_length]; decide), by decide, by decide⟩

/-- The clauses of both lookups: a query of 3 bytes, one that matches nothing, one that matches, one with an unwritten
byte. -/
theorem witness_PngChunkByTypeResult :
    (∃ s : State, s.cfg.inCap < s.inLen.toNat) ∧
    (∃ s : State, s.inLen.toNat ≤ s.cfg.inCap ∧ s.inLen.toNat = 3) ∧
    (∃ (s : State) (q : TypeCode), InputIs s q.toList ∧ ∀ c ∈ s.cl, c.type ≠ q) ∧
    (∃ (s : State) (q : TypeCode) (before after : List Chunk) (c : Chunk), InputIs s q.toList ∧
      s.cl = before ++ c :: after ∧ (∀ d ∈ before, d.type ≠ q) ∧ c.type = q ∧ before.length < 2 ^ 32 ∧
      s.cl.length < 2 ^ 32) ∧
    (∃ s : State, s.inLen.toNat = 4 ∧ s.inLen.toNat ≤ s.cfg.inCap ∧ s.inBuf.read? 3 = none) :=
  ⟨⟨{ State.reset with inLen := 4097 }, by decide⟩, ⟨{ State.reset with inLen := 3 }, by decide, rfl⟩,
   ⟨withIn typeRust.toList (withCl threeChunks .reset), typeRust, inputIs_withIn (by decide) (by decide), by decide⟩,
   ⟨withIn typeRuSt.toList (withCl threeChunks .reset), typeRuSt, [⟨typeTest, []⟩], [⟨typeRuSt, [0x62]⟩],
    ⟨typeRuSt, [0x61]⟩, inputIs_withIn (by decide) (by decide), rfl, by decide, rfl, by decide, by decide⟩,
   ⟨{ withIn [0x52, 0x75, 0x53] State.reset with inLen := 4 }, rfl, by decide, rfl⟩⟩

/-- The same states as for PNG_CHUNK_BY_TYPE. -/
theorem witness_PngRemoveResult :
    ∃ (s : State) (q : TypeCode) (before after : List Chunk) (c : Chunk), InputIs s q.toList ∧
      s.cl = before ++ c :: after ∧ (∀ d ∈ before, d.type ≠ q) ∧ c.type = q ∧ s.cl.length < 2 ^ 32 := by
  obtain ⟨-, -, -, ⟨s, q, before, after, c, h1, h2, h3, h4, -, h5⟩, -⟩ := witness_PngChunkByTypeResult
  exact ⟨s, q, before, after, c, h1, h2, h3, h4, h5⟩

/-- Both directions: a container of one chunk and its serialized copy; and a parse of its stream. -/
theorem witness_ContainerRoundTrip :
    (∃ s : State, s.cfg.wf = true ∧ (∀ c ∈ s.cl, isValid c.type = true) ∧ s.cl.length ≤ s.cfg.maxChunks ∧
      storeBytes s.cl ≤ s.cfg.storeCap ∧
      8 + (s.cl.map fun c => 12 + c.payload.length).sum ≤ min s.cfg.outCap s.cfg.inCap ∧
      ∃ s₁ s₂, exec .pngSerialize s = .next s₁ ∧ CopiedOut s₁ s₂) ∧
    (∃ (s t : State) (input : List Byte), s.cfg.wf = true ∧ InputIs s input ∧ input.length ≤ s.cfg.outCap ∧
      exec .pngParse s = .next t ∧ t.status.err = false ∧ t.pending = none ∧ s.pending ≠ none) := by
  constructor
  · refine ⟨withCl threeChunks .reset, by decide, by decide, by decide, by decide, by decide, _, _, rfl,
      copiedOut_outBuf (bs := stream threeChunks) ?_ fun _ _ => rfl⟩
    exact outIs_writeOut (by rw [stream_length]; decide)
  · have hp := containerParse_withIn (l := threeChunks) (s := State.reset.submit 0x31) (by decide) (by decide)
      (by rw [stream_length]; decide)
    have hi : InputIs (withIn (stream threeChunks) (State.reset.submit 0x31)) (stream threeChunks) :=
      inputIs_withIn (by rw [stream_length]; decide) (by rw [stream_length]; decide)
    have hl := inputLength_of_le (s := withIn (stream threeChunks) (State.reset.submit 0x31)) (by
      rw [hi.1]
      exact hi.2.1)
    refine ⟨withIn (stream threeChunks) (State.reset.submit 0x31),
      (((withIn (stream threeChunks) (State.reset.submit 0x31)).writeCl threeChunks).writeResult 3).completeOk,
      stream threeChunks, by decide, hi, by rw [stream_length]; decide, ?_, rfl, rfl, nofun⟩
    simp only [exec, execPngParse, hl, cmd_bind_ok, hp]
    rfl

/-- The state after PNG_APPEND of ("RuSt", "hello") to a list of which it fits. -/
def appended (l : List Chunk) : State :=
  (((withCl l (withCr ⟨typeRuSt, hello⟩ .reset)).writeCl (l ++ [⟨typeRuSt, hello⟩])).writeResult
    (word (l.length + 1))).completeOk

/-- With no earlier entry of the type, and with one. -/
theorem witness_AppendThenLookUp :
    (∃ s t u : State, s.cfg.wf = true ∧ exec .pngAppend s = .next t ∧ t.status.err = false ∧
      u = { t with inBuf := u.inBuf, inLen := u.inLen, env := u.env } ∧ InputIs u s.cr.type.toList ∧
      ∀ c ∈ s.cl, c.type ≠ s.cr.type) ∧
    (∃ (s t u : State) (before after : List Chunk) (c : Chunk), s.cfg.wf = true ∧ exec .pngAppend s = .next t ∧
      t.status.err = false ∧ u = { t with inBuf := u.inBuf, inLen := u.inLen, env := u.env } ∧
      InputIs u s.cr.type.toList ∧ s.cl = before ++ c :: after ∧ (∀ d ∈ before, d.type ≠ s.cr.type) ∧
      c.type = s.cr.type) :=
  ⟨⟨withCr ⟨typeRuSt, hello⟩ .reset, _, withIn typeRuSt.toList (appended []), by decide, rfl, rfl, rfl,
    inputIs_withIn (by decide) (by decide), by decide⟩,
   ⟨withCl threeChunks (withCr ⟨typeRuSt, hello⟩ .reset), _, withIn typeRuSt.toList (appended threeChunks),
    [⟨typeTest, []⟩], [⟨typeRuSt, [0x62]⟩], ⟨typeRuSt, [0x61]⟩, by decide, rfl, rfl, rfl,
    inputIs_withIn (by decide) (by decide), rfl, by decide, rfl⟩⟩

theorem witness_ParsedChunksAreValid :
    ∃ s t : State, s.pending ≠ none ∧ t.pending = none ∧ t.status.err = false ∧ exec .pngParse s = .next t := by
  obtain ⟨-, s, t, -, -, -, -, h, h', hp, hs⟩ := witness_ContainerRoundTrip
  exact ⟨s, t, hs, hp, h', h⟩

/-- A host script of one reset: idle, with a command pending and not due, and with a model fault. -/
theorem witness_ResetInputDiscardsEverything :
    (∃ s : State, s.env.script = [.reset] ∧ s.pending = none) ∧
    (∃ s : State, s.env.script = [.reset] ∧ s.pending ≠ none ∧ s.env.wait ≠ 0) ∧
    (∃ s : State, s.env.script = [.reset] ∧ s.pending ≠ none ∧ ¬ NoFault s) :=
  ⟨⟨{ State.reset with env := { Env.reset with script := [.reset] } }, rfl, rfl⟩,
   ⟨{ State.reset.submit 0x36 with env := { Env.reset with script := [.reset], wait := 1 } }, rfl, nofun, nofun⟩,
   ⟨{ (State.reset.submit 0x36).hostFault with env := { Env.reset with script := [.reset] } }, rfl, nofun, nofun⟩⟩

/-- Offsets of each kind: in the map and writable, in the map and read-only, reserved, misaligned; and a wrong size. -/
theorem witness_RegisterMap :
    State.reset.status.busy = false ∧ (State.reset.submit 0x36).status.busy = true ∧ 0x014 ∈ writableOffsets ∧ 0x050 ∈ mapOffsets ∧ 0x050 ∉ writableOffsets ∧
    0x038 ∉ mapOffsets ∧ 0x054 ∉ mapOffsets ∧ 0x001 ∉ mapOffsets ∧ (1 ≠ 4) := by decide

/-- The first index that is out of range, and the last that is in range. -/
theorem witness_HostFaultExactlyOnViolation :
    State.reset.fault.hostFault = false ∧ Violates State.reset (.readIn 4096 1) ∧ ¬ Violates State.reset (.readIn 4095 1) ∧
    Violates State.reset (.writeReg 0x008 4 0) ∧ ¬ Violates State.reset (.writeReg 0x004 4 0) ∧
    Violates (State.reset.submit 0) (.writeReg 0x004 4 0) := by
  simp [Violates, writableOffsets, State.reset, State.resetWith, Config.default, Status.reset, State.submit]

theorem witness_OnlyCmdWriteHasSideEffects :
    (∃ (s : State) (a b : HostAccess), ¬ Violates s a ∧ ¬ Violates s b ∧ isRead a = true ∧ isRead b = true ∧
      s.status.busy = false) ∧
    (∃ (s : State) (a : HostAccess), ¬ Violates s a ∧ isRead a = false ∧ isSubmission a = false) := by
  refine ⟨⟨State.reset, .readIn 0 1, .readOut 0 1, ?_, ?_, rfl, rfl, rfl⟩, ⟨State.reset, .writeIn 0 1 0, ?_, rfl, rfl⟩⟩ <;>
    simp [Violates, State.reset, State.resetWith, Config.default, Status.reset]

/-- The reset state has the invariant. -/
theorem inv_reset : Inv State.reset :=
  ⟨rfl, rfl, nofun, rfl, nofun, rfl, by simp [State.reset, State.resetWith], by simp [State.reset, State.resetWith], nofun,
    nofun, nofun, by decide, by decide, fun _ => ⟨rfl, rfl, rfl, rfl, rfl, rfl, rfl⟩, nofun, fun _ => ⟨rfl, rfl⟩,
    fun _ => rfl⟩

theorem witness_ViewsReadTheirNumbers : ∃ s : State, Inv s ∧ s.status.busy = false := ⟨State.reset, inv_reset, rfl⟩

/-- The last index of each buffer; OUT's last byte below OUT_LEN. -/
theorem witness_BufferPorts :
    (∃ s : State, 4095 < s.cfg.inCap ∧ s.status.busy = false) ∧
    (∃ (s : State) (b : Byte), 4 < s.cfg.inCap ∧ s.inBuf.read? 4 = some b) ∧
    (∃ (s : State) (b : Byte), 4 < s.cfg.outCap ∧ s.status.busy = false ∧ 4 < s.outLen.toNat ∧
      s.outBuf.read? 4 = some b) ∧
    (∃ s : State, s.cfg.inCap ≤ 4096 ∧ s.cfg.outCap ≤ 4096) :=
  ⟨⟨State.reset, by decide, rfl⟩, ⟨withIn hello .reset, 0x6F, by decide, rfl⟩,
   ⟨State.reset.writeOut hello, 0x6F, by decide, rfl, by decide, rfl⟩, ⟨State.reset, by decide, by decide⟩⟩

theorem witness_CopyOutLineCopiesTheOutput :
    ∃ s : State, Inv s ∧ NoFault s ∧ s.pending = none ∧ s.outLen.toNat ≤ s.cfg.inCap ∧
      s.env.script = expandLine .copyOut ∧ s.outLen = 5 := by
  refine ⟨{ State.reset.writeOut hello with env := { Env.reset with script := expandLine .copyOut } }, ?_, rfl, rfl,
    by decide, rfl, rfl⟩
  refine ⟨rfl, rfl, nofun, rfl, nofun, rfl, fun i => ?_, by decide, nofun, nofun, nofun, by decide, by decide,
    fun _ => ⟨rfl, rfl, rfl, rfl, rfl, rfl, rfl⟩, nofun, fun _ => ⟨rfl, rfl⟩, fun _ => rfl⟩
  show ((Memory.holding 0 hello).read? i).isSome = decide (i < 5)
  rw [Memory.read?_holding_zero]
  rw [Bool.eq_iff_iff, Option.isSome_iff_exists]
  simp [hello, List.getElem?_eq_some_iff]

theorem witness_InvariantHoldsAtReset : ∃ cfg : Config, cfg.wf = true := ⟨Config.default, by decide⟩

theorem witness_EveryStepKeepsTheInvariant : ∃ s t : State, Inv s ∧ step s = .next t := ⟨State.reset, _, inv_reset, rfl⟩

theorem witness_DoneIsClearedOnlyByReset :
    (∃ (i : Instr) (s t : State), exec i s = .next t ∧ s.pending ≠ none ∧ t.pending = none) ∧
    (∃ s t : State, step s = .next t ∧ s.status.done = true ∧ s.env.script.head? ≠ some .reset) :=
  ⟨⟨.pngCount, State.reset.submit 0x36, _, rfl, nofun, rfl⟩, ⟨after 0x36 .reset, _, rfl, rfl, nofun⟩⟩

theorem witness_FaultIsRemovedOnlyByReset :
    ∃ (s t : State) (f : ModelFault), step s = .next t ∧ s.fault.has f = true ∧ s.env.script.head? ≠ some .reset :=
  ⟨{ State.reset.hostFault with env := { Env.reset with script := [.poll] } }, _, .hostFault, rfl, rfl, nofun⟩

/-- A faulted machine with a word pending, whose host goes on reading. -/
theorem witness_FaultedMachineCompletesNothing :
    ∃ (s t : State) (w : Word), step s = .next t ∧ ¬ NoFault s ∧ s.env.script.head? ≠ some .reset ∧
      s.pending = some w ∧ s.status.busy = true :=
  ⟨{ (State.reset.submit 0x36).hostFault with env := { Env.reset with script := [.poll] } }, _, 0x36, rfl, nofun, nofun,
   rfl, rfl⟩

/-- Two states that agree on TR and differ in ARG and CL; and two inputs that differ only at IN_LEN. -/
theorem witness_CommandsReadOnlyTheirOperands :
    (∃ (i : Instr) (s s' t t' : State), NoFault s ∧ NoFault s' ∧ s'.cfg = s.cfg ∧ (∀ x ∈ readsOf i, SameSource x s s') ∧
      exec i s = .next t ∧ exec i s' = .next t' ∧ NoFault t ∧ s.arg ≠ s'.arg ∧ s.cl ≠ s'.cl) ∧
    (∃ (s s' t t' : State), NoFault s ∧ NoFault s' ∧ s'.cfg = s.cfg ∧ SameSource .input s s' ∧
      exec .tcFromString s = .next t ∧ exec .tcFromString s' = .next t' ∧ NoFault t ∧
      s.inBuf.read? s.inLen.toNat ≠ s'.inBuf.read? s.inLen.toNat) :=
  ⟨⟨.tcBytes, withTr typeRuSt .reset, withArg 7 (withCl threeChunks (withTr typeRuSt .reset)), _, _, rfl, rfl, rfl,
    fun x hx => by
      obtain rfl : x = .tr := by simpa [readsOf] using hx
      exact ⟨rfl, rfl⟩,
    rfl, rfl, rfl, by decide, by decide⟩,
   ⟨withIn typeRuSt.toList .reset,
    { withIn typeRuSt.toList .reset with inBuf := Memory.holding 0 (typeRuSt.toList ++ [0x21]) }, _, _, rfl, rfl, rfl,
    ⟨rfl, by decide⟩, rfl, rfl, rfl, by decide⟩⟩

theorem witness_WaitingDoesNotChangeTheOutcome :
    ∃ (i : Instr) (s t t' : State) (a : HostAccess), isRead a = true ∧ ¬ Violates s a ∧ exec i s = .next t ∧
      exec i (access a s) = .next t' :=
  ⟨.pngCount, State.reset.submit 0x36, _, _, .readReg 0x008 4, rfl, by simp [Violates, mapOffsets], rfl, rfl⟩

end Sys2Proof.Tests
end

section
/-!
PROOFS. The statements of the family 00_scope: a step without the framer (R19, R262, R263), and the alphabetic bytes (R13).
-/
namespace Sys2Proof.Machine

/-- R19, R263, R293: the framer moves exactly when a word is pending, no model fault has been raised, and the time of the
command has passed or the host does nothing more (log 5). -/
theorem framerMoves_iff {s : State} :
    framerMoves s = true ↔ s.pending ≠ none ∧ NoFault s ∧ (s.env.wait = 0 ∨ s.env.script = []) := by
  simp [framerMoves, NoFault, FaultSet.isEmpty_iff, Option.isSome_iff_ne_none, and_assoc]

/-- A step in which the framer does not move is the host's turn. -/
theorem step_eq_hostStep {s : State}
    (h : s.pending = none ∨ ¬ NoFault s ∨ (s.env.wait ≠ 0 ∧ s.env.script ≠ [])) : step s = hostStep s := by
  have hstill : ¬ framerMoves s = true := by rw [framerMoves_iff]; tauto
  unfold step
  split
  · exact if_neg hstill
  · rfl

theorem hostStep_cons {s : State} {e : HostEvent} {rest : List HostEvent} (h : s.env.script = e :: rest) :
    hostStep s = .next (hostEvent e rest s) := by
  simp [hostStep, h]

/-- Log 9: a block with nothing to do answers the same state. -/
theorem hostStep_idle {s : State} (h : s.env.script = []) (hf : NoFault s) : hostStep s = .next s := by
  simp [hostStep, h, FaultSet.isEmpty_iff.2 hf]

/-- U16, log 7: a faulted machine stops once the host does nothing more. -/
theorem hostStep_stuck {s : State} (h : s.env.script = []) (hf : ¬ NoFault s) : hostStep s = .fault .modelFaulted := by
  simp [hostStep, h, mt FaultSet.isEmpty_iff.1 hf]

/-- R262, log 6: an access that breaks the protocol does nothing but raise HostFault. By `access_cases` a write that does
anything else is legal; a read is refused by its own bounds check. -/
theorem access_of_violates {s : State} {a : HostAccess} (h : Violates s a) : access a s = s.hostFault := by
  cases hr : isRead a with
  | false =>
    rcases access_cases a s with ⟨hread, -⟩ | ⟨-, hbusy, hlegal⟩ | ⟨-, hfault⟩
    · simp [hr] at hread
    · rcases hlegal with ⟨w, rfl, -⟩ | ⟨w, rfl, -⟩ | ⟨w, rfl, -⟩ | ⟨i, b, hi, rfl, -⟩
      · simp [Violates, writableOffsets, hbusy] at h
      · simp [Violates, writableOffsets, hbusy] at h
      · simp [Violates, writableOffsets, hbusy] at h
      · simp [Violates, hbusy, Nat.not_le.2 hi] at h
    · exact hfault
  | true =>
    cases a with
    | readReg offset size =>
      have hnone : accessedReg offset size = none := by
        rw [← Option.not_isSome_iff_eq_none, accessedReg_isSome]
        exact not_and_or.2 h
      simp [access, hostReadReg, hnone]
    | readIn index size =>
      exact if_neg (not_and_or.2 (h.imp_right Nat.not_lt.2))
    | readOut index size =>
      exact if_neg (not_and_or.2 (h.imp_right Nat.not_lt.2))
    | writeReg | writeIn | writeOut => cases hr

/-- Settles O5: where the framer does not move, a step is the host's turn (`step_eq_hostStep`), which is known in each of
its three cases. -/
theorem stepWithoutTheFramer : Obligations.StepWithoutTheFramer := by
  intro s
  refine ⟨fun e rest hs hstill => ?_, fun hs hp hf => ?_, fun hs hf => ?_, fun a => access_of_violates⟩
  · have hmore : s.env.script ≠ [] := by simp [hs]
    rw [step_eq_hostStep (hstill.imp_right (.imp_right fun hw => ⟨hw, hmore⟩)), hostStep_cons hs]
  · rw [step_eq_hostStep (.inl hp), hostStep_idle hs hf]
  · rw [step_eq_hostStep (.inr (.inl hf)), hostStep_stuck hs hf]

/-- R13: the two letter ranges. -/
theorem alphabetic_iff {b : Byte} :
    alphabetic b = true ↔ (0x41 ≤ b.toNat ∧ b.toNat ≤ 0x5A) ∨ (0x61 ≤ b.toNat ∧ b.toNat ≤ 0x7A) := by
  simp [alphabetic]

theorem upper_iff {b : Byte} : upper b = true ↔ b.getLsbD 5 = false := by simp [upper]

theorem lower_iff {b : Byte} : lower b = true ↔ b.getLsbD 5 = true := Iff.rfl

/-- Bit 5 of a byte, as arithmetic on its value. -/
theorem getLsbD_five_iff {b : Byte} : b.getLsbD 5 = true ↔ b.toNat / 32 % 2 = 1 := by
  simp [BitVec.getLsbD, Nat.testBit_eq_decide_div_mod_eq]

/-- R13: among the alphabetic bytes, bit 5 is set exactly in the range from 0x61 on. -/
theorem lower_iff_le_of_alphabetic {b : Byte} (h : alphabetic b = true) : lower b = true ↔ 0x61 ≤ b.toNat := by
  rw [lower_iff, getLsbD_five_iff]
  rcases alphabetic_iff.1 h with hupper | hlower <;> omega

/-- R13: among the alphabetic bytes, bit 5 is clear exactly in the range up to 0x5A. -/
theorem upper_iff_le_of_alphabetic {b : Byte} (h : alphabetic b = true) : upper b = true ↔ b.toNat ≤ 0x5A := by
  rw [upper_iff, ← Bool.not_eq_true, getLsbD_five_iff]
  rcases alphabetic_iff.1 h with hupper | hlower <;> omega

/-- Settles O12: the letter ranges, and bit 5 in each of them. -/
theorem characterClasses : Obligations.CharacterClasses := fun _ =>
  ⟨alphabetic_iff, fun h => ⟨upper_iff, lower_iff, upper_iff_le_of_alphabetic h, lower_iff_le_of_alphabetic h⟩⟩

end Sys2Proof.Machine
end

section
/-!
PROOFS. The statements of the family 10_state: the layout of STATUS and ERR_FLAGS (R23, R35), what the host reads and
submits in REG (R21, R32, R33, R37, R38), what a step does to STATUS and to FAULT (R24, R25, R52), the invariant of
reachable states (R43 to R47), and the chunks that a parse leaves (R46).
-/
namespace Sys2Proof.Machine

/-! ### The layout of STATUS and of ERR_FLAGS -/

/-- R23: the five flags. -/
theorem Status.getLsbD_toWord_flags (s : Status) :
    s.toWord.getLsbD 0 = s.busy ∧ s.toWord.getLsbD 1 = s.done ∧ s.toWord.getLsbD 2 = s.err ∧
    s.toWord.getLsbD 3 = s.trValid ∧ s.toWord.getLsbD 4 = s.crValid := by
  simp only [Status.toWord, BitVec.getLsbD_append]
  simp

/-- R23: above the flags, ECODE from bit 8 on and nothing else. -/
theorem Status.getLsbD_toWord_of_le (s : Status) {i : Nat} (h : 5 ≤ i) :
    s.toWord.getLsbD i = (decide (8 ≤ i) && s.ecode.getLsbD (i - 8)) := by
  obtain ⟨j, rfl⟩ := Nat.exists_eq_add_of_le' h
  simp only [Status.toWord, BitVec.getLsbD_append]
  by_cases hreserved : j < 3
  · simp [hreserved]
  · by_cases hcode : j - 3 < 8
    · simp [hreserved, hcode, Nat.not_lt.1 hreserved]
    · simp [hreserved, hcode, BitVec.getLsbD_of_ge s.ecode (j - 3) (Nat.not_lt.1 hcode)]

/-- R35: the two flags. -/
theorem ErrFlags.getLsbD_toWord_flags (f : ErrFlags) :
    f.toWord.getLsbD 0 = f.posValid ∧ f.toWord.getLsbD 1 = f.lenUnread := by
  simp only [ErrFlags.toWord, BitVec.getLsbD_append]
  simp

/-- R35: above the flags, CAP_KIND from bit 2 on and nothing else. -/
theorem ErrFlags.getLsbD_toWord_of_le (f : ErrFlags) {i : Nat} (h : 2 ≤ i) :
    f.toWord.getLsbD i = f.capKind.getLsbD (i - 2) := by
  obtain ⟨j, rfl⟩ := Nat.exists_eq_add_of_le' h
  simp only [ErrFlags.toWord, BitVec.getLsbD_append]
  by_cases hkind : j < 2
  · simp [hkind]
  · simp [hkind, BitVec.getLsbD_of_ge f.capKind j (Nat.not_lt.1 hkind)]

/-- Settles O50: the flags are bits of their own, and a field of several bits is read bit by bit. -/
theorem statusAndFlagsLayout : Obligations.StatusAndFlagsLayout := by
  refine ⟨fun s => ?_, fun f => ?_⟩
  · obtain ⟨hbusy, hdone, herr, htr, hcr⟩ := s.getLsbD_toWord_flags
    refine ⟨hbusy, hdone, herr, htr, hcr, ?_, ?_, ?_⟩ <;> refine BitVec.eq_of_getLsbD_eq fun i hi => ?_ <;>
      rw [BitVec.getLsbD_extractLsb', s.getLsbD_toWord_of_le (by omega)]
    · simp [hi]
    · have hbelow : ¬ 8 ≤ 5 + i := by omega
      simp [hbelow]
    · simp [BitVec.getLsbD_of_ge s.ecode (16 + i - 8) (by omega)]
  · obtain ⟨hpos, hlen⟩ := f.getLsbD_toWord_flags
    refine ⟨hpos, hlen, ?_, ?_⟩ <;> refine BitVec.eq_of_getLsbD_eq fun i hi => ?_ <;>
      rw [BitVec.getLsbD_extractLsb', f.getLsbD_toWord_of_le (by omega)]
    · simp [hi]
    · simp [BitVec.getLsbD_of_ge f.capKind (4 + i - 2) (by omega)]

/-! ### What the host reads and writes in REG -/

theorem accessedReg_offset (r : RegName) : accessedReg r.offset 4 = some r := by cases r <;> rfl

/-- R61: a 4-byte read of a register answers its view, unless the register is open while BUSY = 1. -/
theorem readData_readReg {s : State} {r : RegName} (h : s.status.busy = false ∨ r.openWhileBusy = false) :
    (access (.readReg r.offset 4) s).env.readData = s.regView r := by
  have hview : (s.status.busy && r.openWhileBusy) = false := Bool.and_eq_false_iff.2 h
  simp [access, hostReadReg, accessedReg_offset, hview]

/-- R21, R251: a 4-byte write of CMD while BUSY = 0 submits the word. -/
theorem access_writeCmd {s : State} (w : Word) (h : s.status.busy = false) :
    access (.writeReg 0x000 4 w) s = s.submit w := by
  have hcmd : accessedReg 0x000 4 = some .cmd := rfl
  simp [access, hostWriteReg, hcmd, h]

/-- Settles O6: the write is a submission, and CMD is not open while BUSY = 1. -/
theorem cmdWriteSubmits : Obligations.CmdWriteSubmits := by
  refine ⟨fun s w hbusy => ?_, rfl⟩
  rw [access_writeCmd w hbusy]
  exact ⟨rfl, readData_readReg (r := .cmd) (.inr rfl)⟩

/-- Settles O51: a read answers the view, and the invariant with R7's bounds keeps each number below 2^32. -/
theorem viewsReadTheirNumbers : Obligations.ViewsReadTheirNumbers := by
  intro s h hbusy
  obtain ⟨-, hin, -, hout, -, hchunks, hstore⟩ := config_bounds h.params
  have hcount := h.count
  have hused := h.store
  have hview (r : RegName) := readData_readReg (r := r) (.inl hbusy)
  have hstoreUsed : (access (.readReg 0x034 4) s).env.readData.toNat = storeBytes s.cl :=
    (congrArg BitVec.toNat (hview .storeUsed)).trans (toNat_word (by omega))
  exact ⟨(congrArg BitVec.toNat (hview .nChunks)).trans (toNat_word (by omega)),
    hstoreUsed, hstoreUsed.trans_le hused,
    (congrArg BitVec.toNat (hview .capIn)).trans (toNat_word hin),
    (congrArg BitVec.toNat (hview .capOut)).trans (toNat_word hout),
    (congrArg BitVec.toNat (hview .capChunks)).trans (toNat_word hchunks),
    (congrArg BitVec.toNat (hview .capStore)).trans (toNat_word hstore), hview .id⟩

/-! ### What a step does to STATUS and to FAULT -/

/-- A step in which PENDING goes from a word to none is a completion, so BUSY is 0 and DONE is 1. -/
theorem finished_of_exec {i : Instr} {s t : State} (ht : exec i s = .next t) (hs : s.pending ≠ none)
    (hnone : t.pending = none) : Finished t := by
  rcases exec_cases ht with ⟨u, -, rfl⟩ | ⟨e, rfl⟩ | rfl
  · exact ⟨rfl, rfl, rfl⟩
  · exact ⟨rfl, rfl, rfl⟩
  · exact absurd hnone hs

/-- R255: the framer's step on a word is a command, or the commit of IllegalCommand. -/
theorem framerStep_cases (w : Word) (s : State) :
    (∃ i, framerStep w s = exec i s) ∨ framerStep w s = commit s (raise (illegalCommand w)) := by
  unfold framerStep
  split
  next i _ => exact .inl ⟨i, rfl⟩
  next => exact .inr rfl

/-- R251: what the framer's step does to STATUS and to FAULT: it finishes and keeps FAULT, or it records a model fault
and keeps STATUS. -/
theorem framerStep_status_fault {w : Word} {s t : State} (ht : framerStep w s = .next t) :
    (Finished t ∧ t.fault = s.fault) ∨ (t.status = s.status ∧ ∃ f, t.fault = s.fault.add f) := by
  rcases framerStep_cases w s with ⟨i, hi⟩ | hi <;> rw [hi] at ht
  · rcases exec_cases ht with ⟨u, hu, rfl⟩ | ⟨e, rfl⟩ | rfl
    · obtain ⟨-, -, -, -, hfault, -⟩ := keepsInputs_completeOk hu
      exact .inl ⟨⟨rfl, rfl, rfl⟩, hfault⟩
    · exact .inl ⟨⟨rfl, rfl, rfl⟩, rfl⟩
    · exact .inr ⟨rfl, .uninitInput, rfl⟩
  · obtain rfl := Host.Outcome.next.inj ht
    exact .inl ⟨⟨rfl, rfl, rfl⟩, rfl⟩

/-- STATUS is as it was, or BUSY alone was set (R24). -/
def StatusKeptOrBusy (s t : State) : Prop := t.status = s.status ∨ t.status = { s.status with busy := true }

/-- FAULT is as it was, or has one element more (R52). -/
def FaultKeptOrAdded (s t : State) : Prop := t.fault = s.fault ∨ ∃ f, t.fault = s.fault.add f

theorem access_status_fault (a : HostAccess) (s : State) :
    StatusKeptOrBusy s (access a s) ∧ FaultKeptOrAdded s (access a s) := by
  rcases access_cases a s with ⟨-, v, hv | ⟨-, hv⟩⟩ |
      ⟨-, -, ⟨w, -, hw⟩ | ⟨w, -, hw⟩ | ⟨w, -, hw⟩ | ⟨i, b, -, -, hw⟩⟩ | ⟨-, hf⟩
  · rw [hv]; exact ⟨.inl rfl, .inl rfl⟩
  · rw [hv]; exact ⟨.inl rfl, .inl rfl⟩
  · rw [hw]; exact ⟨.inr rfl, .inl rfl⟩
  · rw [hw]; exact ⟨.inl rfl, .inl rfl⟩
  · rw [hw]; exact ⟨.inl rfl, .inl rfl⟩
  · rw [hw]; exact ⟨.inl rfl, .inl rfl⟩
  · rw [hf]; exact ⟨.inl rfl, .inr ⟨.hostFault, rfl⟩⟩

/-- R24, R25, R52: what a step does to STATUS and to FAULT. It finishes a command; or it keeps STATUS, but for a BUSY
that it may set; or it is the reset input. Only the last removes an element of FAULT. -/
theorem step_status_fault {s t : State} (ht : step s = .next t) :
    ((Finished t ∨ StatusKeptOrBusy s t) ∧ FaultKeptOrAdded s t) ∨
    (s.env.script.head? = some .reset ∧ t.status = Status.reset) := by
  rcases step_cases ht with ⟨w, -, -, hw⟩ | ⟨e, rest, hscript, -, rfl⟩ | ⟨-, -, -, rfl⟩
  · rcases framerStep_status_fault hw with ⟨hfin, hfault⟩ | ⟨hstatus, hfault⟩
    · exact .inl ⟨.inl hfin, .inl hfault⟩
    · exact .inl ⟨.inr (.inl hstatus), .inr hfault⟩
  · rcases hostEvent_cases e rest s with ⟨a, rest', ha⟩ | ⟨script, hs⟩ | ⟨rfl, hr⟩
    · obtain ⟨hstatus, hfault⟩ := access_status_fault a (s.advance rest')
      rw [ha]
      exact .inl ⟨.inr hstatus, hfault⟩
    · rw [hs]
      exact .inl ⟨.inr (.inl rfl), .inl rfl⟩
    · rw [hr]
      exact .inr ⟨by simp [hscript], rfl⟩
  · exact .inl ⟨.inr (.inl rfl), .inl rfl⟩

theorem FaultSet.has_add (fs : FaultSet) (f g : ModelFault) : (fs.add g).has f = (fs.has f || decide (f = g)) := by
  cases f <;> cases g <;> simp [FaultSet.has, FaultSet.add]

/-- Settles O7: a step that ends with BUSY = 1 neither finished nor was the reset input, so it kept STATUS but for
BUSY. -/
theorem statusHoldsWhileBusy : Obligations.StatusHoldsWhileBusy := by
  refine ⟨fun s w hbusy => ?_, fun i s t ht hnone hs => ?_, fun s t _ ht hbusy => ?_⟩
  · rw [access_writeCmd w hbusy, State.submit_busy]
  · obtain ⟨-, hidle, -⟩ := finished_of_exec ht hs hnone
    exact hidle
  · rcases step_status_fault ht with ⟨⟨-, hidle, -⟩ | hkept | hset, -⟩ | ⟨-, hreset⟩
    · rw [hbusy] at hidle
      cases hidle
    · rw [← hkept, ← hbusy]
    · exact hset
    · rw [hreset] at hbusy
      cases hbusy

/-- Settles O56: a step that is not the reset input finishes, or keeps DONE. -/
theorem doneIsClearedOnlyByReset : Obligations.DoneIsClearedOnlyByReset := by
  refine ⟨fun i s t ht hs hnone => ?_, fun s t ht hdone hreset => ?_⟩
  · obtain ⟨-, -, hfin⟩ := finished_of_exec ht hs hnone
    exact hfin
  · rcases step_status_fault ht with ⟨⟨-, -, hfin⟩ | hkept | hset, -⟩ | ⟨hr, -⟩
    · exact hfin
    · rw [hkept, hdone]
    · rw [hset, hdone]
    · exact absurd hr hreset

/-- Settles O57: a step that is not the reset input keeps FAULT or adds to it. -/
theorem faultIsRemovedOnlyByReset : Obligations.FaultIsRemovedOnlyByReset := by
  refine ⟨rfl, fun s t f ht hf hreset => ?_⟩
  rcases step_status_fault ht with ⟨-, hkept | ⟨g, hadd⟩⟩ | ⟨hr, -⟩
  · rw [hkept, hf]
  · rw [hadd, FaultSet.has_add, hf, Bool.true_or]
  · exact absurd hr hreset

/-! ### The invariant and the state's updates -/

/-- R36: an error that does not say that its position is valid shows position 0 and index 0. -/
def ErrorInfo.Located (e : ErrorInfo) : Prop := e.flags.posValid = false → e.pos = 0 ∧ e.index = 0

theorem inv_resetWith {cfg : Config} (env : Env) (h : cfg.wf = true) : Inv (State.resetWith cfg env) where
  params := h
  busy := rfl
  cmd := nofun
  inWf := rfl
  inBound := nofun
  outWf := rfl
  outExtent _ := by simp [State.resetWith]
  outFits := Nat.zero_le _
  tr := nofun
  cr := nofun
  cl := nofun
  count := Nat.zero_le _
  store := Nat.zero_le _
  quiet _ := ⟨rfl, rfl, rfl, rfl, rfl, rfl, rfl⟩
  code := nofun
  position _ := ⟨rfl, rfl⟩
  fresh _ := rfl

/-- Settles O54: `State.reset` is the reset state for the default parameters. -/
theorem invariantHoldsAtReset : Obligations.InvariantHoldsAtReset :=
  ⟨inv_resetWith Env.reset (by decide), fun _ env h => inv_resetWith env h⟩

section
variable {s : State} (h : Inv s)
include h

/-- The invariant says nothing of the outside world. -/
theorem Inv.withEnv (env : Env) : Inv { s with env := env } := { h with }

theorem Inv.recordFault (f : ModelFault) : Inv (s.recordFault f) := { h with }

theorem Inv.writeArg (v : Word) : Inv { s with arg := v } := { h with }

theorem Inv.writeInLen (v : Word) : Inv { s with inLen := v } := { h with }

theorem Inv.writeIn {i : Nat} (b : Byte) (hi : i < s.cfg.inCap) : Inv { s with inBuf := s.inBuf.write i b } :=
  { h with
    inWf := Memory.wf_write s.inBuf i b h.inWf
    inBound := fun c hc => by
      rcases Memory.mem_write s.inBuf i b c hc with rfl | hc
      · exact hi
      · exact h.inBound c hc }

theorem Inv.submit (w : Word) : Inv (s.submit w) :=
  { h with busy := rfl, cmd := fun _ hv => Option.some.inj hv }

theorem Inv.resetInput : Inv s.resetInput := inv_resetWith _ h.params

theorem Inv.writeResult (v : Word) : Inv (s.writeResult v) := { h with }

theorem Inv.writeAux (v : Word) : Inv (s.writeAux v) := { h with }

theorem Inv.writeTr {t : TypeCode} (ht : constructible t = true) : Inv (s.writeTr t) := { h with tr := fun _ => ht }

theorem Inv.writeCr {c : Chunk} (hc : ChunkOk s.cfg c) : Inv (s.writeCr c) := { h with cr := fun _ => hc }

theorem Inv.writeCl {l : List Chunk} (hl : ∀ c ∈ l, ChunkOk s.cfg c) (hcount : l.length ≤ s.cfg.maxChunks)
    (hstore : storeBytes l ≤ s.cfg.storeCap) : Inv (s.writeCl l) :=
  { h with cl := hl, count := hcount, store := hstore }

theorem Inv.writeOut {bs : List Byte} (hfit : bs.length ≤ s.cfg.outCap) : Inv (s.writeOut bs) := by
  obtain ⟨-, -, -, hcap, -⟩ := config_bounds h.params
  have hlen : (word bs.length).toNat = bs.length := toNat_word (by omega)
  exact { h with
    outWf := Memory.wf_holding 0 bs
    outExtent := fun i => by rw [Bool.eq_iff_iff]; simp [hlen]
    outFits := by simpa [hlen] using hfit }

/-- A successful completion keeps the invariant, whatever the error registers held before. -/
theorem Inv.completeOk : Inv s.completeOk :=
  { h with
    busy := rfl
    cmd := nofun
    quiet := fun _ => ⟨rfl, rfl, rfl, rfl, rfl, rfl, rfl⟩
    code := nofun
    position := fun _ => ⟨rfl, rfl⟩
    fresh := nofun }

theorem Inv.completeErr {e : ErrorInfo} (he : e.Located) : Inv (s.completeErr e) :=
  { h with
    busy := rfl
    cmd := nofun
    quiet := nofun
    code := fun _ => e.kind.code_ne_zero
    position := he
    fresh := nofun }

end

/-! ### What the commands compute keeps the invariant -/

/-- Every error that a computation raises is located (R36). -/
def RaisesLocated {α : Type} (r : Except Stop α) : Prop := ∀ e, r = .error (.raise e) → e.Located

theorem raisesLocated_ok {α : Type} (a : α) : RaisesLocated (.ok a : Except Stop α) := nofun

theorem raisesLocated_raise {α : Type} {e : ErrorInfo} (h : e.Located) : RaisesLocated (raise e : Except Stop α) := by
  rintro _ ⟨⟩
  exact h

theorem raisesLocated_bind {α β : Type} {x : Except Stop α} {f : α → Except Stop β} (hx : RaisesLocated x)
    (hf : ∀ a, RaisesLocated (f a)) : RaisesLocated (x >>= f) := fun e he => by
  rcases cmd_bind_eq_error he with hxe | ⟨a, -, hfe⟩
  · exact hx e hxe
  · exact hf a e hfe

/-- An error that gives neither position nor index is located. -/
theorem located_of_zero {e : ErrorInfo} (hpos : e.pos = 0 := by rfl) (hindex : e.index = 0 := by rfl) : e.Located :=
  fun _ => ⟨hpos, hindex⟩

theorem raisesLocated_failIf {p : Prop} [Decidable p] {e : ErrorInfo} (h : e.Located) : RaisesLocated (failIf p e) := by
  intro e' he
  obtain ⟨-, heq⟩ := failIf_eq_error he
  obtain rfl := Stop.raise.inj heq
  exact h

theorem raisesLocated_checkCapacity (kind : BitVec 2) (required limit : Nat) :
    RaisesLocated (checkCapacity kind required limit) := raisesLocated_failIf located_of_zero

/-- MemRead raises no error: it answers, or faults (R64). -/
theorem raisesLocated_memRead (m : Memory) (a n : Nat) : RaisesLocated (memRead m a n) := by
  rcases memRead_cases m a n with ⟨bs, -, -, h⟩ | ⟨-, h⟩ <;> rw [h] <;> nofun

theorem raisesLocated_memRead4 (m : Memory) (a : Nat) : RaisesLocated (memRead4 m a) := by
  rcases memRead4_cases m a with ⟨t, -, h⟩ | ⟨-, h⟩ <;> rw [h] <;> nofun

theorem raisesLocated_fromBytes (t : Bytes4) : RaisesLocated (fromBytes t) := by
  unfold fromBytes
  split
  · exact raisesLocated_raise located_of_zero
  · exact raisesLocated_ok t

theorem raisesLocated_chunkParse (m : Memory) (base n : Nat) : RaisesLocated (chunkParse m base n) :=
  raisesLocated_bind (raisesLocated_failIf located_of_zero) fun _ =>
  raisesLocated_bind (raisesLocated_memRead4 _ _) fun _ =>
  raisesLocated_bind (raisesLocated_failIf located_of_zero) fun _ =>
  raisesLocated_bind (raisesLocated_memRead4 _ _) fun _ =>
  raisesLocated_bind (raisesLocated_fromBytes _) fun _ =>
  raisesLocated_bind (raisesLocated_failIf located_of_zero) fun _ =>
  raisesLocated_bind (raisesLocated_memRead _ _ _) fun _ =>
  raisesLocated_bind (raisesLocated_memRead4 _ _) fun _ =>
  raisesLocated_bind (raisesLocated_failIf located_of_zero) fun _ => raisesLocated_ok _

/-- R202: an error inside a stream is annotated, so it says that its position is valid. -/
theorem located_of_annotate {pos index : Nat} {x : Stop} {e : ErrorInfo} (h : annotate pos index x = .raise e) :
    e.Located := by
  cases x with
  | raise e' =>
    obtain rfl := Stop.raise.inj h
    exact nofun
  | fault f => cases h

theorem raisesLocated_containerLoop (m : Memory) (n fuel pos : Nat) (list : List Chunk) :
    RaisesLocated (containerLoop m n fuel pos list) := by
  induction fuel generalizing pos list with
  | zero => exact raisesLocated_ok list
  | succ fuel ih =>
    rw [containerLoop_succ]
    split
    · split
      · exact raisesLocated_raise nofun
      · split
        · exact ih _ _
        · exact fun e he => located_of_annotate (Except.error.inj he)
    · exact raisesLocated_ok list

theorem raisesLocated_containerParse (m : Memory) (n : Nat) : RaisesLocated (containerParse m n) :=
  raisesLocated_bind
    (raisesLocated_bind (raisesLocated_failIf located_of_zero) fun _ =>
      raisesLocated_bind (raisesLocated_memRead _ _ _) fun _ => raisesLocated_failIf located_of_zero)
    fun _ => raisesLocated_containerLoop _ _ _ _ _

theorem raisesLocated_inputLength (s : State) : RaisesLocated (inputLength s) :=
  raisesLocated_bind (raisesLocated_checkCapacity _ _ _) fun _ => raisesLocated_ok _

theorem raisesLocated_inPayload (s : State) : RaisesLocated (inPayload s) :=
  raisesLocated_bind (raisesLocated_inputLength s) fun _ => raisesLocated_memRead _ _ _

theorem raisesLocated_inTypeString (s : State) : RaisesLocated (inTypeString s) := by
  refine raisesLocated_bind (raisesLocated_inputLength s) fun n => ?_
  split
  · exact raisesLocated_memRead4 _ _
  · exact raisesLocated_raise located_of_zero

theorem raisesLocated_query (s : State) : RaisesLocated (query s) := by
  refine raisesLocated_bind (raisesLocated_inputLength s) fun n => ?_
  split
  · exact raisesLocated_bind (raisesLocated_memRead4 _ _) fun _ => raisesLocated_ok _
  · exact raisesLocated_ok _

theorem raisesLocated_operandTr (s : State) : RaisesLocated (operandTr s) := by
  unfold operandTr
  split
  · exact raisesLocated_ok _
  · exact raisesLocated_raise located_of_zero

theorem raisesLocated_operandCr (s : State) : RaisesLocated (operandCr s) := by
  unfold operandCr
  split
  · exact raisesLocated_ok _
  · exact raisesLocated_raise located_of_zero

/-- The outcome of a command keeps the invariant: a success is a state that has it, and an error is located. -/
def OutcomeInv (r : Except Stop State) : Prop := (∀ u, r = .ok u → Inv u) ∧ RaisesLocated r

theorem outcomeInv_ok {u : State} (h : Inv u) : OutcomeInv (.ok u) := by
  refine ⟨?_, raisesLocated_ok u⟩
  rintro _ ⟨⟩
  exact h

theorem outcomeInv_raise {e : ErrorInfo} (h : e.Located) : OutcomeInv (raise e) :=
  ⟨fun _ hu => (by cases hu), raisesLocated_raise h⟩

theorem outcomeInv_bind {α : Type} {x : Except Stop α} {f : α → Except Stop State} (hx : RaisesLocated x)
    (hf : ∀ a, x = .ok a → OutcomeInv (f a)) : OutcomeInv (x >>= f) := by
  cases x with
  | ok a => exact hf a rfl
  | error x => exact ⟨fun u hu => (by cases hu), fun e he => hx e (by simpa using he)⟩

/-- R251: committing such an outcome keeps the invariant. -/
theorem inv_of_commit {s t : State} {r : Except Stop State} (h : Inv s) (hr : OutcomeInv r)
    (ht : commit s r = .next t) : Inv t := by
  obtain ⟨hok, hraise⟩ := hr
  rcases commit_cases ht with ⟨u, hu, rfl⟩ | ⟨e, he, rfl⟩ | ⟨f, -, rfl⟩
  · exact (hok u hu).completeOk
  · exact h.completeErr (hraise e he)
  · exact h.recordFault f

theorem storeBytes_eraseIdx_le (l : List Chunk) (i : Nat) : storeBytes (l.eraseIdx i) ≤ storeBytes l :=
  ((List.eraseIdx_sublist l i).map _).sum_le_sum fun _ _ => Nat.zero_le _

theorem storeBytes_concat (l : List Chunk) (c : Chunk) : storeBytes (l ++ [c]) = storeBytes l + c.payload.length := by
  simp [storeBytes]

section
variable {s : State} (h : Inv s)
include h

/-- R257, R45: a command that reads TR gets an alphabetic code. -/
theorem outcomeInv_operandTr {f : TypeCode → Except Stop State}
    (hf : ∀ t, constructible t = true → OutcomeInv (f t)) : OutcomeInv (operandTr s >>= f) :=
  outcomeInv_bind (raisesLocated_operandTr s) fun t ht => by
    obtain ⟨hvalid, rfl⟩ := operandTr_eq_ok ht
    exact hf s.tr (h.tr hvalid)

/-- R257, R46, R47: a command that reads CR gets a chunk that IN could have brought in. -/
theorem outcomeInv_operandCr {f : Chunk → Except Stop State}
    (hf : ∀ c, ChunkOk s.cfg c → OutcomeInv (f c)) : OutcomeInv (operandCr s >>= f) :=
  outcomeInv_bind (raisesLocated_operandCr s) fun c hc => by
    obtain ⟨hvalid, rfl⟩ := operandCr_eq_ok hc
    exact hf s.cr (h.cr hvalid)

/-- R256, R65: an output that is emitted fits OUT. -/
theorem outcomeInv_emit (bs : List Byte) : OutcomeInv (emit s bs) :=
  outcomeInv_bind (raisesLocated_checkCapacity _ _ _) fun _ hfit =>
    outcomeInv_ok (h.writeOut (checkCapacity_eq_ok hfit))

theorem chunkOk_of_getElem? {i : Nat} {c : Chunk} (hc : s.cl[i]? = some c) : ChunkOk s.cfg c :=
  h.cl c (List.mem_of_getElem? hc)

end

/-- R152, R46, R47: what `chunk_parse` answers within IN_CAP. -/
theorem chunkOk_of_chunkParse {cfg : Config} {m : Memory} {base n used : Nat} {c : Chunk} (hn : n ≤ cfg.inCap)
    (hc : chunkParse m base n = .ok (c, used)) : ChunkOk cfg c := by
  obtain ⟨hvalid, -, hused, hle, -⟩ := chunkParse_eq_ok hc
  exact ⟨constructible_of_isValid hvalid, by omega⟩

/-- R202, R46, R47: the chunks of a stream within IN_CAP. -/
theorem chunkOk_of_containerParse {cfg : Config} {m : Memory} {n : Nat} {l : List Chunk} (hn : n ≤ cfg.inCap)
    (hl : containerParse m n = .ok l) : ∀ c ∈ l, ChunkOk cfg c := by
  obtain ⟨hvalid, hlen, -⟩ := containerParse_eq_ok hl
  intro c hc
  have hpayload := payload_le_storeBytes hc
  have hstream := stream_length l
  exact ⟨constructible_of_isValid (hvalid c hc).1, by omega⟩

/-- Every command, from a state with the invariant, is the commit of an outcome that keeps it. -/
theorem exec_eq_commit_inv (i : Instr) {s : State} (h : Inv s) : ∃ r, exec i s = commit s r ∧ OutcomeInv r := by
  cases i
  case tcFromBytes =>
    refine ⟨_, rfl, outcomeInv_bind (raisesLocated_fromBytes _) fun t ht => ?_⟩
    obtain ⟨rfl, hc⟩ := fromBytes_eq_ok ht
    exact outcomeInv_ok (h.writeTr hc)
  case tcFromString =>
    refine ⟨_, rfl, outcomeInv_bind (raisesLocated_inTypeString s) fun q _ =>
      outcomeInv_bind (raisesLocated_fromBytes q) fun t ht => ?_⟩
    obtain ⟨rfl, hc⟩ := fromBytes_eq_ok ht
    exact outcomeInv_ok (h.writeTr hc)
  case tcIsValid | tcIsCritical | tcIsPublic | tcIsReservedBitValid | tcIsSafeToCopy | tcBytes =>
    exact ⟨_, rfl, outcomeInv_operandTr h fun t _ => outcomeInv_ok (h.writeResult _)⟩
  case tcToString =>
    obtain ⟨-, -, hcap, -⟩ := config_bounds h.params
    exact ⟨_, rfl, outcomeInv_operandTr h fun t _ => outcomeInv_bind (raisesLocated_failIf located_of_zero)
      fun _ _ => outcomeInv_ok (h.writeOut (by rw [Bytes4.toList_length]; omega))⟩
  case chNew =>
    refine ⟨_, rfl, outcomeInv_operandTr h fun t ht => outcomeInv_bind (raisesLocated_inPayload s) fun p hp => ?_⟩
    obtain ⟨hlen, hle, -⟩ := inPayload_eq_ok hp
    exact outcomeInv_ok (h.writeCr ⟨ht, hlen ▸ hle⟩)
  case chParse =>
    refine ⟨_, rfl, outcomeInv_bind (raisesLocated_inputLength s) fun n hn =>
      outcomeInv_bind (raisesLocated_chunkParse _ _ _) fun r hr => ?_⟩
    obtain ⟨rfl, hle⟩ := inputLength_eq_ok hn
    exact outcomeInv_ok (((h.writeCr (chunkOk_of_chunkParse hle hr)).writeResult _).writeAux _)
  case chSerialize | chPayload => exact ⟨_, rfl, outcomeInv_operandCr h fun c _ => outcomeInv_emit h _⟩
  case chPayloadAsText =>
    exact ⟨_, rfl, outcomeInv_operandCr h fun c _ => outcomeInv_bind (raisesLocated_failIf located_of_zero)
      fun _ _ => outcomeInv_emit h _⟩
  case chLength | chCrc => exact ⟨_, rfl, outcomeInv_operandCr h fun c _ => outcomeInv_ok (h.writeResult _)⟩
  case chType =>
    exact ⟨_, rfl, outcomeInv_operandCr h fun c ⟨htype, _⟩ => outcomeInv_ok ((h.writeTr htype).writeResult _)⟩
  case pngClear => exact ⟨_, rfl, outcomeInv_ok (h.writeCl nofun (Nat.zero_le _) (Nat.zero_le _))⟩
  case pngParse =>
    refine ⟨_, rfl, outcomeInv_bind (raisesLocated_inputLength s) fun n hn =>
      outcomeInv_bind (raisesLocated_containerParse _ _) fun l hl =>
      outcomeInv_bind (raisesLocated_checkCapacity _ _ _) fun _ hcount =>
      outcomeInv_bind (raisesLocated_checkCapacity _ _ _) fun _ hstore => ?_⟩
    obtain ⟨rfl, hle⟩ := inputLength_eq_ok hn
    exact outcomeInv_ok ((h.writeCl (chunkOk_of_containerParse hle hl) (checkCapacity_eq_ok hcount)
      (checkCapacity_eq_ok hstore)).writeResult _)
  case pngSerialize => exact ⟨_, rfl, outcomeInv_emit h _⟩
  case pngAppend =>
    refine ⟨_, rfl, outcomeInv_operandCr h fun c hc =>
      outcomeInv_bind (raisesLocated_checkCapacity _ _ _) fun _ hcount =>
      outcomeInv_bind (raisesLocated_checkCapacity _ _ _) fun _ hstore => ?_⟩
    have hall : ∀ d ∈ s.cl ++ [c], ChunkOk s.cfg d := by
      simpa [or_imp, forall_and] using ⟨h.cl, hc⟩
    exact outcomeInv_ok ((h.writeCl hall (by simpa using checkCapacity_eq_ok hcount)
      (by simpa [storeBytes_concat] using checkCapacity_eq_ok hstore)).writeResult _)
  case pngChunkByType =>
    refine ⟨_, rfl, outcomeInv_bind (raisesLocated_query s) fun q _ => ?_⟩
    have hnone : Inv ((s.writeResult 0).writeAux 0) := (h.writeResult 0).writeAux 0
    split
    · exact outcomeInv_ok hnone
    · split
      next hc => exact outcomeInv_ok (((h.writeCr (chunkOk_of_getElem? h hc)).writeResult _).writeAux _)
      next => exact outcomeInv_ok hnone
  case pngRemove =>
    refine ⟨_, rfl, outcomeInv_bind (raisesLocated_query s) fun q _ => ?_⟩
    split
    · exact outcomeInv_raise located_of_zero
    next i _ =>
      split
      next c hc =>
        have hcl : Inv ((s.writeCr c).writeCl (s.cl.eraseIdx i)) :=
          (h.writeCr (chunkOk_of_getElem? h hc)).writeCl (fun d hd => h.cl d (List.mem_of_mem_eraseIdx hd))
            ((List.eraseIdx_sublist s.cl i).length_le.trans h.count) ((storeBytes_eraseIdx_le s.cl i).trans h.store)
        exact outcomeInv_ok ((hcl.writeResult _).writeAux _)
      next => exact outcomeInv_raise located_of_zero
  case pngCount => exact ⟨_, rfl, outcomeInv_ok (h.writeResult _)⟩
  case pngGet =>
    refine ⟨_, rfl, ?_⟩
    split
    next c hc => exact outcomeInv_ok (h.writeCr (chunkOk_of_getElem? h hc))
    next => exact outcomeInv_raise located_of_zero

/-! ### The steps of the two agents keep the invariant -/

theorem inv_of_framerStep {w : Word} {s t : State} (h : Inv s) (ht : framerStep w s = .next t) : Inv t := by
  rcases framerStep_cases w s with ⟨i, hi⟩ | hi <;> rw [hi] at ht
  · obtain ⟨r, hr, hinv⟩ := exec_eq_commit_inv i h
    exact inv_of_commit h hinv (hr ▸ ht)
  · exact inv_of_commit h (outcomeInv_raise located_of_zero) ht

theorem inv_access (a : HostAccess) {s : State} (h : Inv s) : Inv (access a s) := by
  rcases access_cases a s with ⟨-, v, hv | ⟨-, hv⟩⟩ |
      ⟨-, -, ⟨w, -, hw⟩ | ⟨w, -, hw⟩ | ⟨w, -, hw⟩ | ⟨i, b, hi, -, hb⟩⟩ | ⟨-, hf⟩
  · exact hv ▸ h.withEnv _
  · exact hv ▸ h.withEnv _
  · exact hw ▸ h.submit w
  · exact hw ▸ h.writeArg w
  · exact hw ▸ h.writeInLen w
  · exact hb ▸ h.writeIn b hi
  · exact hf ▸ h.recordFault _

theorem inv_hostEvent (e : HostEvent) (rest : List HostEvent) {s : State} (h : Inv s) : Inv (hostEvent e rest s) := by
  rcases hostEvent_cases e rest s with ⟨a, rest', ha⟩ | ⟨script, hs⟩ | ⟨-, hr⟩
  · exact ha ▸ inv_access a (h.withEnv _)
  · exact hs ▸ h.withEnv _
  · exact hr ▸ Inv.resetInput (h.withEnv _)

/-- Settles O55: the framer's step and the host's events keep the invariant. -/
theorem everyStepKeepsTheInvariant : Obligations.EveryStepKeepsTheInvariant := by
  intro s t h ht
  rcases step_cases ht with ⟨w, -, -, hw⟩ | ⟨e, rest, -, -, rfl⟩ | ⟨-, -, -, rfl⟩
  · exact inv_of_framerStep h hw
  · exact inv_hostEvent e rest h
  · exact h

/-! ### What a parse leaves -/

/-- A commit that completes without an error commits a success. -/
theorem ok_of_commit {s t : State} {r : Except Stop State} (ht : commit s r = .next t) (hs : s.pending ≠ none)
    (hnone : t.pending = none) (herr : t.status.err = false) : ∃ u, r = .ok u ∧ t = u.completeOk := by
  rcases commit_cases ht with hok | ⟨e, -, rfl⟩ | ⟨f, -, rfl⟩
  · exact hok
  · cases herr
  · exact absurd hnone hs

/-- Settles O44: a parse that ends without an error took its chunks from `chunk_parse` or `container_parse`, which
accept valid types only. -/
theorem parsedChunksAreValid : Obligations.ParsedChunksAreValid := by
  intro s t hs hnone herr
  refine ⟨fun ht => ?_, fun ht c hc => ?_⟩
  · obtain ⟨u, hu, rfl⟩ := ok_of_commit ht hs hnone herr
    obtain ⟨n, -, hu⟩ := cmd_bind_eq_ok hu
    obtain ⟨r, hr, hu⟩ := cmd_bind_eq_ok hu
    cases hu
    obtain ⟨hvalid, -⟩ := chunkParse_eq_ok hr
    exact hvalid
  · obtain ⟨u, hu, rfl⟩ := ok_of_commit ht hs hnone herr
    obtain ⟨n, -, hu⟩ := cmd_bind_eq_ok hu
    obtain ⟨l, hl, hu⟩ := cmd_bind_eq_ok hu
    obtain ⟨-, -, hu⟩ := cmd_bind_eq_ok hu
    obtain ⟨-, -, hu⟩ := cmd_bind_eq_ok hu
    cases hu
    obtain ⟨hvalid, -⟩ := containerParse_eq_ok hl
    exact (hvalid c hc).1

end Sys2Proof.Machine
end

section
/-!
PROOFS. The statements of the family 20_memory: the register map (R61), the ports of IN and OUT (R62, R63), the framer's
read of an unwritten input byte (R64), and the reads of the host, which have no side effect (R70, R71).
-/
namespace Sys2Proof.Machine

/-! ### An access that breaks the protocol -/

theorem hostFault_of_violates {s : State} {a : HostAccess} (h : Violates s a) :
    (access a s).fault.hostFault = true := by
  rw [access_of_violates h, State.hostFault_fault]
  rfl

/-! ### The register map -/

/-- R61: a 4-byte read of a register answers its view and does nothing else, unless the register is open while
BUSY = 1. -/
theorem access_readReg {s : State} {r : RegName} (h : s.status.busy = false ∨ r.openWhileBusy = false) :
    access (.readReg r.offset 4) s = s.answer (s.regView r) := by
  have hview : (s.status.busy && r.openWhileBusy) = false := Bool.and_eq_false_iff.2 h
  simp [access, hostReadReg, accessedReg_offset, hview]

/-- R61, for several rows of the register map, each an offset with what a read there answers. -/
theorem access_readReg_rows {s : State} (rs : List RegName)
    (h : ∀ r ∈ rs, s.status.busy = false ∨ r.openWhileBusy = false) :
    ∀ p ∈ rs.map fun r => (r.offset, s.regView r), access (.readReg p.1 4) s = s.answer p.2 :=
  List.forall_mem_map.2 fun r hr => access_readReg (h r hr)

/-- R22: a 4-byte write of ARG while BUSY = 0 stores the value. -/
theorem access_writeArg {s : State} (v : Word) (h : s.status.busy = false) :
    access (.writeReg 0x004 4 v) s = { s with arg := v } := by
  have harg : accessedReg 0x004 4 = some .arg := rfl
  simp [access, hostWriteReg, harg, h]

/-- R30: a 4-byte write of IN_LEN while BUSY = 0 stores the value. -/
theorem access_writeInLen {s : State} (v : Word) (h : s.status.busy = false) :
    access (.writeReg 0x014 4 v) s = { s with inLen := v } := by
  have hlen : accessedReg 0x014 4 = some .inLen := rfl
  simp [access, hostWriteReg, hlen, h]

/-- Settles O47: each list of the statement is the rows of the registers named here, and every other access breaks the
protocol. -/
theorem registerMap : Obligations.RegisterMap := by
  intro s
  refine ⟨?always, fun hbusy => ?idle, fun hbusy v => ?written, fun offset size h => hostFault_of_violates h,
    fun offset size v h => hostFault_of_violates (h.imp_right .inl)⟩
  case always =>
    have hopen : ∀ r ∈ [RegName.cmd, .arg, .status, .inLen, .capIn, .capOut, .capChunks, .capStore, .id],
        r.openWhileBusy = false := by decide
    exact access_readReg_rows _ fun r hr => .inr (hopen r hr)
  case idle =>
    exact access_readReg_rows
      [.result, .aux, .outLen, .nChunks, .errA, .errB, .errFlags, .errPos, .errIndex, .storeUsed] fun _ _ => .inl hbusy
  case written => exact ⟨access_writeCmd v hbusy, access_writeArg v hbusy, access_writeInLen v hbusy⟩

/-! ### The reads of the host -/

section
variable {s : State} {a : HostAccess} (hread : isRead a = true) (hlegal : ¬ Violates s a)
include hread hlegal

/-- A legal read answers a value, and while BUSY = 1 it may advance the model's counter. -/
theorem access_legalRead : ∃ v,
    access a s = s.answer v ∨ (s.status.busy = true ∧ access a s = (s.answer v).nextEpoch) := by
  rcases access_cases a s with ⟨-, hv⟩ | ⟨hwrite, -⟩ | ⟨hbad, -⟩
  · exact hv
  · rw [hread] at hwrite
    cases hwrite
  · exact absurd hbad hlegal

theorem access_legalRead_idle (hbusy : s.status.busy = false) : ∃ v, access a s = s.answer v := by
  obtain ⟨v, hv | ⟨hb, -⟩⟩ := access_legalRead hread hlegal
  · exact ⟨v, hv⟩
  · rw [hbusy] at hb
    cases hb

/-- R71: a legal read changes nothing of the block. -/
theorem sameBlock_legalRead : SameBlock s (access a s) := by
  obtain ⟨v, hv | ⟨-, hv⟩⟩ := access_legalRead hread hlegal <;> rw [hv] <;> rfl

/-- R71: what an earlier read returned plays no part in a later read. -/
theorem access_answer (v : Word) : access a (s.answer v) = access a s := by
  cases a with
  | readReg offset size =>
    obtain ⟨r, hr⟩ := Option.isSome_iff_exists.1 (accessedReg_isSome.2 ((not_or.1 hlegal).imp not_not.1 not_not.1))
    simp only [access, hostReadReg, hr]
    rfl
  | readIn index size =>
    have hin : size = 1 ∧ index < s.cfg.inCap := (not_or.1 hlegal).imp not_not.1 Nat.not_le.1
    exact (if_pos hin).trans (if_pos hin).symm
  | readOut index size =>
    have hin : size = 1 ∧ index < s.cfg.outCap := (not_or.1 hlegal).imp not_not.1 Nat.not_le.1
    exact (if_pos hin).trans (if_pos hin).symm
  | writeReg | writeIn | writeOut => cases hread

end

/-- A write that keeps to the protocol and submits no command stores one value in ARG, IN_LEN or IN. -/
theorem access_legalWrite {s : State} {a : HostAccess} (hwrite : isRead a = false) (hlegal : ¬ Violates s a)
    (hsub : isSubmission a = false) :
    access a s = { s with arg := (access a s).arg, inLen := (access a s).inLen, inBuf := (access a s).inBuf } := by
  rcases access_cases a s with ⟨hread, -⟩ |
      ⟨-, -, ⟨w, rfl, -⟩ | ⟨w, -, hw⟩ | ⟨w, -, hw⟩ | ⟨i, b, -, -, hw⟩⟩ | ⟨hbad, -⟩
  · rw [hwrite] at hread
    cases hread
  · cases hsub
  · rw [hw]
  · rw [hw]
  · rw [hw]
  · exact absurd hbad hlegal

/-- Settles O49: while BUSY = 0 a read only answers a value, and no read depends on the value of the one before it
(`access_answer`). -/
theorem onlyCmdWriteHasSideEffects : Obligations.OnlyCmdWriteHasSideEffects := by
  refine fun s a hlegal => ⟨fun hread => sameBlock_legalRead hread hlegal, fun hread hbusy => ?_,
    fun hwrite hsub => access_legalWrite hwrite hlegal hsub⟩
  obtain ⟨v, hv⟩ := access_legalRead_idle hread hlegal hbusy
  refine ⟨by rw [hv, access_answer hread hlegal, hv], fun b hreadb hlegalb => ?_⟩
  obtain ⟨w, hw⟩ := access_legalRead_idle hreadb hlegalb hbusy
  rw [hv, access_answer hreadb hlegalb, hw, access_answer hread hlegal, hv]

/-! ### The ports of IN and OUT -/

/-- R62: a write of IN while BUSY = 0 stores the byte. -/
theorem access_writeIn {s : State} {i : Nat} (b : Byte) (hi : i < s.cfg.inCap) (hbusy : s.status.busy = false) :
    access (.writeIn i 1 b) s = { s with inBuf := s.inBuf.write i b } := by
  simp [access, hostWriteIn, hi, hbusy]

/-- R62: a read of a written IN byte answers it. -/
theorem access_readIn {s : State} {i : Nat} {b : Byte} (hi : i < s.cfg.inCap) (hb : s.inBuf.read? i = some b) :
    access (.readIn i 1) s = s.answer (b.setWidth 32) := by
  simp [access, hostReadIn, hi, hb]

/-- R63: a read of the output while BUSY = 0 answers its byte. -/
theorem access_readOut {s : State} {i : Nat} {b : Byte} (hi : i < s.cfg.outCap) (hbusy : s.status.busy = false)
    (hlen : i < s.outLen.toNat) (hb : s.outBuf.read? i = some b) :
    access (.readOut i 1) s = s.answer (b.setWidth 32) := by
  simp [access, hostReadOut, hi, hbusy, hlen, hb]

/-- A byte that a read answers is the number that the host sees. -/
theorem toNat_readData_answer_byte (s : State) (b : Byte) :
    (s.answer (b.setWidth 32)).env.readData.toNat = b.toNat :=
  BitVec.toNat_setWidth_of_le (by decide)

/-- Settles O52: the legal accesses have their own rules, and the others break the protocol. -/
theorem bufferPorts : Obligations.BufferPorts := by
  intro s i b
  refine ⟨fun hi hbusy => ?write, fun hi hb => ?readIn, fun hi hbusy hlen hb => ?readOut,
    fun size h => ⟨hostFault_of_violates h, hostFault_of_violates (h.imp_right .inl)⟩,
    fun size h => hostFault_of_violates h, fun size => hostFault_of_violates trivial, fun hi => ?unwritten⟩
  case write =>
    rw [access_writeIn b hi hbusy]
    exact ⟨rfl, fun a => by simp only [Memory.read?_write, eq_comm]⟩
  case readIn => rw [access_readIn hi hb, toNat_readData_answer_byte]
  case readOut => rw [access_readOut hi hbusy hlen hb, toNat_readData_answer_byte]
  case unwritten =>
    have hlegal : ¬ Violates s (.readIn i 1) := by simp [Violates, hi]
    exact (congrArg State.fault (sameBlock_legalRead rfl hlegal)).symm

/-! ### The framer's read of an unwritten input byte -/

theorem modelFaults_of_commit {i : Instr} {s : State} {r : Except Stop State} {f : ModelFault}
    (hexec : exec i s = commit s r) (hr : r = .error (.fault f)) : ModelFaults i s f := by
  rw [ModelFaults, hexec, hr, commit_fault]
  rfl

/-- R152, R64: the length field of a record. -/
theorem chunkParse_of_unwritten_length {m : Memory} {base n k : Nat} (hn : 4 ≤ n) (hk : k < 4)
    (h : m.read? (base + k) = none) : chunkParse m base n = .error (.fault .uninitInput) := by
  rw [chunkParse, failIf_neg (Nat.not_lt.2 hn), cmd_bind_ok, memRead4_of_unwritten hk h, cmd_bind_error]

/-- R201, R64: the signature of a stream. -/
theorem containerParse_of_unwritten_signature {m : Memory} {n k : Nat} (hn : 8 ≤ n) (hk : k < 8)
    (h : m.read? k = none) : containerParse m n = .error (.fault .uninitInput) := by
  rw [containerParse, checkSignature, failIf_neg (Nat.not_lt.2 hn), cmd_bind_ok,
    memRead_of_unwritten hk (by rwa [Nat.zero_add]), cmd_bind_error, cmd_bind_error]

section
variable {s : State} {k : Nat} (hcap : s.inLen.toNat ≤ s.cfg.inCap) (h : s.inBuf.read? k = none)
include hcap h

/-- R123, R64: a type string. -/
theorem inTypeString_of_unwritten (h4 : s.inLen.toNat = 4) (hk : k < 4) :
    inTypeString s = .error (.fault .uninitInput) := by
  rw [inTypeString, inputLength_of_le hcap, cmd_bind_ok, if_pos h4, memRead4_of_unwritten hk (by rwa [Nat.zero_add])]

/-- R207, R64: a query. -/
theorem query_of_unwritten (h4 : s.inLen.toNat = 4) (hk : k < 4) : query s = .error (.fault .uninitInput) := by
  rw [query, inputLength_of_le hcap, cmd_bind_ok, if_pos h4, memRead4_of_unwritten hk (by rwa [Nat.zero_add]),
    cmd_bind_error]

/-- R153, R64: a payload. -/
theorem inPayload_of_unwritten (hk : k < s.inLen.toNat) : inPayload s = .error (.fault .uninitInput) := by
  rw [inPayload, inputLength_of_le hcap, cmd_bind_ok, memRead_of_unwritten hk (by rwa [Nat.zero_add])]

end

/-- Settles O11: each command comes to the read of that byte, which is the model fault. -/
theorem unwrittenInputByteIsModelFault : Obligations.UnwrittenInputByteIsModelFault := by
  intro s k hcap h
  refine ⟨fun h4 hk => ?strings, fun htr hk => ?payload, fun h4 hk => ?length, fun h8 hk => ?signature⟩
  case strings =>
    have hstring := inTypeString_of_unwritten hcap h h4 hk
    have hquery := query_of_unwritten hcap h h4 hk
    simp only [List.forall_mem_cons]
    exact ⟨modelFaults_of_commit rfl (by rw [hstring, cmd_bind_error]),
      modelFaults_of_commit rfl (by rw [hquery, cmd_bind_error]),
      modelFaults_of_commit rfl (by rw [hquery, cmd_bind_error]), nofun⟩
  case payload =>
    exact modelFaults_of_commit rfl
      (by rw [operandTr_of_valid htr, cmd_bind_ok, inPayload_of_unwritten hcap h hk, cmd_bind_error])
  case length =>
    have hparse : chunkParse s.inBuf 0 s.inLen.toNat = .error (.fault .uninitInput) :=
      chunkParse_of_unwritten_length h4 hk (by rwa [Nat.zero_add])
    exact modelFaults_of_commit rfl (by rw [inputLength_of_le hcap, cmd_bind_ok, hparse, cmd_bind_error])
  case signature =>
    have hparse := containerParse_of_unwritten_signature h8 hk h
    exact modelFaults_of_commit rfl (by rw [inputLength_of_le hcap, cmd_bind_ok, hparse, cmd_bind_error])

/-! ### A command and the outside world -/

/-- The same block in another outside world. -/
def State.withEnv (s : State) (env : Env) : State := { s with env := env }

theorem sameBlock_iff {s t : State} : SameBlock s t ↔ t = s.withEnv t.env := eq_comm

/-- An outcome in another outside world: the same error or model fault, or the same success but for that world. -/
def outcomeWithEnv (env : Env) (r : Except Stop State) : Except Stop State := r.map (·.withEnv env)

/-- A computation that does not look at the outside world, before one that may. -/
theorem outcomeWithEnv_bind {env : Env} {α : Type} {x : Except Stop α} {f f' : α → Except Stop State}
    (h : ∀ a, f' a = outcomeWithEnv env (f a)) : (x >>= f') = outcomeWithEnv env (x >>= f) := by
  cases x with
  | ok a => exact h a
  | error e => rfl

theorem emit_withEnv (s : State) (env : Env) (bs : List Byte) :
    emit (s.withEnv env) bs = outcomeWithEnv env (emit s bs) := outcomeWithEnv_bind fun _ => rfl

/-- R251: to commit such an outcome leaves the same block. -/
theorem sameBlock_of_commit {s t t' : State} {env : Env} {r : Except Stop State} (h : commit s r = .next t)
    (h' : commit (s.withEnv env) (outcomeWithEnv env r) = .next t') : SameBlock t t' := by
  rcases commit_cases h with ⟨u, rfl, rfl⟩ | ⟨e, rfl, rfl⟩ | ⟨f, rfl, rfl⟩ <;>
    (obtain rfl := Host.Outcome.next.inj h'; rfl)

/-- No command looks at the outside world: in another one it has the same outcome. -/
theorem exec_withEnv (i : Instr) (s : State) (env : Env) :
    ∃ r, exec i s = commit s r ∧ exec i (s.withEnv env) = commit (s.withEnv env) (outcomeWithEnv env r) := by
  cases i
  case pngClear => exact ⟨.ok (s.writeCl []), rfl, rfl⟩
  case pngCount => exact ⟨.ok (s.writeResult (word s.cl.length)), rfl, rfl⟩
  case tcFromBytes | tcIsValid | tcIsCritical | tcIsPublic | tcIsReservedBitValid | tcIsSafeToCopy | tcBytes |
      chLength | chCrc | chType =>
    exact ⟨_, rfl, congrArg (commit _) (outcomeWithEnv_bind fun _ => rfl)⟩
  case tcFromString | tcToString | chNew | chParse =>
    exact ⟨_, rfl, congrArg (commit _) (outcomeWithEnv_bind fun _ => outcomeWithEnv_bind fun _ => rfl)⟩
  case pngAppend =>
    exact ⟨_, rfl, congrArg (commit _) (outcomeWithEnv_bind fun _ => outcomeWithEnv_bind fun _ =>
      outcomeWithEnv_bind fun _ => rfl)⟩
  case pngParse =>
    exact ⟨_, rfl, congrArg (commit _) (outcomeWithEnv_bind fun _ => outcomeWithEnv_bind fun _ =>
      outcomeWithEnv_bind fun _ => outcomeWithEnv_bind fun _ => rfl)⟩
  case pngSerialize => exact ⟨_, rfl, congrArg (commit _) (emit_withEnv s env _)⟩
  case chSerialize | chPayload =>
    exact ⟨_, rfl, congrArg (commit _) (outcomeWithEnv_bind fun _ => emit_withEnv s env _)⟩
  case chPayloadAsText =>
    exact ⟨_, rfl, congrArg (commit _) (outcomeWithEnv_bind fun _ => outcomeWithEnv_bind fun _ =>
      emit_withEnv s env _)⟩
  case pngChunkByType | pngRemove =>
    refine ⟨_, rfl, congrArg (commit _) (outcomeWithEnv_bind (x := query s) fun q => ?_)⟩
    simp only [State.withEnv]
    split
    · rfl
    · split <;> rfl
  case pngGet =>
    refine ⟨_, rfl, congrArg (commit _) ?_⟩
    simp only [State.withEnv, argIndex]
    split <;> rfl

/-- Settles O60: the read changes the outside world only, and the command does not look at that. -/
theorem waitingDoesNotChangeTheOutcome : Obligations.WaitingDoesNotChangeTheOutcome := by
  intro i s t t' a hread hlegal ht ht'
  rw [sameBlock_iff.1 (sameBlock_legalRead hread hlegal)] at ht'
  obtain ⟨r, hr, hr'⟩ := exec_withEnv i s (access a s).env
  exact sameBlock_of_commit (hr ▸ ht) (hr' ▸ ht')

end Sys2Proof.Machine
end

section
/-!
PROOFS. The statements of the family 30_encoding: the command words (R80 to R85), the operand forms (R83), the line COPYOUT
(R86), the record (R87), the checksum (R90, R91) and the packing of a type code (R96).
-/
namespace Sys2Proof

/-! ### Command words -/

/-- R81: decode gives back the command of every command word. -/
@[simp] theorem decode_encode (i : Instr) : decode (encode i) = .ok i := by cases i <;> rfl

/-- R84: an opcode that selects a command is the one in that command's word. -/
theorem eq_encode_of_decodeOpcode {opc : Nat} {i : Instr} (h : decodeOpcode opc = some i) : opc = (encode i).toNat := by
  unfold decodeOpcode at h
  split at h <;> cases h <;> rfl

/-- R85: the opcodes that select no command are those of the four reserved ranges. -/
theorem decodeOpcode_eq_none_iff {opc : Nat} (h : opc < 0x100) :
    decodeOpcode opc = none ↔
      opc ≤ 0x0F ∨ (0x19 ≤ opc ∧ opc ≤ 0x1F) ∨ (0x28 ≤ opc ∧ opc ≤ 0x2F) ∨ (0x38 ≤ opc ∧ opc ≤ 0xFF) := by
  unfold decodeOpcode
  split
  case h_26 =>
    simp only [imp_false, true_iff] at *
    omega
  all_goals simp

theorem opcodeField_eq (w : Word) : opcodeField w = w.toNat % 0x100 := by
  simp [opcodeField]

theorem reservedField_eq_zero_iff {w : Word} : reservedField w = 0 ↔ w.toNat < 0x100 := by
  have hw := w.isLt
  simp only [reservedField, BitVec.extractLsb'_toNat, Nat.shiftRight_eq_div_pow]
  omega

/-- R80: a word with a reserved bit set is refused for it. -/
theorem decode_of_reservedBits {w : Word} (h : 0x100 ≤ w.toNat) : decode w = .error .reservedBits :=
  if_neg (mt reservedField_eq_zero_iff.1 (Nat.not_lt.2 h))

/-- R80: a word with its reserved bits clear is decoded by its value, the opcode. -/
theorem decode_of_lt {w : Word} (h : w.toNat < 0x100) :
    decode w = (decodeOpcode w.toNat).elim (.error .reservedOpcode) .ok := by
  rw [decode, if_pos (reservedField_eq_zero_iff.2 h), opcodeField_eq, Nat.mod_eq_of_lt h]
  cases decodeOpcode w.toNat <;> rfl

theorem decode_eq_ok_iff {w : Word} {i : Instr} : decode w = .ok i ↔ w = encode i := by
  refine ⟨fun h => ?_, fun h => h ▸ decode_encode i⟩
  rcases Nat.lt_or_ge w.toNat 0x100 with hw | hw
  · rw [decode_of_lt hw] at h
    cases hop : decodeOpcode w.toNat <;> rw [hop] at h <;> cases h
    exact BitVec.eq_of_toNat_eq (eq_encode_of_decodeOpcode hop)
  · rw [decode_of_reservedBits hw] at h
    cases h

theorem decode_eq_reservedBits_iff {w : Word} : decode w = .error .reservedBits ↔ 0x100 ≤ w.toNat := by
  refine ⟨fun h => Nat.not_lt.1 fun hw => ?_, decode_of_reservedBits⟩
  rw [decode_of_lt hw] at h
  cases hop : decodeOpcode w.toNat <;> rw [hop] at h <;> cases h

theorem decode_eq_reservedOpcode_iff {w : Word} :
    decode w = .error .reservedOpcode ↔ w.toNat < 0x100 ∧ decodeOpcode w.toNat = none := by
  rcases Nat.lt_or_ge w.toNat 0x100 with hw | hw
  · rw [decode_of_lt hw]
    cases decodeOpcode w.toNat <;> simp [hw]
  · simp [decode_of_reservedBits hw, Nat.not_lt.2 hw]

/-- Settles O2: the decoder's three answers, each with the words that have it. -/
theorem decodeAcceptsExactlyTheTable : Obligations.DecodeAcceptsExactlyTheTable := by
  refine ⟨fun w => ⟨fun i => decode_eq_ok_iff, decode_eq_reservedBits_iff, ?_⟩, rfl, rfl, rfl⟩
  rw [decode_eq_reservedOpcode_iff]
  rcases Nat.lt_or_ge w.toNat 0x100 with hw | hw
  · rw [decodeOpcode_eq_none_iff hw, and_iff_right hw]
  · omega

/-- Settles O1: the six command words by `decode_encode`, and the two others by what the decoder refuses. -/
theorem sampleWordsDecode : Obligations.SampleWordsDecode :=
  ⟨decode_encode .tcFromBytes, decode_encode .tcBytes, decode_encode .chNew, decode_encode .chPayloadAsText,
    decode_encode .pngClear, decode_encode .pngGet, decode_eq_reservedBits_iff.2 (by decide),
    decode_eq_reservedOpcode_iff.2 (by decide)⟩

namespace Machine

/-! ### Byte order -/

/-- R12: appending bit vectors, as numbers. -/
theorem toNat_append_eq_add {m n : Nat} (x : BitVec m) (y : BitVec n) :
    (x ++ y).toNat = x.toNat * 2 ^ n + y.toNat := by
  rw [BitVec.toNat_append, ← Nat.shiftLeft_add_eq_or_of_lt y.isLt, Nat.shiftLeft_eq]

/-- Settles O13: the number of `be32`, and the two inverses. -/
theorem typePacking : Obligations.TypePacking := by
  refine ⟨fun t => ?_, bytesBe32_be32, be32_bytesBe32, rfl⟩
  simp only [be32, toNat_append_eq_add]
  omega

/-- R12: a byte of a number in a register. -/
theorem extractLsb'_word (n k : Nat) (hk : k + 8 ≤ 32) : (word n).extractLsb' k 8 = BitVec.ofNat 8 (n / 2 ^ k) := by
  apply BitVec.eq_of_getLsbD_eq
  intro i hi
  rw [BitVec.getLsbD_extractLsb', word, BitVec.getLsbD_ofNat, BitVec.getLsbD_ofNat, Nat.testBit_div_two_pow]
  simp [hi, show k + i < 32 by omega, Nat.add_comm]

/-- R87: the first 8 bytes of a record, the payload, and the CRC. -/
theorem record_eq (c : Chunk) :
    record c = (bytesBe32 (word c.payload.length)).toList ++ c.type.toList ++
      (c.payload ++ (bytesBe32 (chunkCrc c)).toList) := by
  simp [record]

/-- Settles O19: the record is its 8-byte header, the payload and the 4 bytes of the CRC, one after the other. -/
theorem recordLayout : Obligations.RecordLayout := by
  intro c _
  have hheader : ((bytesBe32 (word c.payload.length)).toList ++ c.type.toList).length = 8 := rfl
  refine ⟨record_length c, ?_, fun k hk => ?_, ?_⟩
  · rw [record_eq, List.take_left' hheader]
    simp [bytesBe32, Bytes4.toList, extractLsb'_word]
  · rw [record_eq, List.getElem?_append_right (by omega), hheader, Nat.add_sub_cancel_left,
      List.getElem?_append_left hk]
  · rw [record_eq, ← List.drop_drop, List.drop_left' hheader, List.drop_left]
    rfl

/-! ### The checksum -/

/-- R90: after an inner step, bit 31 is the bit that was shifted out, since bit 31 of the polynomial is 1. -/
theorem getLsbD_crcBit_31 (c : Word) : (crcBit c).getLsbD 31 = c.getLsbD 0 := by
  unfold crcBit
  cases c.getLsbD 0 <;> simp

/-- R90: below bit 31, an inner step shifts, and XORs the polynomial where the bit shifted out is 1. -/
theorem crcBit_eq (c : Word) : crcBit c = (c >>> 1) ^^^ (if c.getLsbD 0 then 0xEDB88320#32 else 0) := by
  unfold crcBit
  split <;> simp

/-- R90: an inner step loses nothing: bit 31 tells the bit that was shifted out, and with it the rest. -/
theorem crcBit_injective : Function.Injective crcBit := by
  intro c d h
  have hlow : c.getLsbD 0 = d.getLsbD 0 := by rw [← getLsbD_crcBit_31, h, getLsbD_crcBit_31]
  have hhigh : c >>> 1 = d >>> 1 := by
    rw [crcBit_eq, crcBit_eq, hlow] at h
    exact (BitVec.xor_left_inj _).1 h
  refine BitVec.eq_of_getLsbD_eq fun i _ => ?_
  cases i with
  | zero => exact hlow
  | succ i => simpa [Nat.add_comm] using congrArg (·.getLsbD i) hhigh

theorem repeat_injective {α : Type} {f : α → α} (hf : Function.Injective f) (n : Nat) :
    Function.Injective (Nat.repeat f n) := by
  induction n with
  | zero => exact Function.injective_id
  | succ n ih => exact hf.comp ih

theorem setWidth_byte_injective : Function.Injective fun b : Byte => b.setWidth 32 := by
  intro a b h
  simpa using congrArg (·.setWidth 8) h

theorem crcByte_injective_left (b : Byte) : Function.Injective (crcByte · b) := fun _ _ h =>
  (BitVec.xor_left_inj _).1 (repeat_injective crcBit_injective 8 h)

theorem crcByte_injective_right (c : Word) : Function.Injective (crcByte c) := fun _ _ h =>
  setWidth_byte_injective ((BitVec.xor_right_inj _).1 (repeat_injective crcBit_injective 8 h))

/-- R90: the bytes of a sequence keep two checksums apart. -/
theorem foldl_crcByte_injective (q : List Byte) : Function.Injective fun c => q.foldl crcByte c := by
  induction q with
  | nil => exact Function.injective_id
  | cons b q ih => exact ih.comp (crcByte_injective_left b)

/-- Settles O21: the byte that differs gives two checksums, and the bytes after it keep them apart. -/
theorem oneChangedByteChangesTheCrc : Obligations.OneChangedByteChangesTheCrc := by
  intro p q a b hab h
  have hfold := (BitVec.xor_left_inj _).1 h
  rw [List.foldl_append, List.foldl_append] at hfold
  exact hab (crcByte_injective_right _ (foldl_crcByte_injective q hfold))

/-- Settles O20, by evaluating the checksum. -/
theorem crcCheckValues : Obligations.CrcCheckValues := ⟨by decide +kernel, by decide +kernel⟩

/-! ### Runs -/

/-- Some number of steps leads from `s` to `t`. -/
def RunsTo : State → State → Prop := Relation.ReflTransGen fun s t => step s = .next t

theorem RunsTo.exists_run {s t : State} (h : RunsTo s t) : ∃ k, Host.Core.run Sys2Proof.core k s = .next t := by
  induction h using Relation.ReflTransGen.head_induction_on with
  | refl => exact ⟨0, rfl⟩
  | @head s u hstep _ ih =>
    obtain ⟨k, hk⟩ := ih
    have hcore : Sys2Proof.core.step s = .next u := hstep
    exact ⟨k + 1, by simpa only [Host.Core.run, hcore] using hk⟩

theorem RunsTo.trans {s t u : State} (hst : RunsTo s t) (htu : RunsTo t u) : RunsTo s u :=
  Relation.ReflTransGen.trans hst htu

/-- With no command pending, the host's next event is the next step. -/
theorem runsTo_hostEvent {s t : State} {e : HostEvent} {rest : List HostEvent} (hidle : s.pending = none)
    (hscript : s.env.script = e :: rest) (ht : hostEvent e rest s = t) : RunsTo s t :=
  .single (by rw [step_eq_hostStep (.inl hidle), hostStep_cons hscript, ht])

/-! ### COPYOUT -/

/-- R44: with no command pending, BUSY is 0. -/
theorem Inv.busy_eq_false {s : State} (h : Inv s) (hidle : s.pending = none) : s.status.busy = false := by
  rw [h.busy, hidle, Option.isSome_none]

/-- R86: the two events of COPYOUT that copy one byte. -/
def copyByteEvents (i : Nat) : List HostEvent := [.access (.readOut i 1), .storeRead i]

theorem copyEvents_eq (k : Nat) :
    copyEvents k = (List.range k).flatMap copyByteEvents ++ [writeOf .inLen (word k)] := rfl

/-- R86, log 10: the host writes the byte that its last read returned to IN. -/
theorem hostEvent_storeRead {s : State} {i : Nat} {b : Byte} (rest : List HostEvent) (hin : i < s.cfg.inCap)
    (hbusy : s.status.busy = false) (hb : s.env.readData = b.setWidth 32) :
    hostEvent (.storeRead i) rest s = { s.advance rest with inBuf := s.inBuf.write i b } := by
  have hbyte : s.env.readData.setWidth 8 = b := by simp [hb]
  have hwrite := access_writeIn (s := s.advance rest) b hin hbusy
  rwa [← hbyte] at hwrite ⊢

/-- R86: the host reads a byte of the output and writes it to IN at the same index. -/
theorem runsTo_copyByte {s : State} {i : Nat} {b : Byte} {rest : List HostEvent} (hidle : s.pending = none)
    (hbusy : s.status.busy = false) (hin : i < s.cfg.inCap) (hout : i < s.cfg.outCap) (hlen : i < s.outLen.toNat)
    (hb : s.outBuf.read? i = some b) (hscript : s.env.script = copyByteEvents i ++ rest) :
    ∃ env, env.script = rest ∧ RunsTo s { s with inBuf := s.inBuf.write i b, env := env } := by
  have hread : RunsTo s ((s.advance (.storeRead i :: rest)).answer (b.setWidth 32)) :=
    runsTo_hostEvent hidle hscript (access_readOut hout hbusy hlen hb)
  refine ⟨_, ?_, hread.trans (runsTo_hostEvent hidle rfl (hostEvent_storeRead rest hin hbusy rfl))⟩
  rfl

/-- R86: the host copies the first `n` bytes of the output. -/
theorem runsTo_copyBytes {s : State} (hs : Inv s) (hidle : s.pending = none) (hfits : s.outLen.toNat ≤ s.cfg.inCap)
    {n : Nat} (hn : n ≤ s.outLen.toNat) (rest : List HostEvent)
    (hscript : s.env.script = (List.range n).flatMap copyByteEvents ++ rest) :
    ∃ m env, env.script = rest ∧ RunsTo s { s with inBuf := m, env := env } ∧
      ∀ i, Memory.read? m i = if i < n then s.outBuf.read? i else s.inBuf.read? i := by
  induction n generalizing rest with
  | zero => exact ⟨s.inBuf, s.env, hscript, .refl, fun i => by simp⟩
  | succ n ih =>
    have hscript' : s.env.script = (List.range n).flatMap copyByteEvents ++ (copyByteEvents n ++ rest) := by
      rw [hscript, List.range_succ, List.flatMap_append, List.append_assoc, List.flatMap_singleton]
    obtain ⟨m, env, hrest, hrun, hm⟩ := ih (by omega) _ hscript'
    have hbusy := hs.busy_eq_false hidle
    have hcap := hs.outFits
    obtain ⟨b, hb⟩ : ∃ b, s.outBuf.read? n = some b := by
      rw [← Option.isSome_iff_exists, hs.outExtent, decide_eq_true_eq]
      omega
    obtain ⟨env', hrest', hrun'⟩ := runsTo_copyByte (s := { s with inBuf := m, env := env }) hidle hbusy
      (show n < s.cfg.inCap by omega) (show n < s.cfg.outCap by omega) hn hb hrest
    refine ⟨m.write n b, env', hrest', hrun.trans hrun', fun i => ?_⟩
    rw [Memory.read?_write, hm]
    rcases Nat.lt_trichotomy i n with h | rfl | h
    · simp [h, Nat.ne_of_gt h, Nat.lt_succ_of_lt h]
    · simp [hb]
    · simp [Nat.ne_of_lt h, Nat.not_lt_of_gt h, show ¬ i < n + 1 by omega]

/-- R86: the host reads OUT_LEN and takes it as the count of bytes to copy. -/
theorem runsTo_copyLoop {s : State} (hidle : s.pending = none) (hbusy : s.status.busy = false)
    (hscript : s.env.script = expandLine .copyOut) :
    ∃ env, env.script = copyEvents s.outLen.toNat ∧ RunsTo s { s with env := env } := by
  have hread : RunsTo s ((s.advance [.copyLoop]).answer s.outLen) :=
    runsTo_hostEvent hidle hscript (access_readReg (r := .outLen) (.inl hbusy))
  refine ⟨_, ?_, hread.trans (runsTo_hostEvent hidle rfl rfl)⟩
  exact List.append_nil _

/-- Settles O53: the host reads OUT_LEN (`runsTo_copyLoop`), copies that many bytes (`runsTo_copyBytes`), and sets
IN_LEN. -/
theorem copyOutLineCopiesTheOutput : Obligations.CopyOutLineCopiesTheOutput := by
  intro s hs _ hidle hfits hscript
  have hbusy := hs.busy_eq_false hidle
  obtain ⟨env, hevents, hloop⟩ := runsTo_copyLoop hidle hbusy hscript
  rw [copyEvents_eq, word_toNat] at hevents
  obtain ⟨m, env', hrest, hbytes, hm⟩ := runsTo_copyBytes (hs.withEnv env) hidle hfits le_rfl _ hevents
  have hlen := runsTo_hostEvent (s := { s with inBuf := m, env := env' }) hidle hrest
    (access_writeInLen s.outLen hbusy)
  obtain ⟨k, hk⟩ := (hloop.trans (hbytes.trans hlen)).exists_run
  exact ⟨k, _, hk, rfl, rfl, hm⟩

/-! ### The same operands -/

/-- A sequence goes on alike where its second part does so on the first part's answer. -/
theorem cmd_bind_congr {α β : Type} {x : Except Stop α} {f f' : α → Except Stop β}
    (h : ∀ a, x = .ok a → f' a = f a) : (x >>= f') = (x >>= f) := by
  cases x with
  | ok a => exact h a rfl
  | error e => rfl

section
variable {s s' : State}

theorem operandTr_congr (h : SameSource .tr s s') : operandTr s' = operandTr s := by
  obtain ⟨htr, hvalid⟩ := h
  rw [operandTr, operandTr, htr, hvalid]

theorem operandCr_congr (h : SameSource .cr s s') : operandCr s' = operandCr s := by
  obtain ⟨hcr, hvalid⟩ := h
  rw [operandCr, operandCr, hcr, hvalid]

variable (hcfg : s'.cfg = s.cfg) (h : SameSource .input s s')
include hcfg h

theorem inputLength_congr : inputLength s' = inputLength s := by
  rw [inputLength, inputLength, h.1, hcfg]

/-- R83: what a command reads after IN_LEN is the same where it reads only below IN_LEN (R65). -/
theorem inputLength_bind_congr {α : Type} {f f' : Nat → Except Stop α}
    (hf : (∀ a < s.inLen.toNat, s'.inBuf.read? a = s.inBuf.read? a) → f' s.inLen.toNat = f s.inLen.toNat) :
    (inputLength s' >>= f') = (inputLength s >>= f) := by
  rw [inputLength_congr hcfg h]
  refine cmd_bind_congr fun n hn => ?_
  obtain ⟨rfl, -⟩ := inputLength_eq_ok hn
  exact hf h.2

theorem inPayload_congr : inPayload s' = inPayload s :=
  inputLength_bind_congr hcfg h fun hbytes => memRead_congr fun i hi => hbytes (0 + i) (by omega)

theorem inTypeString_congr : inTypeString s' = inTypeString s :=
  inputLength_bind_congr hcfg h fun hbytes => by
    split
    · exact memRead4_congr fun i hi => hbytes (0 + i) (by omega)
    · rfl

theorem query_congr : query s' = query s :=
  inputLength_bind_congr hcfg h fun hbytes => by
    split
    · rw [memRead4_congr fun i hi => hbytes (0 + i) (by omega)]
    · rfl

end

/-! ### The same outcome -/

/-- `u` is `s` and `u'` is `s'` after the same writes, one after the other. -/
inductive SameWrites (s s' : State) : State → State → Prop where
  | nothing : SameWrites s s' s s'
  | tr {u u' : State} (t : TypeCode) (h : SameWrites s s' u u') : SameWrites s s' (u.writeTr t) (u'.writeTr t)
  | cr {u u' : State} (c : Chunk) (h : SameWrites s s' u u') : SameWrites s s' (u.writeCr c) (u'.writeCr c)
  | cl {u u' : State} (l : List Chunk) (h : SameWrites s s' u u') : SameWrites s s' (u.writeCl l) (u'.writeCl l)
  | result {u u' : State} (v : Word) (h : SameWrites s s' u u') :
      SameWrites s s' (u.writeResult v) (u'.writeResult v)
  | aux {u u' : State} (v : Word) (h : SameWrites s s' u u') : SameWrites s s' (u.writeAux v) (u'.writeAux v)
  | out {u u' : State} (bs : List Byte) (h : SameWrites s s' u u') : SameWrites s s' (u.writeOut bs) (u'.writeOut bs)

section
variable {s s' u u' : State} (h : SameWrites s s' u u')
include h

/-- No write of a command touches FAULT. -/
theorem SameWrites.fault : u.fault = s.fault ∧ u'.fault = s'.fault := by
  induction h with
  | nothing => exact ⟨rfl, rfl⟩
  | tr _ _ ih | cr _ _ ih | cl _ _ ih | result _ _ ih | aux _ _ ih | out _ _ ih => exact ih

/-- The part that a write names is the same after it, and the other parts are what they were. -/
theorem SameWrites.agree (p : Part) : AgreeOn p u u' ∨ (AgreeOn p s u ∧ AgreeOn p s' u') := by
  induction h with
  | nothing => exact .inr ⟨agreeOn_refl p s, agreeOn_refl p s'⟩
  | tr _ _ ih =>
    cases p
    case tr => exact .inl ⟨rfl, rfl⟩
    all_goals exact ih
  | cr _ _ ih =>
    cases p
    case cr => exact .inl ⟨rfl, rfl⟩
    all_goals exact ih
  | cl _ _ ih =>
    cases p
    case cl => exact .inl rfl
    all_goals exact ih
  | result _ _ ih =>
    cases p
    case result => exact .inl rfl
    all_goals exact ih
  | aux _ _ ih =>
    cases p
    case aux => exact .inl rfl
    all_goals exact ih
  | out _ _ ih =>
    cases p
    case out => exact .inl ⟨rfl, fun _ => rfl⟩
    all_goals exact ih

end

/-- Two computations, from `s` and from `s'`, that end alike: with the same error or model fault, or with the same
writes. -/
inductive SameOutcome (s s' : State) : Except Stop State → Except Stop State → Prop where
  | error (e : Stop) : SameOutcome s s' (.error e) (.error e)
  | ok {u u' : State} (h : SameWrites s s' u u') : SameOutcome s s' (.ok u) (.ok u')

/-- Computations end alike that begin alike and go on alike. -/
theorem SameOutcome.bind {s s' : State} {α : Type} {x x' : Except Stop α} {f f' : α → Except Stop State}
    
    (hx : x' = x) (hf : ∀ a, x = .ok a → SameOutcome s s' (f a) (f' a)) :
    SameOutcome s s' (x >>= f) (x' >>= f') := by
  subst hx
  cases x' with
  | ok a => exact hf a rfl
  | error e => exact .error e

theorem sameOutcome_emit {s s' : State} (hcfg : s'.cfg = s.cfg) (bs : List Byte) :
    SameOutcome s s' (emit s bs) (emit s' bs) :=
  .bind (by rw [hcfg]) fun _ _ => .ok (.out bs .nothing)

/-- R83: from states with the same operands and parameters, a command's computations end alike. -/
theorem exec_sameOutcome {i : Instr} {s s' : State} (hcfg : s'.cfg = s.cfg)
    (h : ∀ x ∈ readsOf i, SameSource x s s') :
    ∃ r r', exec i s = commit s r ∧ exec i s' = commit s' r' ∧ SameOutcome s s' r r' := by
  cases i
  case tcFromBytes =>
    have harg : s'.arg = s.arg := h .arg (by decide)
    exact ⟨_, _, rfl, rfl, .bind (by rw [argType, argType, harg]) fun t _ => .ok (.tr t .nothing)⟩
  case tcFromString =>
    exact ⟨_, _, rfl, rfl, .bind (inTypeString_congr hcfg (h .input (by decide))) fun _ _ =>
      .bind rfl fun _ _ => .ok (.tr _ .nothing)⟩
  case tcIsValid | tcIsCritical | tcIsPublic | tcIsReservedBitValid | tcIsSafeToCopy | tcBytes =>
    exact ⟨_, _, rfl, rfl, .bind (operandTr_congr (h .tr (by decide))) fun _ _ => .ok (.result _ .nothing)⟩
  case tcToString =>
    exact ⟨_, _, rfl, rfl, .bind (operandTr_congr (h .tr (by decide))) fun _ _ => .bind rfl fun _ _ =>
      .ok (.out _ .nothing)⟩
  case chNew =>
    exact ⟨_, _, rfl, rfl, .bind (operandTr_congr (h .tr (by decide))) fun _ _ =>
      .bind (inPayload_congr hcfg (h .input (by decide))) fun _ _ => .ok (.cr _ .nothing)⟩
  case chParse =>
    have hinput := h .input (by decide)
    refine ⟨_, _, rfl, rfl, .bind (inputLength_congr hcfg hinput) fun n hn => ?_⟩
    obtain ⟨rfl, -⟩ := inputLength_eq_ok hn
    exact .bind (chunkParse_congr fun i hi => hinput.2 (0 + i) (by omega)) fun _ _ =>
      .ok (.aux _ (.result _ (.cr _ .nothing)))
  case chSerialize | chPayload =>
    exact ⟨_, _, rfl, rfl, .bind (operandCr_congr (h .cr (by decide))) fun _ _ => sameOutcome_emit hcfg _⟩
  case chPayloadAsText =>
    exact ⟨_, _, rfl, rfl, .bind (operandCr_congr (h .cr (by decide))) fun _ _ => .bind rfl fun _ _ =>
      sameOutcome_emit hcfg _⟩
  case chLength | chCrc =>
    exact ⟨_, _, rfl, rfl, .bind (operandCr_congr (h .cr (by decide))) fun _ _ => .ok (.result _ .nothing)⟩
  case chType =>
    exact ⟨_, _, rfl, rfl, .bind (operandCr_congr (h .cr (by decide))) fun _ _ => .ok (.result _ (.tr _ .nothing))⟩
  case pngClear => exact ⟨_, _, rfl, rfl, .ok (.cl _ .nothing)⟩
  case pngParse =>
    have hinput := h .input (by decide)
    refine ⟨_, _, rfl, rfl, .bind (inputLength_congr hcfg hinput) fun n hn => ?_⟩
    obtain ⟨rfl, -⟩ := inputLength_eq_ok hn
    rw [hcfg]
    exact .bind (containerParse_congr hinput.2) fun _ _ => .bind rfl fun _ _ => .bind rfl fun _ _ =>
      .ok (.result _ (.cl _ .nothing))
  case pngSerialize =>
    have hcl : s'.cl = s.cl := h .cl (by decide)
    exact ⟨_, _, rfl, rfl, hcl ▸ sameOutcome_emit hcfg _⟩
  case pngAppend =>
    have hcl : s'.cl = s.cl := h .cl (by decide)
    refine ⟨_, _, rfl, rfl, .bind (operandCr_congr (h .cr (by decide))) fun c _ => ?_⟩
    rw [hcl, hcfg]
    exact .bind rfl fun _ _ => .bind rfl fun _ _ => .ok (.result _ (.cl _ .nothing))
  case pngChunkByType =>
    have hcl : s'.cl = s.cl := h .cl (by decide)
    refine ⟨_, _, rfl, rfl, .bind (query_congr hcfg (h .input (by decide))) fun q _ => ?_⟩
    rw [hcl]
    split
    · exact .ok (.aux _ (.result _ .nothing))
    · split
      · exact .ok (.aux _ (.result _ (.cr _ .nothing)))
      · exact .ok (.aux _ (.result _ .nothing))
  case pngRemove =>
    have hcl : s'.cl = s.cl := h .cl (by decide)
    have hinput := h .input (by decide)
    refine ⟨_, _, rfl, rfl, .bind (query_congr hcfg hinput) fun q _ => ?_⟩
    rw [hcl, chunkNotFound, chunkNotFound, hinput.1]
    split
    · exact .error _
    · split
      · exact .ok (.aux _ (.result _ (.cl _ (.cr _ .nothing))))
      · exact .error _
  case pngCount =>
    have hcl : s'.cl = s.cl := h .cl (by decide)
    refine ⟨.ok (s.writeResult _), .ok (s'.writeResult _), rfl, rfl, ?_⟩
    rw [hcl]
    exact .ok (.result _ .nothing)
  case pngGet =>
    have hcl : s'.cl = s.cl := h .cl (by decide)
    have harg : s'.arg = s.arg := h .arg (by decide)
    refine ⟨_, _, rfl, rfl, ?_⟩
    rw [argIndex, argIndex, hcl, harg]
    split
    · exact .ok (.cr _ .nothing)
    · exact .error _

theorem agreeOn_recordFault (p : Part) (s : State) (f : ModelFault) : AgreeOn p s (s.recordFault f) := by
  cases p <;> simp [AgreeOn]

/-- A recorded model fault leaves FAULT not empty. -/
theorem not_noFault_recordFault (s : State) (f : ModelFault) : ¬ NoFault (s.recordFault f) := by
  cases f <;> simp [NoFault, FaultSet.add]

/-- Settles O59: the computations end alike (`exec_sameOutcome`), and so the commits of their outcomes show the same. -/
theorem commandsReadOnlyTheirOperands : Obligations.CommandsReadOnlyTheirOperands := by
  intro i s s' t t' hs hs' hcfg hsame ht ht'
  have hfault : s'.fault = s.fault := hs'.trans hs.symm
  obtain ⟨r, r', hr, hr', hout⟩ := exec_sameOutcome hcfg hsame
  rw [hr] at ht
  rw [hr'] at ht'
  cases hout with
  | @ok u u' hw =>
    obtain rfl := Host.Outcome.next.inj ht
    obtain rfl := Host.Outcome.next.inj ht'
    obtain ⟨hu, hu'⟩ := hw.fault
    refine ⟨hu'.trans (hfault.trans hu.symm), fun _ => ⟨rfl, rfl, rfl, rfl, rfl, rfl, rfl⟩, fun p => ?_⟩
    have hagree := hw.agree p
    cases p <;> exact hagree
  | error e =>
    cases e with
    | raise e =>
      obtain rfl := Host.Outcome.next.inj ht
      obtain rfl := Host.Outcome.next.inj ht'
      exact ⟨hfault, fun _ => ⟨rfl, rfl, rfl, rfl, rfl, rfl, rfl⟩,
        fun p => .inr ⟨agreeOn_completeErr p s e, agreeOn_completeErr p s' e⟩⟩
    | fault f =>
      obtain rfl := Host.Outcome.next.inj ht
      obtain rfl := Host.Outcome.next.inj ht'
      exact ⟨congrArg (·.add f) hfault, fun hn => absurd hn (not_noFault_recordFault s f),
        fun p => .inr ⟨agreeOn_recordFault p s f, agreeOn_recordFault p s' f⟩⟩

end Machine
end Sys2Proof
end

section
/-!
PROOFS. The statements of the family 41_type_code: the two constructors (R122, R123), the predicates (R125 to R129) and
the accessors (R130, R131) of a type code, and the register TR between them.
-/
namespace Sys2Proof.Machine

/-! ### From what a command computes to a claim about it -/

section
variable {i : Instr} {s : State} {r : Except Stop State}

theorem succeeds_of_commit {u : State} {w : List Part} {post : State → Prop} (hexec : exec i s = commit s r)
    (hr : r = .ok u) (hw : WritesOnly w s u) (hpost : post u.completeOk) : Succeeds i s w post :=
  succeeds_of (by rw [hexec, hr, commit_ok]) hw hpost

theorem failsWith_of_commit {e : ErrorInfo} (hexec : exec i s = commit s r) (hr : r = .error (.raise e)) :
    FailsWith i s e :=
  failsWith_of (by rw [hexec, hr, commit_raise])

end

theorem writesOnly_writeTr (s : State) (t : TypeCode) : WritesOnly [.tr] s (s.writeTr t) := by
  refine ⟨rfl, fun p hp => ?_⟩
  cases p <;> simp_all [AgreeOn]

theorem writesOnly_writeResult (s : State) (v : Word) : WritesOnly [.result] s (s.writeResult v) := by
  refine ⟨rfl, fun p hp => ?_⟩
  cases p <;> simp_all [AgreeOn]

theorem writesOnly_writeOut (s : State) (bs : List Byte) : WritesOnly [.out] s (s.writeOut bs) := by
  refine ⟨rfl, fun p hp => ?_⟩
  cases p <;> simp_all [AgreeOn]

/-! ### Construction (R121 to R123) -/

/-- R121 to R123: a command that ends with `from_bytes` of `q` takes `q` into TR, or names its first bad byte. -/
theorem construction_result {i : Instr} {s : State} {q : Bytes4}
    (hexec : exec i s = commit s (do let t ← fromBytes q; return s.writeTr t)) :
    ((∀ b ∈ q.toList, alphabetic b = true) →
      Succeeds i s [.tr] fun u => u.tr = q ∧ u.status.trValid = true) ∧
    (∀ k b, q.toList[k]? = some b → alphabetic b = false → (∀ c ∈ q.toList.take k, alphabetic c = true) →
      FailsWith i s { kind := .invalidTypeBytes, a := be32 q, b := word k }) := by
  refine ⟨fun halpha => ?_, fun k b hb hbad hbefore => ?_⟩
  · have hr : fromBytes q = .ok q := fromBytes_of_constructible (constructible_iff.2 halpha)
    exact succeeds_of_commit hexec (by rw [hr, cmd_bind_ok, cmd_pure]) (writesOnly_writeTr s q) ⟨rfl, rfl⟩
  · have hr := fromBytes_of_bad (firstBadIndex_of hb hbad hbefore)
    exact failsWith_of_commit hexec (by rw [hr, cmd_bind_error])

/-- Settles O14: R121 for the 4 bytes of ARG, which pack to ARG again. -/
theorem tcFromBytesResult : Obligations.TcFromBytesResult := by
  refine ⟨decode_encode .tcFromBytes, fun s => ?_⟩
  obtain ⟨hok, hbad⟩ := construction_result (i := .tcFromBytes) (s := s) (q := argType s) rfl
  rw [argType, be32_bytesBe32] at hbad
  exact ⟨hok, hbad⟩

/-- R123: an input of other than 4 bytes is no type string, and none of it is read. -/
theorem inTypeString_of_other_length {s : State} (hcap : s.inLen.toNat ≤ s.cfg.inCap) (h4 : s.inLen.toNat ≠ 4) :
    inTypeString s = .error (.raise { kind := .invalidTypeString, a := s.inLen }) := by
  rw [inTypeString, inputLength_of_le hcap, cmd_bind_ok, if_neg h4, word_toNat, raise_eq]

theorem inTypeString_of_inputIs {s : State} {q : Bytes4} (h : InputIs s q.toList) : inTypeString s = .ok q := by
  obtain ⟨hlen, hread⟩ := reads_of_inputIs4 h
  rw [inTypeString, hlen, cmd_bind_ok, if_pos rfl, hread]

/-- R256, kind 0: the error names IN_LEN itself, which is a register's value. -/
theorem capacityError_inLen (s : State) :
    capacityError 0 s.inLen.toNat s.cfg.inCap =
      { kind := .capacityExceeded, a := s.inLen, b := word s.cfg.inCap } := by
  rw [capacityError, sat32_of_lt s.inLen.isLt, word_toNat]

/-- Settles O15: the length checks of `inTypeString`, then R121 for the 4 input bytes. -/
theorem tcFromStringResult : Obligations.TcFromStringResult := by
  refine ⟨decode_encode .tcFromString, fun s => ⟨fun hcap => ?capacity, fun hcap h4 => ?length, fun t hin => ?bytes,
    fun k hk h4 hcap hnone => ?unwritten⟩⟩
  case capacity =>
    exact failsWith_of_commit rfl
      (by rw [inTypeString, inputLength_of_lt hcap, cmd_bind_error, cmd_bind_error, capacityError_inLen])
  case length =>
    exact failsWith_of_commit rfl (by rw [inTypeString_of_other_length hcap h4, cmd_bind_error])
  case bytes =>
    have hexec : exec .tcFromString s = commit s (do let t ← fromBytes t; return s.writeTr t) := by
      rw [exec, execTcFromString, inTypeString_of_inputIs hin, cmd_bind_ok]
    exact construction_result hexec
  case unwritten =>
    exact modelFaults_of_commit rfl (by rw [inTypeString_of_unwritten hcap hnone h4 hk, cmd_bind_error])

/-! ### Reading TR (R125 to R131) -/

section
variable {i : Instr} {s : State}

/-- R257: a command that begins by reading TR is refused while TR_VALID = 0. -/
theorem failsWith_noTypeOperand {f : TypeCode → Except Stop State} (hexec : exec i s = commit s (operandTr s >>= f))
    (htr : s.status.trValid = false) : FailsWith i s { kind := .noTypeOperand } :=
  failsWith_of_commit hexec (by rw [operandTr_of_invalid htr, cmd_bind_error])

/-- A command whose rule is `RESULT <- g(TR)`. -/
theorem succeeds_writeResult_of_tr {g : TypeCode → Word} {post : State → Prop}
    (hexec : exec i s = commit s (do let t ← operandTr s; return s.writeResult (g t)))
    (htr : s.status.trValid = true) (hpost : post (s.writeResult (g s.tr)).completeOk) :
    Succeeds i s [.result] post :=
  succeeds_of_commit hexec (by rw [operandTr_of_valid htr, cmd_bind_ok, cmd_pure]) (writesOnly_writeResult s _) hpost

end

/-- R13: among the alphabetic bytes, `upper` is the first letter range. -/
theorem upper_eq_of_alphabetic {b : Byte} (h : alphabetic b = true) :
    upper b = (decide (0x41 ≤ b.toNat) && decide (b.toNat ≤ 0x5A)) := by
  rw [Bool.eq_iff_iff, upper_iff_le_of_alphabetic h, Bool.and_eq_true, decide_eq_true_iff, decide_eq_true_iff]
  rcases alphabetic_iff.1 h with hupper | hlower <;> omega

/-- R13: among the alphabetic bytes, `lower` is the second letter range. -/
theorem lower_eq_of_alphabetic {b : Byte} (h : alphabetic b = true) :
    lower b = (decide (0x61 ≤ b.toNat) && decide (b.toNat ≤ 0x7A)) := by
  rw [Bool.eq_iff_iff, lower_iff_le_of_alphabetic h, Bool.and_eq_true, decide_eq_true_iff, decide_eq_true_iff]
  rcases alphabetic_iff.1 h with hupper | hlower <;> omega

theorem alphabetic_of_forall_mem_toList {t : Bytes4} (h : ∀ b ∈ t.toList, alphabetic b = true) :
    alphabetic t.b0 = true ∧ alphabetic t.b1 = true ∧ alphabetic t.b2 = true ∧ alphabetic t.b3 = true := by
  simpa [Bytes4.toList] using h

/-- R124: validity by the letter ranges. -/
theorem isValid_iff_range {t : TypeCode} :
    isValid t = true ↔ (∀ b ∈ t.toList, alphabetic b = true) ∧
      (decide (0x41 ≤ t.b2.toNat) && decide (t.b2.toNat ≤ 0x5A)) = true := by
  rw [isValid_iff, constructible_iff]
  refine and_congr_right fun h => ?_
  obtain ⟨-, -, h2, -⟩ := alphabetic_of_forall_mem_toList h
  rw [upper_eq_of_alphabetic h2]

/-- R28: a predicate's result. -/
theorem boolWord_eq_ite {p : Bool} {q : Prop} [Decidable q] (h : p = true ↔ q) : boolWord p = if q then 1 else 0 :=
  if_congr h rfl rfl

/-- Settles O16: each predicate writes its bit to RESULT, and the bit is R13's letter range. -/
theorem typePredicates : Obligations.TypePredicates := by
  refine ⟨decode_encode .tcIsValid, decode_encode .tcIsCritical, decode_encode .tcIsPublic,
    decode_encode .tcIsReservedBitValid, decode_encode .tcIsSafeToCopy, fun s => ?_⟩
  intro isUpper isLower
  refine ⟨fun htr => ?valid, fun htr halpha => ?letters, fun htr => ?refused⟩
  case valid =>
    exact succeeds_writeResult_of_tr rfl htr (boolWord_eq_ite isValid_iff_range)
  case letters =>
    obtain ⟨h0, h1, h2, h3⟩ := alphabetic_of_forall_mem_toList halpha
    exact ⟨succeeds_writeResult_of_tr rfl htr (congrArg boolWord (upper_eq_of_alphabetic h0)),
      succeeds_writeResult_of_tr rfl htr (congrArg boolWord (upper_eq_of_alphabetic h1)),
      succeeds_writeResult_of_tr rfl htr (congrArg boolWord (upper_eq_of_alphabetic h2)),
      succeeds_writeResult_of_tr rfl htr (congrArg boolWord (lower_eq_of_alphabetic h3))⟩
  case refused =>
    simp only [List.forall_mem_cons]
    exact ⟨failsWith_noTypeOperand rfl htr, failsWith_noTypeOperand rfl htr, failsWith_noTypeOperand rfl htr,
      failsWith_noTypeOperand rfl htr, failsWith_noTypeOperand rfl htr, nofun⟩

theorem constructible_eq_false_of_mem {t : Bytes4} {b : Byte} (hb : b ∈ t.toList) (hbad : alphabetic b = false) :
    constructible t = false :=
  Bool.eq_false_iff.2 fun hc => Bool.eq_false_iff.1 hbad (constructible_iff.1 hc b hb)

/-- Settles O17: the check of TC_TO_STRING, its output, and the number of `be32` for TC_BYTES. -/
theorem typeAccessors : Obligations.TypeAccessors := by
  refine ⟨decode_encode .tcToString, decode_encode .tcBytes, fun s =>
    ⟨fun htr => ⟨fun halpha => ?text, ?nonUtf8, ?bytes⟩, fun htr => ?refused⟩⟩
  case text =>
    have hc : constructible s.tr ≠ false := ne_false_of_eq_true (constructible_iff.2 halpha)
    exact succeeds_of_commit rfl (by rw [operandTr_of_valid htr, cmd_bind_ok, failIf_neg hc, cmd_bind_ok, cmd_pure])
      (writesOnly_writeOut s s.tr.toList) (outIs_writeOut (by simp))
  case nonUtf8 =>
    rintro ⟨b, hb, hbad⟩
    exact failsWith_of_commit rfl (by rw [operandTr_of_valid htr, cmd_bind_ok,
      failIf_pos (constructible_eq_false_of_mem hb hbad), cmd_bind_error])
  case bytes =>
    obtain ⟨hnumber, -⟩ := typePacking
    exact succeeds_writeResult_of_tr rfl htr (hnumber s.tr)
  case refused =>
    simp only [List.forall_mem_cons]
    exact ⟨failsWith_noTypeOperand rfl htr, failsWith_noTypeOperand rfl htr, nofun⟩

/-- R122: TC_FROM_BYTES raises no model fault, so where it leaves ERR = 0 it has taken ARG's bytes. -/
theorem tcFromBytes_of_err_eq_false {s t : State} (ht : exec .tcFromBytes s = .next t) (herr : t.status.err = false) :
    t = (s.writeTr (argType s)).completeOk := by
  rw [exec, execTcFromBytes] at ht
  cases hfirst : firstBadIndex (argType s) with
  | none =>
    rw [fromBytes_of_constructible (firstBadIndex_eq_none.1 hfirst), cmd_bind_ok, cmd_pure, commit_ok] at ht
    exact (Host.Outcome.next.inj ht).symm
  | some k =>
    rw [fromBytes_of_bad hfirst, cmd_bind_error, commit_raise] at ht
    obtain rfl := Host.Outcome.next.inj ht
    cases herr

/-- Settles O18: TR then holds ARG's bytes, which pack to ARG again. -/
theorem typeCodeSurvivesTheRegister : Obligations.TypeCodeSurvivesTheRegister := by
  intro s t ht herr
  obtain rfl := tcFromBytes_of_err_eq_false ht herr
  exact succeeds_writeResult_of_tr rfl rfl (be32_bytesBe32 s.arg)

end Sys2Proof.Machine
end

section
/-!
PROOFS. The statements of the family 42_chunk: well-formed UTF-8 (R160), `chunk_parse` (R152), the commands of the chunk
unit (R153 to R161), and what becomes of a chunk that is built, serialized and parsed again (R163 to R165).
-/
namespace Sys2Proof.Machine

/-! ### Well-formed UTF-8 (R160) -/

/-- A byte within a range of R160's table. -/
def Utf8Within (range : Nat × Nat) (b : Byte) : Prop := range.1 ≤ b.toNat ∧ b.toNat ≤ range.2

/-- R160: a row of the table matches where the sequence begins with bytes in the row's ranges, one by one. -/
theorem matchesForm_iff {row : List (Nat × Nat)} {s : List Byte} :
    matchesForm row s = true ↔ ∃ f, f <+: s ∧ List.Forall₂ Utf8Within row f := by
  induction row generalizing s with
  | nil => simp [matchesForm]
  | cons range row ih =>
    cases s with
    | nil => simp [matchesForm]
    | cons b s =>
      simp only [matchesForm, Bool.and_eq_true, decide_eq_true_eq, ih]
      constructor
      · rintro ⟨hb, f, hf, hrow⟩
        exact ⟨b :: f, by simpa using hf, .cons hb hrow⟩
      · rintro ⟨_, hbegin, hrow⟩
        obtain ⟨c, f, hc, hmatch, rfl⟩ := List.forall₂_cons_left_iff.1 hrow
        obtain ⟨rfl, hf⟩ := List.cons_prefix_cons.1 hbegin
        exact ⟨hc, f, hf, hmatch⟩

/-- R160: the model's table and the forms that a claim speaks of are the same. -/
theorem utf8Form_iff {f : List Byte} : Utf8Form f ↔ ∃ row ∈ utf8Forms, List.Forall₂ Utf8Within row f := by
  constructor
  · rintro (⟨a, rfl, ha⟩ | ⟨a, b, rfl, ha, hb⟩ | ⟨a, b, c, rfl, hc, hab⟩ | ⟨a, b, c, d, rfl, hc, hd, hab⟩)
    · exact ⟨[(0x00, 0x7F)], by decide, .cons ha .nil⟩
    · exact ⟨[(0xC2, 0xDF), (0x80, 0xBF)], by decide, .cons ha (.cons hb .nil)⟩
    · rcases hab with ⟨ha, hb⟩ | ⟨ha, hb⟩ | ⟨ha, hb⟩ | ⟨ha, hb⟩
      · exact ⟨[(0xE0, 0xE0), (0xA0, 0xBF), (0x80, 0xBF)], by decide, .cons ha (.cons hb (.cons hc .nil))⟩
      · exact ⟨[(0xE1, 0xEC), (0x80, 0xBF), (0x80, 0xBF)], by decide, .cons ha (.cons hb (.cons hc .nil))⟩
      · exact ⟨[(0xED, 0xED), (0x80, 0x9F), (0x80, 0xBF)], by decide, .cons ha (.cons hb (.cons hc .nil))⟩
      · exact ⟨[(0xEE, 0xEF), (0x80, 0xBF), (0x80, 0xBF)], by decide, .cons ha (.cons hb (.cons hc .nil))⟩
    · rcases hab with ⟨ha, hb⟩ | ⟨ha, hb⟩ | ⟨ha, hb⟩
      · exact ⟨[(0xF0, 0xF0), (0x90, 0xBF), (0x80, 0xBF), (0x80, 0xBF)], by decide,
          .cons ha (.cons hb (.cons hc (.cons hd .nil)))⟩
      · exact ⟨[(0xF1, 0xF3), (0x80, 0xBF), (0x80, 0xBF), (0x80, 0xBF)], by decide,
          .cons ha (.cons hb (.cons hc (.cons hd .nil)))⟩
      · exact ⟨[(0xF4, 0xF4), (0x80, 0x8F), (0x80, 0xBF), (0x80, 0xBF)], by decide,
          .cons ha (.cons hb (.cons hc (.cons hd .nil)))⟩
  · rintro ⟨row, hrow, hf⟩
    simp only [utf8Forms, List.mem_cons, List.not_mem_nil, or_false] at hrow
    rcases hrow with rfl | rfl | rfl | rfl | rfl | rfl | rfl | rfl | rfl
    · let .cons ha .nil := hf
      exact .inl ⟨_, rfl, ha⟩
    · let .cons ha (.cons hb .nil) := hf
      exact .inr (.inl ⟨_, _, rfl, ha, hb⟩)
    · let .cons ha (.cons hb (.cons hc .nil)) := hf
      exact .inr (.inr (.inl ⟨_, _, _, rfl, hc, .inl ⟨ha, hb⟩⟩))
    · let .cons ha (.cons hb (.cons hc .nil)) := hf
      exact .inr (.inr (.inl ⟨_, _, _, rfl, hc, .inr (.inl ⟨ha, hb⟩)⟩))
    · let .cons ha (.cons hb (.cons hc .nil)) := hf
      exact .inr (.inr (.inl ⟨_, _, _, rfl, hc, .inr (.inr (.inl ⟨ha, hb⟩))⟩))
    · let .cons ha (.cons hb (.cons hc .nil)) := hf
      exact .inr (.inr (.inl ⟨_, _, _, rfl, hc, .inr (.inr (.inr ⟨ha, hb⟩))⟩))
    · let .cons ha (.cons hb (.cons hc (.cons hd .nil))) := hf
      exact .inr (.inr (.inr ⟨_, _, _, _, rfl, hc, hd, .inl ⟨ha, hb⟩⟩))
    · let .cons ha (.cons hb (.cons hc (.cons hd .nil))) := hf
      exact .inr (.inr (.inr ⟨_, _, _, _, rfl, hc, hd, .inr (.inl ⟨ha, hb⟩)⟩))
    · let .cons ha (.cons hb (.cons hc (.cons hd .nil))) := hf
      exact .inr (.inr (.inr ⟨_, _, _, _, rfl, hc, hd, .inr (.inr ⟨ha, hb⟩)⟩))

/-- R160: the length of a form is the same for all forms with that first byte. -/
def utf8LeadLength (a : Byte) : Nat :=
  if a.toNat ≤ 0x7F then 1 else if a.toNat ≤ 0xDF then 2 else if a.toNat ≤ 0xEF then 3 else 4

theorem Utf8Form.length_eq {f : List Byte} (h : Utf8Form f) : ∃ a g, f = a :: g ∧ f.length = utf8LeadLength a := by
  rcases h with ⟨a, rfl, ha⟩ | ⟨a, b, rfl, ha, -⟩ | ⟨a, b, c, rfl, -, hab⟩ | ⟨a, b, c, d, rfl, -, -, hab⟩
  · exact ⟨a, _, rfl, by rw [utf8LeadLength, if_pos (by omega)]; rfl⟩
  · exact ⟨a, _, rfl, by rw [utf8LeadLength, if_neg (by omega), if_pos (by omega)]; rfl⟩
  · exact ⟨a, _, rfl, by rw [utf8LeadLength, if_neg (by omega), if_neg (by omega), if_pos (by omega)]; rfl⟩
  · exact ⟨a, _, rfl, by rw [utf8LeadLength, if_neg (by omega), if_neg (by omega), if_neg (by omega)]; rfl⟩

/-- R160: at most one form begins a sequence. -/
theorem Utf8Form.eq_of_prefix {f g s : List Byte} (hf : Utf8Form f) (hg : Utf8Form g) (hfs : f <+: s) (hgs : g <+: s) :
    f = g := by
  obtain ⟨a, f', rfl, hlenf⟩ := hf.length_eq
  obtain ⟨b, g', rfl, hleng⟩ := hg.length_eq
  obtain rfl : a = b := by
    obtain ⟨t, rfl⟩ := hfs
    exact (List.cons_prefix_cons.1 hgs).1.symm
  exact (List.prefix_of_prefix_length_le hfs hgs (by omega)).eq_of_length (by omega)

/-- R160: what the framer's search of the table answers. -/
theorem utf8FormLength_eq_none_iff {s : List Byte} : utf8FormLength s = none ↔ ∀ f, Utf8Form f → ¬ f <+: s := by
  simp only [utf8FormLength, Option.map_eq_none_iff, List.find?_eq_none, matchesForm_iff, utf8Form_iff]
  exact ⟨fun h f ⟨row, hrow, hmatch⟩ hbegin => h row hrow ⟨f, hbegin, hmatch⟩,
    fun h row hrow ⟨f, hbegin, hmatch⟩ => h f ⟨row, hrow, hmatch⟩ hbegin⟩

theorem utf8FormLength_eq_some {s : List Byte} {k : Nat} (h : utf8FormLength s = some k) :
    ∃ f, Utf8Form f ∧ f <+: s ∧ f.length = k := by
  obtain ⟨row, hrow, rfl⟩ := Option.map_eq_some_iff.1 h
  obtain ⟨f, hf, hmatch⟩ := matchesForm_iff.1 (List.find?_some (p := (matchesForm · s)) hrow)
  exact ⟨f, utf8Form_iff.2 ⟨row, List.mem_of_find?_eq_some hrow, hmatch⟩, hf, hmatch.length_eq.symm⟩

theorem utf8FormLength_append {f : List Byte} (hf : Utf8Form f) (s : List Byte) :
    utf8FormLength (f ++ s) = some f.length := by
  cases h : utf8FormLength (f ++ s) with
  | none => exact absurd (List.prefix_append f s) (utf8FormLength_eq_none_iff.1 h f hf)
  | some k =>
    obtain ⟨g, hg, hbegin, rfl⟩ := utf8FormLength_eq_some h
    rw [hf.eq_of_prefix hg (List.prefix_append f s) hbegin]

theorem Utf8Form.length_pos {f : List Byte} (h : Utf8Form f) : 0 < f.length := by
  obtain ⟨a, g, rfl, -⟩ := h.length_eq
  exact Nat.succ_pos _

/-- A sequence begins with no form, or it is a form before a sequence of which the claim holds already. -/
theorem utf8_split_induction {P : List Byte → Prop} (noForm : ∀ s, (∀ f, Utf8Form f → ¬ f <+: s) → P s)
    (formAppend : ∀ f s, Utf8Form f → P s → P (f ++ s)) (s : List Byte) : P s := by
  induction hn : s.length using Nat.strong_induction_on generalizing s with
  | _ n ih =>
    by_cases h : ∃ f, Utf8Form f ∧ f <+: s
    · obtain ⟨f, hf, t, rfl⟩ := h
      have hpos := hf.length_pos
      rw [List.length_append] at hn
      exact formAppend f t hf (ih t.length (by omega) t rfl)
    · exact noForm s fun f hf hbegin => h ⟨f, hf, hbegin⟩

theorem validUpToFrom_of_no_form {s : List Byte} (h : ∀ f, Utf8Form f → ¬ f <+: s) (fuel : Nat) :
    validUpToFrom fuel s = 0 := by
  cases fuel with
  | zero => rfl
  | succ fuel => simp [validUpToFrom, utf8FormLength_eq_none_iff.2 h]

theorem validUpToFrom_form_append {f s : List Byte} {fuel : Nat} (hf : Utf8Form f) (hfuel : (f ++ s).length ≤ fuel) :
    ∃ k, s.length ≤ k ∧ validUpToFrom fuel (f ++ s) = f.length + validUpToFrom k s := by
  have hpos := hf.length_pos
  rw [List.length_append] at hfuel
  obtain ⟨k, rfl⟩ : ∃ k, fuel = k + 1 := ⟨fuel - 1, by omega⟩
  exact ⟨k, by omega, by simp [validUpToFrom, utf8FormLength_append hf]⟩

/-- The split never runs out of fuel: any amount that covers the bytes gives the same answer. -/
theorem validUpToFrom_fuel (s : List Byte) : ∀ fuel, s.length ≤ fuel → validUpToFrom fuel s = validUpTo s := by
  induction s using utf8_split_induction with
  | noForm s h => exact fun fuel _ => by rw [validUpTo, validUpToFrom_of_no_form h, validUpToFrom_of_no_form h]
  | formAppend f s hf ih =>
    intro fuel hfuel
    obtain ⟨k, hk, hsplit⟩ := validUpToFrom_form_append hf hfuel
    obtain ⟨l, hl, hsplit'⟩ := validUpToFrom_form_append (s := s) hf le_rfl
    rw [validUpTo, hsplit, hsplit', ih k hk, ih l hl]

theorem validUpTo_of_no_form {s : List Byte} (h : ∀ f, Utf8Form f → ¬ f <+: s) : validUpTo s = 0 :=
  validUpToFrom_of_no_form h _

theorem validUpTo_form_append {f : List Byte} (hf : Utf8Form f) (s : List Byte) :
    validUpTo (f ++ s) = f.length + validUpTo s := by
  obtain ⟨k, hk, hsplit⟩ := validUpToFrom_form_append (s := s) hf le_rfl
  rw [validUpTo, hsplit, validUpToFrom_fuel s k hk]

theorem wellFormedUtf8_nil : WellFormedUtf8 [] := ⟨[], nofun, rfl⟩

theorem WellFormedUtf8.form_append {f s : List Byte} (hf : Utf8Form f) (hs : WellFormedUtf8 s) :
    WellFormedUtf8 (f ++ s) := by
  obtain ⟨fs, hfs, rfl⟩ := hs
  exact ⟨f :: fs, List.forall_mem_cons.2 ⟨hf, hfs⟩, rfl⟩

theorem wellFormedUtf8_take_validUpTo (s : List Byte) : WellFormedUtf8 (s.take (validUpTo s)) := by
  induction s using utf8_split_induction with
  | noForm s h =>
    rw [validUpTo_of_no_form h]
    exact wellFormedUtf8_nil
  | formAppend f s hf ih =>
    rw [validUpTo_form_append hf, List.take_length_add_append]
    exact ih.form_append hf

theorem not_prefix_drop_validUpTo (s : List Byte) : ∀ f, Utf8Form f → ¬ f <+: s.drop (validUpTo s) := by
  induction s using utf8_split_induction with
  | noForm s h =>
    rwa [validUpTo_of_no_form h]
  | formAppend f s hf ih =>
    rwa [validUpTo_form_append hf, List.drop_length_add_append]

theorem WellFormedUtf8.validUpTo_eq {s : List Byte} (h : WellFormedUtf8 s) : validUpTo s = s.length := by
  obtain ⟨fs, hfs, rfl⟩ := h
  induction fs with
  | nil => rfl
  | cons f fs ih =>
    obtain ⟨hf, hfs⟩ := List.forall_mem_cons.1 hfs
    rw [List.flatten_cons, validUpTo_form_append hf, ih hfs, List.length_append]

theorem validUpTo_eq_length_iff {s : List Byte} : validUpTo s = s.length ↔ WellFormedUtf8 s := by
  refine ⟨fun h => ?_, WellFormedUtf8.validUpTo_eq⟩
  have htake := wellFormedUtf8_take_validUpTo s
  rwa [h, List.take_length] at htake

/-- Settles O22: each part is an induction along the split, form by form. -/
theorem utf8ValidPrefix : Obligations.Utf8ValidPrefix := fun s =>
  ⟨validUpTo_eq_length_iff, wellFormedUtf8_take_validUpTo s, not_prefix_drop_validUpTo s,
    fun _ _ => Utf8Form.eq_of_prefix⟩

/-! ### `chunk_parse` (R152), field by field -/

section
variable {m : Memory} {base n : Nat} {len : Word} {t : Bytes4} {p : List Byte}

theorem chunkParse_of_no_length (h : n < 4) :
    chunkParse m base n = raise { kind := .truncatedInput, flags := ⟨false, true, 0⟩ } := by
  rw [chunkParse, failIf_pos h, cmd_bind_error, raise_eq]

theorem chunkParse_of_truncated (h4 : 4 ≤ n) (hlen : m.Holds base (bytesBe32 len).toList)
    (hshort : n - 4 < len.toNat + 8) :
    chunkParse m base n = raise { kind := .truncatedInput, a := len, b := word (n - 4) } := by
  have hread : memRead4 m base = .ok (bytesBe32 len) := memRead4_of_holds hlen
  rw [chunkParse, failIf_neg (Nat.not_lt.2 h4), cmd_bind_ok, hread, cmd_bind_ok]
  simp only [be32_bytesBe32, failIf_pos hshort, cmd_bind_error, raise_eq]

variable (h4 : 4 ≤ n) (hlen : m.Holds base (bytesBe32 len).toList) (hfits : len.toNat + 8 ≤ n - 4)
include h4 hlen hfits

theorem chunkParse_of_unwritten_type {k : Nat} (hk : k < 4) (h : m.read? (base + 4 + k) = none) :
    chunkParse m base n = .error (.fault .uninitInput) := by
  rw [chunkParse_of_length h4 hlen hfits, memRead4_of_unwritten hk h, cmd_bind_error]

variable (htype : m.Holds (base + 4) t.toList)
include htype

theorem chunkParse_of_bad_type {k : Nat} (h : firstBadIndex t = some k) :
    chunkParse m base n = raise { kind := .invalidTypeBytes, a := be32 t, b := word k } := by
  rw [chunkParse_of_length h4 hlen hfits, memRead4_of_holds htype, cmd_bind_ok, fromBytes_of_bad h, cmd_bind_error,
    raise_eq]

theorem chunkParse_of_invalid_type (hc : constructible t = true) (hv : isValid t = false) :
    chunkParse m base n = raise { kind := .invalidChunkType, a := be32 t } := by
  rw [chunkParse_of_length h4 hlen hfits, memRead4_of_holds htype, cmd_bind_ok, fromBytes_of_constructible hc,
    cmd_bind_ok, failIf_pos hv, cmd_bind_error, raise_eq]

variable (hv : isValid t = true)
include hv

/-- The steps of R152 after the type has been read and found valid. -/
theorem chunkParse_of_valid_type :
    chunkParse m base n = (do
      let payload ← memRead m (base + 8) len.toNat
      let stored ← memRead4 m (base + 8 + len.toNat)
      failIf (chunkCrc ⟨t, payload⟩ ≠ be32 stored)
        { kind := .crcMismatch, a := chunkCrc ⟨t, payload⟩, b := be32 stored }
      return (⟨t, payload⟩, 12 + len.toNat)) := by
  rw [chunkParse_of_length h4 hlen hfits, memRead4_of_holds htype, cmd_bind_ok,
    fromBytes_of_constructible (constructible_of_isValid hv), cmd_bind_ok, failIf_neg (ne_false_of_eq_true hv),
    cmd_bind_ok]

theorem chunkParse_of_unwritten_payload {k : Nat} (hk : k < len.toNat) (h : m.read? (base + 8 + k) = none) :
    chunkParse m base n = .error (.fault .uninitInput) := by
  rw [chunkParse_of_valid_type h4 hlen hfits htype hv, memRead_of_unwritten hk h, cmd_bind_error]

variable (hp : p.length = len.toNat) (hpayload : m.Holds (base + 8) p)
include hp hpayload

theorem chunkParse_of_unwritten_crc {k : Nat} (hk : k < 4) (h : m.read? (base + 8 + len.toNat + k) = none) :
    chunkParse m base n = .error (.fault .uninitInput) := by
  rw [chunkParse_of_valid_type h4 hlen hfits htype hv, ← hp, memRead_of_holds hpayload, cmd_bind_ok, hp,
    memRead4_of_unwritten hk h, cmd_bind_error]

/-- The last step of R152, on the fields of a whole record. -/
theorem chunkParse_of_fields {crc : Word} (hcrc : m.Holds (base + 8 + len.toNat) (bytesBe32 crc).toList) :
    chunkParse m base n = (do
      failIf (chunkCrc ⟨t, p⟩ ≠ crc) { kind := .crcMismatch, a := chunkCrc ⟨t, p⟩, b := crc }
      return (⟨t, p⟩, 12 + len.toNat)) := by
  have hread : memRead4 m (base + 8 + len.toNat) = .ok (bytesBe32 crc) := memRead4_of_holds hcrc
  rw [chunkParse_of_valid_type h4 hlen hfits htype hv, hread, ← hp, memRead_of_holds hpayload, cmd_bind_ok,
    cmd_bind_ok, be32_bytesBe32]

theorem chunkParse_of_crc_mismatch {crc : Word} (hcrc : m.Holds (base + 8 + len.toNat) (bytesBe32 crc).toList)
    (hne : chunkCrc ⟨t, p⟩ ≠ crc) :
    chunkParse m base n = raise { kind := .crcMismatch, a := chunkCrc ⟨t, p⟩, b := crc } := by
  rw [chunkParse_of_fields h4 hlen hfits htype hv hp hpayload hcrc, failIf_pos hne, cmd_bind_error, raise_eq]

theorem chunkParse_of_crc_match (hcrc : m.Holds (base + 8 + len.toNat) (bytesBe32 (chunkCrc ⟨t, p⟩)).toList) :
    chunkParse m base n = .ok (⟨t, p⟩, 12 + len.toNat) := by
  rw [chunkParse_of_fields h4 hlen hfits htype hv hp hpayload hcrc, failIf_neg (not_not_intro rfl), cmd_bind_ok,
    cmd_pure]

end

/-- Settles O23: one lemma for each check and each field of R152. -/
theorem chunkParseByCases : Obligations.ChunkParseByCases := by
  intro s base n
  refine ⟨chunkParse_of_no_length, fun k hk h4 => chunkParse_of_unwritten_length h4 hk, fun len h4 hlen =>
    ⟨chunkParse_of_truncated h4 hlen, fun k hk hfits => chunkParse_of_unwritten_type h4 hlen hfits hk,
      fun t hfits htype => ⟨fun k b hb hbad hbefore => ?badType, fun halpha hup => ?invalidType,
        fun k hk halpha hup => ?payload, fun p k hk halpha hup hp hpayload => ?unwrittenCrc,
        fun p crc halpha hup hp hpayload hcrc => ?crc⟩⟩⟩
  case badType =>
    exact chunkParse_of_bad_type h4 hlen hfits htype (firstBadIndex_of hb hbad hbefore)
  case invalidType =>
    have hv : isValid t = false := Bool.eq_false_iff.2 fun hv => Bool.eq_false_iff.1 hup (isValid_iff.1 hv).2
    exact chunkParse_of_invalid_type h4 hlen hfits htype (constructible_iff.2 halpha) hv
  all_goals have hv : isValid t = true := isValid_iff.2 ⟨constructible_iff.2 halpha, hup⟩
  case payload => exact chunkParse_of_unwritten_payload h4 hlen hfits htype hv hk
  case unwrittenCrc => exact chunkParse_of_unwritten_crc h4 hlen hfits htype hv hp hpayload hk
  case crc =>
    refine ⟨chunkParse_of_crc_mismatch h4 hlen hfits htype hv hp hpayload hcrc, ?_⟩
    rintro rfl
    exact chunkParse_of_crc_match h4 hlen hfits htype hv hp hpayload hcrc

/-- R164: the record of a chunk with a valid type, but with another crc field. -/
theorem chunkParse_tampered_record {m : Memory} {base n : Nat} {c : Chunk} {v : Word} (hv : isValid c.type = true)
    (hlen : c.payload.length < 2 ^ 32) (hn : 12 + c.payload.length ≤ n) (hne : chunkCrc c ≠ v)
    (h : m.Holds base ((record c).take (8 + c.payload.length) ++ (bytesBe32 v).toList)) :
    chunkParse m base n = raise { kind := .crcMismatch, a := chunkCrc c, b := v } := by
  have hfields : ((bytesBe32 (word c.payload.length)).toList ++ c.type.toList ++ c.payload).length =
      8 + c.payload.length := by
    rw [List.length_append, List.length_append, Bytes4.toList_length, Bytes4.toList_length]
  have hword := toNat_word hlen
  rw [record, List.take_left' hfields, Memory.holds_append, Memory.holds_append,
    Memory.holds_append, hfields, ← Nat.add_assoc] at h
  obtain ⟨⟨⟨hlength, htype⟩, hpayload⟩, hcrc⟩ := h
  exact chunkParse_of_crc_mismatch (by omega) hlength (by omega) htype hv hword.symm hpayload (by rwa [hword]) hne

/-- R165: the record of a chunk whose type is alphabetic but not valid. -/
theorem chunkParse_record_of_invalid_type {m : Memory} {base n : Nat} {c : Chunk} (hc : constructible c.type = true)
    (hv : isValid c.type = false) (hlen : c.payload.length < 2 ^ 32) (hn : 12 + c.payload.length ≤ n)
    (h : m.Holds base (record c)) :
    chunkParse m base n = raise { kind := .invalidChunkType, a := be32 c.type } := by
  obtain ⟨hlength, htype, -, -⟩ := holds_record h
  have hword := toNat_word hlen
  exact chunkParse_of_invalid_type (by omega) hlength (by omega) htype hc hv

/-! ### CH_NEW (R153) and CH_PARSE (R154) -/

theorem writesOnly_writeCr (s : State) (c : Chunk) : WritesOnly [.cr] s (s.writeCr c) := by
  refine ⟨rfl, fun p hp => ?_⟩
  cases p <;> simp_all [AgreeOn]

theorem inPayload_of_inputIs {s : State} {p : List Byte} (h : InputIs s p) : inPayload s = .ok p := by
  obtain ⟨hlen, hcap, hholds⟩ := h
  rw [inPayload, inputLength_of_le (hlen ▸ hcap), cmd_bind_ok, hlen, memRead_of_holds hholds]

/-- R153: what CH_NEW leaves. -/
theorem exec_chNew {s : State} {p : List Byte} (htr : s.status.trValid = true) (hin : InputIs s p) :
    exec .chNew s = .next (s.writeCr ⟨s.tr, p⟩).completeOk := by
  rw [exec, execChNew, operandTr_of_valid htr, cmd_bind_ok, inPayload_of_inputIs hin, cmd_bind_ok, cmd_pure, commit_ok]

/-- Settles O25: the check of TR, the check of IN_LEN, and the read of the payload, in R153's order. -/
theorem chNewResult : Obligations.ChNewResult := by
  refine ⟨decode_encode .chNew, fun s => ⟨fun htr => ?noType, fun htr hcap => ?capacity, fun p htr hin => ?ok,
    fun k hk htr hcap hnone => ?unwritten⟩⟩
  case noType => exact failsWith_noTypeOperand rfl htr
  case capacity =>
    exact failsWith_of_commit rfl (by rw [operandTr_of_valid htr, cmd_bind_ok, inPayload, inputLength_of_lt hcap,
      cmd_bind_error, cmd_bind_error, capacityError_inLen])
  case ok => exact succeeds_of (exec_chNew htr hin) (writesOnly_writeCr s _) ⟨rfl, rfl⟩
  case unwritten =>
    exact modelFaults_of_commit rfl
      (by rw [operandTr_of_valid htr, cmd_bind_ok, inPayload_of_unwritten hcap hnone hk, cmd_bind_error])

theorem writesOnly_chunk_result_aux (s : State) (c : Chunk) (v w : Word) :
    WritesOnly [.cr, .result, .aux] s (((s.writeCr c).writeResult v).writeAux w) := by
  refine ⟨rfl, fun p hp => ?_⟩
  cases p <;> simp_all [AgreeOn]

section
variable {s : State} (hcap : s.inLen.toNat ≤ s.cfg.inCap)
include hcap

/-- R154: CH_PARSE of an input that `chunk_parse` accepts. -/
theorem chParse_of_ok {c : Chunk} {used : Nat} {post : State → Prop}
    (h : chunkParse s.inBuf 0 s.inLen.toNat = .ok (c, used))
    (hpost : ∀ t : State, t.cr = c → t.status.crValid = true → t.result.toNat = used →
      t.aux.toNat + used = s.inLen.toNat → post t) :
    Succeeds .chParse s [.cr, .result, .aux] post := by
  obtain ⟨-, -, -, hle, -⟩ := chunkParse_eq_ok h
  have hlt := s.inLen.isLt
  refine succeeds_of_commit rfl (by rw [inputLength_of_le hcap, cmd_bind_ok, h, cmd_bind_ok, cmd_pure])
    (writesOnly_chunk_result_aux s _ _ _) (hpost _ rfl rfl ?_ ?_)
  · exact toNat_word (by omega)
  · have haux : (word (s.inLen.toNat - used)).toNat = s.inLen.toNat - used := toNat_word (by omega)
    exact (congrArg (· + used) haux).trans (Nat.sub_add_cancel hle)

/-- R154: CH_PARSE ends with the error of `chunk_parse`. -/
theorem chParse_of_raise {e : ErrorInfo} (h : chunkParse s.inBuf 0 s.inLen.toNat = raise e) :
    FailsWith .chParse s e :=
  failsWith_of_commit rfl (by rw [inputLength_of_le hcap, cmd_bind_ok, h, cmd_bind_raise])

end

/-- A computation raises only errors with a property (`RaisesLocated` is this for one property). -/
def RaisesOnly (P : ErrorInfo → Prop) {α : Type} (r : Except Stop α) : Prop := ∀ e, r = .error (.raise e) → P e

theorem RaisesOnly.bind {P : ErrorInfo → Prop} {α β : Type} {x : Except Stop α} {f : α → Except Stop β}
    (hx : RaisesOnly P x) (hf : ∀ a, RaisesOnly P (f a)) : RaisesOnly P (x >>= f) := fun e he => by
  rcases cmd_bind_eq_error he with hxe | ⟨a, -, hfe⟩
  · exact hx e hxe
  · exact hf a e hfe

theorem raisesOnly_ok (P : ErrorInfo → Prop) {α : Type} (a : α) : RaisesOnly P (.ok a : Except Stop α) := nofun

theorem raisesOnly_failIf {P : ErrorInfo → Prop} {p : Prop} [Decidable p] {e : ErrorInfo} (h : P e) :
    RaisesOnly P (failIf p e) := by
  intro e' he
  obtain ⟨-, heq⟩ := failIf_eq_error he
  obtain rfl := Stop.raise.inj heq
  exact h

theorem raisesOnly_memRead (P : ErrorInfo → Prop) (m : Memory) (a n : Nat) : RaisesOnly P (memRead m a n) := by
  rcases memRead_cases m a n with ⟨bs, -, -, h⟩ | ⟨-, h⟩ <;> rw [h] <;> nofun

theorem raisesOnly_memRead4 (P : ErrorInfo → Prop) (m : Memory) (a : Nat) : RaisesOnly P (memRead4 m a) := by
  rcases memRead4_cases m a with ⟨t, -, h⟩ | ⟨-, h⟩ <;> rw [h] <;> nofun

theorem raisesOnly_fromBytes {P : ErrorInfo → Prop} {t : Bytes4}
    (h : ∀ k, P { kind := .invalidTypeBytes, a := be32 t, b := word k }) : RaisesOnly P (fromBytes t) := by
  unfold fromBytes
  split
  · rintro _ ⟨⟩
    exact h _
  · exact raisesOnly_ok P t

/-- R36: the error gives no position. -/
def ErrorInfo.Unplaced (e : ErrorInfo) : Prop := e.flags.posValid = false

theorem raisesOnly_unplaced_chunkParse (m : Memory) (base n : Nat) :
    RaisesOnly ErrorInfo.Unplaced (chunkParse m base n) :=
  .bind (raisesOnly_failIf (by rfl)) fun _ =>
  .bind (raisesOnly_memRead4 _ _ _) fun _ =>
  .bind (raisesOnly_failIf (by rfl)) fun _ =>
  .bind (raisesOnly_memRead4 _ _ _) fun _ =>
  .bind (raisesOnly_fromBytes fun _ => by rfl) fun _ =>
  .bind (raisesOnly_failIf (by rfl)) fun _ =>
  .bind (raisesOnly_memRead _ _ _ _) fun _ =>
  .bind (raisesOnly_memRead4 _ _ _) fun _ =>
  .bind (raisesOnly_failIf (by rfl)) fun _ => raisesOnly_ok _ _

/-- Settles O26: the capacity check, and then the three outcomes of `chunk_parse`. -/
theorem chParseResult : Obligations.ChParseResult := by
  refine ⟨decode_encode .chParse, fun s => ⟨fun hcap => ?capacity, fun hcap =>
    ⟨fun c used h => ?ok, fun e h => ⟨chParse_of_raise hcap h, raisesOnly_unplaced_chunkParse _ _ _ e h⟩,
      fun f h => ?fault⟩⟩⟩
  case capacity =>
    exact failsWith_of_commit rfl (by rw [inputLength_of_lt hcap, cmd_bind_error, capacityError_inLen])
  case ok =>
    obtain ⟨-, -, hused, -⟩ := chunkParse_eq_ok h
    exact chParse_of_ok hcap h fun t hcr hvalid hresult haux => ⟨hcr, hvalid, hresult, hused, haux⟩
  case fault =>
    exact modelFaults_of_commit rfl (by rw [inputLength_of_le hcap, cmd_bind_ok, h, cmd_bind_error])

/-- Settles O27: `chunkParse_eq_ok` and `chunkParse_record` are the two directions. -/
theorem chParseAcceptsExactlyRecords : Obligations.ChParseAcceptsExactlyRecords := by
  refine fun s c hfault hcap => ⟨fun h => ?parsed, fun ⟨hv, hlen, hfits, hin⟩ => ?record⟩
  case parsed =>
    obtain ⟨u, hu, hcr, -⟩ := ok_of_succeeds rfl hfault h
    rw [inputLength_of_le hcap, cmd_bind_ok] at hu
    obtain ⟨r, hr, hu⟩ := cmd_bind_eq_ok hu
    cases hu
    obtain rfl : r.1 = c := hcr
    obtain ⟨hv, hlen, hused, hle, hin⟩ := chunkParse_eq_ok hr
    exact ⟨hv, hlen, hused ▸ hle, hin⟩
  case record =>
    exact chParse_of_ok hcap (chunkParse_record hv hlen hfits hin) fun t hcr hvalid _ _ => ⟨hcr, hvalid⟩

/-- Settles O32: the last check of R152 compares the two CRCs. -/
theorem tamperedCrcIsCaught : Obligations.TamperedCrcIsCaught := by
  intro s c v hv hlen hne hin
  obtain ⟨hlength, hcap, hholds⟩ := hin
  have hn : 12 + c.payload.length ≤ s.inLen.toNat := by
    rw [hlength, List.length_append, List.length_take, record_length, Bytes4.toList_length]
    omega
  exact chParse_of_raise (hlength ▸ hcap) (chunkParse_tampered_record hv hlen hn hne.symm hholds)

/-! ### Commands that read CR (R155 to R161) -/

section
variable {i : Instr} {s : State}

/-- R257: a command that begins by reading CR is refused while CR_VALID = 0. -/
theorem failsWith_noChunkOperand {f : Chunk → Except Stop State} (hexec : exec i s = commit s (operandCr s >>= f))
    (hcr : s.status.crValid = false) : FailsWith i s { kind := .noChunkOperand } :=
  failsWith_of_commit hexec (by rw [operandCr_of_invalid hcr, cmd_bind_error])

/-- A command whose rule is `RESULT <- g(CR)`. -/
theorem succeeds_writeResult_of_cr {g : Chunk → Word} {post : State → Prop}
    (hexec : exec i s = commit s (do let c ← operandCr s; return s.writeResult (g c)))
    (hcr : s.status.crValid = true) (hpost : post (s.writeResult (g s.cr)).completeOk) :
    Succeeds i s [.result] post :=
  succeeds_of_commit hexec (by rw [operandCr_of_valid hcr, cmd_bind_ok, cmd_pure]) (writesOnly_writeResult s _) hpost

/-- R256 kind 1: a command that comes to the output of a sequence outputs it, or says how much room it needs. -/
theorem emit_result {bs : List Byte} (hexec : exec i s = commit s (emit s bs)) (hcap : s.cfg.outCap < 2 ^ 32) :
    (bs.length ≤ s.cfg.outCap → Succeeds i s [.out] fun t => OutIs t bs) ∧
    (s.cfg.outCap < bs.length → FailsWith i s (capacityError 1 bs.length s.cfg.outCap)) :=
  ⟨fun hle => succeeds_of_commit hexec (emit_of_le hle) (writesOnly_writeOut s bs) (outIs_writeOut (by omega)),
    fun hlt => failsWith_of_commit hexec (emit_of_lt hlt)⟩

end

theorem exec_chSerialize {s : State} (hcr : s.status.crValid = true) :
    exec .chSerialize s = commit s (emit s (record s.cr)) := by
  rw [exec, execChSerialize, operandCr_of_valid hcr, cmd_bind_ok]

theorem exec_chSerialize_of_fits {s : State} (hcr : s.status.crValid = true)
    (hfits : (record s.cr).length ≤ s.cfg.outCap) :
    exec .chSerialize s = .next (s.writeOut (record s.cr)).completeOk := by
  rw [exec_chSerialize hcr, emit_of_le hfits, commit_ok]

/-- Settles O28: the output of the record, whose length is 12 more than the payload's. -/
theorem chSerializeResult : Obligations.ChSerializeResult := by
  refine ⟨decode_encode .chSerialize, fun s => ⟨failsWith_noChunkOperand rfl, fun hcr hcap => ?_⟩⟩
  rw [← record_length s.cr]
  exact emit_result (exec_chSerialize hcr) hcap

theorem writesOnly_type_result (s : State) (t : TypeCode) (v : Word) :
    WritesOnly [.tr, .result] s ((s.writeTr t).writeResult v) := by
  refine ⟨rfl, fun p hp => ?_⟩
  cases p <;> simp_all [AgreeOn]

/-- Settles O29: each accessor writes a value of CR, or is refused. -/
theorem chunkAccessors : Obligations.ChunkAccessors := by
  refine ⟨decode_encode .chLength, decode_encode .chCrc, decode_encode .chType, fun s =>
    ⟨fun hcr => ⟨fun hlen => ?length, ?crc, ?type⟩, fun hcr => ?refused⟩⟩
  case length => exact succeeds_writeResult_of_cr rfl hcr (toNat_word hlen)
  case crc => exact succeeds_writeResult_of_cr rfl hcr rfl
  case type =>
    exact succeeds_of_commit (u := (s.writeTr s.cr.type).writeResult (be32 s.cr.type)) rfl
      (by rw [operandCr_of_valid hcr, cmd_bind_ok, cmd_pure]) (writesOnly_type_result s _ _) ⟨rfl, rfl, rfl⟩
  case refused =>
    simp only [List.forall_mem_cons]
    exact ⟨failsWith_noChunkOperand rfl hcr, failsWith_noChunkOperand rfl hcr, failsWith_noChunkOperand rfl hcr, nofun⟩

/-- Settles O30: both commands come to the output of the payload, the second after R160's check. -/
theorem payloadOutput : Obligations.PayloadOutput := by
  refine ⟨decode_encode .chPayload, decode_encode .chPayloadAsText, fun s => ⟨fun hcr => ?refused, fun hcr hcap => ?_⟩⟩
  case refused =>
    simp only [List.forall_mem_cons]
    exact ⟨failsWith_noChunkOperand rfl hcr, failsWith_noChunkOperand rfl hcr, nofun⟩
  have hpayload : exec .chPayload s = commit s (emit s s.cr.payload) := by
    rw [exec, execChPayload, operandCr_of_valid hcr, cmd_bind_ok]
  have htext (h : WellFormedUtf8 s.cr.payload) : exec .chPayloadAsText s = commit s (emit s s.cr.payload) := by
    rw [exec, execChPayloadAsText, operandCr_of_valid hcr, cmd_bind_ok, failIf_neg (not_not_intro h.validUpTo_eq),
      cmd_bind_ok]
  obtain ⟨hfits, hlarge⟩ := emit_result hpayload hcap
  refine ⟨hfits, hlarge, fun hbad => ?_, fun h => (emit_result (htext h) hcap).1,
    fun h => (emit_result (htext h) hcap).2⟩
  have hshort : validUpTo s.cr.payload ≠ s.cr.payload.length := mt validUpTo_eq_length_iff.1 hbad
  exact failsWith_of_commit rfl (by rw [operandCr_of_valid hcr, cmd_bind_ok, failIf_pos hshort, cmd_bind_error])

/-! ### A chunk built, serialized, copied back and parsed -/

theorem showsSuccess_completeOk (s : State) : ShowsSuccess s.completeOk := by
  simp [ShowsSuccess]

/-- R163, R165: CH_NEW, CH_SERIALIZE and the copy of the output make the record of the new chunk the next input. -/
theorem build_serialize_copy {s : State} {p : List Byte} (htr : s.status.trValid = true) (hin : InputIs s p)
    (hcap : s.cfg.outCap < 2 ^ 32) (hfits : 12 + p.length ≤ min s.cfg.inCap s.cfg.outCap) :
    ∃ s₁ s₂, exec .chNew s = .next s₁ ∧ exec .chSerialize s₁ = .next s₂ ∧ ShowsSuccess s₁ ∧ ShowsSuccess s₂ ∧
      OutIs s₂ (record ⟨s.tr, p⟩) ∧ ∀ s₃, CopiedOut s₂ s₃ → s₃.inLen.toNat = 12 + p.length ∧
        s₃.inLen.toNat ≤ s₃.cfg.inCap ∧ s₃.inBuf.Holds 0 (record ⟨s.tr, p⟩) := by
  have hlen : (record ⟨s.tr, p⟩).length = 12 + p.length := record_length _
  rw [← hlen] at hfits ⊢
  obtain ⟨hinCap, houtCap⟩ := le_min_iff.1 hfits
  have hout : OutIs ((s.writeCr ⟨s.tr, p⟩).completeOk.writeOut (record ⟨s.tr, p⟩)).completeOk (record ⟨s.tr, p⟩) :=
    outIs_writeOut (by omega)
  refine ⟨_, _, exec_chNew htr hin, exec_chSerialize_of_fits rfl houtCap, showsSuccess_completeOk _,
    showsSuccess_completeOk _, hout, fun s₃ hcopy => ?_⟩
  obtain ⟨hlength, hle, hholds⟩ := inputIs_of_copiedOut hout hcopy hinCap
  exact ⟨hlength, hlength ▸ hle, hholds⟩

/-- Settles O31: the copied output is the record of the new chunk, and `chunk_parse` accepts it. -/
theorem chunkRoundTrip : Obligations.ChunkRoundTrip := by
  intro s p htr hv hin hcap hfits
  obtain ⟨s₁, s₂, hnew, hserialize, -, -, -, hcopied⟩ := build_serialize_copy htr hin hcap hfits
  refine ⟨s₁, s₂, hnew, hserialize, fun s₃ hcopy => ?_⟩
  obtain ⟨hlen, hle, hholds⟩ := hcopied s₃ hcopy
  have hparse := chunkParse_record (c := ⟨s.tr, p⟩) hv (show p.length < 2 ^ 32 by omega) hlen.ge hholds
  refine chParse_of_ok hle hparse fun t hcr hvalid hresult haux => ⟨hcr, hresult, ?_⟩
  have hzero : t.aux.toNat = 0 := by
    have hused : t.aux.toNat + (12 + p.length) = s₃.inLen.toNat := haux
    omega
  exact BitVec.eq_of_toNat_eq hzero

/-- Settles O33: the copied output is the record of the new chunk, and `chunk_parse` refuses its type. -/
theorem invalidTypeIsCaughtOnlyByParsing : Obligations.InvalidTypeIsCaughtOnlyByParsing := by
  intro s p htr hc hv hin hcap hfits
  obtain ⟨s₁, s₂, hnew, hserialize, hok₁, hok₂, hout, hcopied⟩ := build_serialize_copy htr hin hcap hfits
  refine ⟨s₁, s₂, hnew, hserialize, hok₁, hok₂, hout, fun s₃ hcopy => ?_⟩
  obtain ⟨hlen, hle, hholds⟩ := hcopied s₃ hcopy
  exact chParse_of_raise hle (chunkParse_record_of_invalid_type (c := ⟨s.tr, p⟩) hc hv
    (show p.length < 2 ^ 32 by omega) hlen.ge hholds)

end Sys2Proof.Machine
end

section
/-!
PROOFS. The statements of the family 43_container: `container_parse` (R201, R202), the commands of the container unit (R203
to R211), the round trip of a container (R212), and the look-up of an appended chunk (R213).
-/
namespace Sys2Proof.Machine

/-! ### The parts that the container commands write -/

theorem writesOnly_writeCl (s : State) (l : List Chunk) : WritesOnly [.cl] s (s.writeCl l) := by
  refine ⟨rfl, fun p hp => ?_⟩
  cases p <;> simp_all [AgreeOn]

theorem writesOnly_writeAux (s : State) (v : Word) : WritesOnly [.aux] s (s.writeAux v) := by
  refine ⟨rfl, fun p hp => ?_⟩
  cases p <;> simp_all [AgreeOn]

theorem AgreeOn.trans {p : Part} {s u v : State} (hu : AgreeOn p s u) (hv : AgreeOn p u v) : AgreeOn p s v := by
  cases p <;> simp_all [AgreeOn]

/-- Writes one after the other write the parts of both. -/
theorem WritesOnly.trans {w w' : List Part} {s u v : State} (hu : WritesOnly w s u) (hv : WritesOnly w' u v) :
    WritesOnly (w ++ w') s v := by
  obtain ⟨hequ, hagu⟩ := hu
  obtain ⟨heqv, hagv⟩ := hv
  refine ⟨?_, fun p hp => ?_⟩
  · rw [hequ] at heqv
    exact heqv
  · rw [List.mem_append, not_or] at hp
    exact (hagu p hp.1).trans (hagv p hp.2)

theorem writesOnly_cl_result (s : State) (l : List Chunk) (v : Word) :
    WritesOnly [.cl, .result] s ((s.writeCl l).writeResult v) :=
  (writesOnly_writeCl s l).trans (writesOnly_writeResult _ v)

theorem writesOnly_result_aux (s : State) (v w : Word) :
    WritesOnly [.result, .aux] s ((s.writeResult v).writeAux w) :=
  (writesOnly_writeResult s v).trans (writesOnly_writeAux _ w)

theorem writesOnly_cl_chunk_result_aux (s : State) (l : List Chunk) (c : Chunk) (v w : Word) :
    WritesOnly [.cl, .cr, .result, .aux] s ((((s.writeCr c).writeCl l).writeResult v).writeAux w) :=
  (writesOnly_writeCl s l).trans (writesOnly_chunk_result_aux (s.writeCl l) c v w)

/-! ### Completions -/

theorem Succeeds.imp {i : Instr} {s : State} {w : List Part} {P Q : State → Prop} (h : Succeeds i s w P)
    (hPQ : ∀ t, P t → Q t) : Succeeds i s w Q := by
  obtain ⟨t, ht, hfin, hok, hkeep, hP⟩ := h
  exact ⟨t, ht, hfin, hok, hkeep, hPQ t hP⟩

theorem Succeeds.post {i : Instr} {s t : State} {w : List Part} {P : State → Prop} (h : Succeeds i s w P)
    (ht : exec i s = .next t) : P t := by
  obtain ⟨u, hu, -, -, -, hP⟩ := h
  rw [ht] at hu
  obtain rfl := Host.Outcome.next.inj hu
  exact hP

theorem FailsWith.err {i : Instr} {s t : State} {e : ErrorInfo} (h : FailsWith i s e) (ht : exec i s = .next t) :
    t.status.err = true := by
  obtain ⟨u, hu, -, ⟨herr, -⟩, -⟩ := h
  rw [ht] at hu
  obtain rfl := Host.Outcome.next.inj hu
  exact herr

/-! ### `container_parse` (R201, R202) -/

theorem containerParse_of_short {m : Memory} {n : Nat} (h : n < 8) :
    containerParse m n = raise { kind := .badSignature } := by
  rw [containerParse, checkSignature, failIf_pos h, cmd_bind_error, cmd_bind_error, raise_eq]

theorem containerParse_of_other_signature {m : Memory} {n : Nat} {bs : List Byte} (hn : 8 ≤ n) (hlen : bs.length = 8)
    (h : m.Holds 0 bs) (hne : bs ≠ signature) : containerParse m n = raise { kind := .badSignature } := by
  have hread : memRead m 0 8 = .ok bs := hlen ▸ memRead_of_holds h
  rw [containerParse, checkSignature, failIf_neg (Nat.not_lt.2 hn), cmd_bind_ok, hread, cmd_bind_ok, failIf_pos hne,
    cmd_bind_error, raise_eq]

section
variable {m : Memory} {n : Nat} {l : List Chunk} (hl : ∀ c ∈ l, isValid c.type = true ∧ c.payload.length < 2 ^ 32)
  (h : m.Holds 0 (stream l))
include hl h

/-- R202: after the stream of valid chunks the loop goes on, with fuel for one more iteration at least. -/
theorem containerParse_eq_loop (hn : (stream l).length ≤ n) :
    containerParse m n = containerLoop m n (n + 1) (stream l).length l := by
  rw [containerParse_stream l (fun c hc => (hl c hc).1) (fun c hc => (hl c hc).2) hn h]
  exact containerLoop_fuel _ _ _ _ _ _ (by omega) (by omega)

theorem containerParse_stream_end (hn : n = (stream l).length) : containerParse m n = .ok l := by
  rw [containerParse_eq_loop hl h hn.ge, containerLoop_succ, if_neg hn.not_gt]

theorem containerParse_stream_trailing (hpos : (stream l).length < n) (hshort : n - (stream l).length < 12) :
    containerParse m n = raise
      { kind := .unexpectedTrailingBytes, a := word (n - (stream l).length), pos := word (stream l).length,
        index := word l.length, flags := ⟨true, false, 0⟩ } := by
  rw [containerParse_eq_loop hl h hpos.le, containerLoop_succ, if_pos hpos, if_pos hshort]

/-- R202: what stops the next record stops the parse, annotated if it is an error. -/
theorem containerParse_stream_error {x : Stop} (hn : 12 ≤ n - (stream l).length)
    (hx : chunkParse m (stream l).length (n - (stream l).length) = .error x) :
    containerParse m n = .error (annotate (stream l).length l.length x) := by
  rw [containerParse_eq_loop hl h (by omega), containerLoop_succ, if_pos (by omega), if_neg (by omega), hx]

end

/-- Settles O24: the two ways in which the signature fails, and the loop's next iteration after the records of `l`. -/
theorem containerParseByCases : Obligations.ContainerParseByCases := by
  intro s n
  refine ⟨containerParse_of_short, fun k hk hn => containerParse_of_unwritten_signature hn hk,
    fun bs => containerParse_of_other_signature, fun l hl hin => ?_⟩
  exact ⟨containerParse_stream_end hl hin, containerParse_stream_trailing hl hin,
    fun e => containerParse_stream_error hl hin, fun f => containerParse_stream_error hl hin⟩

/-! ### PNG_CLEAR, PNG_COUNT and PNG_GET (R203, R210, R211) -/

/-- Settles O34: each command writes one part. -/
theorem clearAndCount : Obligations.ClearAndCount := by
  refine ⟨decode_encode .pngClear, decode_encode .pngCount, fun s => ⟨?clear, fun hlen => ?count⟩⟩
  case clear => exact succeeds_of_commit rfl rfl (writesOnly_writeCl s []) rfl
  case count => exact succeeds_of_commit rfl rfl (writesOnly_writeResult s _) ⟨toNat_word hlen, rfl⟩

/-- R211: PNG_GET by what CL holds at the index. -/
theorem exec_pngGet (s : State) :
    exec .pngGet s = commit s (s.cl[s.arg.toNat]?.elim
      (raise { kind := .indexOutOfRange, a := s.arg, b := word s.cl.length }) fun c => .ok (s.writeCr c)) := by
  rw [exec, execPngGet, argIndex]
  cases s.cl[s.arg.toNat]? <;> rfl

/-- Settles O35: CL has an element at ARG, or none. -/
theorem pngGetResult : Obligations.PngGetResult := by
  refine ⟨decode_encode .pngGet, fun s => ⟨fun c hc => ?inside, fun hle => ?beyond⟩⟩
  case inside => exact succeeds_of_commit (exec_pngGet s) (by rw [hc]; rfl) (writesOnly_writeCr s c) ⟨rfl, rfl⟩
  case beyond =>
    exact failsWith_of_commit (exec_pngGet s) (by rw [List.getElem?_eq_none hle]; rfl)

/-! ### PNG_SERIALIZE (R205) and PNG_APPEND (R206) -/

/-- Settles O37: the output of the stream of CL. -/
theorem pngSerializeResult : Obligations.PngSerializeResult :=
  ⟨decode_encode .pngSerialize, fun s hcap => emit_result (i := .pngSerialize) (s := s) rfl hcap⟩

/-- Settles O36: the checks of R206 in their order. -/
theorem pngAppendResult : Obligations.PngAppendResult := by
  refine ⟨decode_encode .pngAppend, fun s hwf => ⟨failsWith_noChunkOperand rfl, fun hcr =>
    ⟨fun hfull => ?full, fun hcount => ⟨fun hlarge => ?large, fun hstore => ?ok⟩⟩⟩⟩
  case full =>
    exact failsWith_of_commit rfl
      (by rw [operandCr_of_valid hcr, cmd_bind_ok, checkCapacity_of_lt hfull, cmd_bind_error]; rfl)
  case large =>
    exact failsWith_of_commit rfl (by rw [operandCr_of_valid hcr, cmd_bind_ok, checkCapacity_of_le hcount, cmd_bind_ok,
      checkCapacity_of_lt hlarge, cmd_bind_error]; rfl)
  case ok =>
    obtain ⟨-, -, -, -, -, hchunks, -⟩ := config_bounds hwf
    exact succeeds_of_commit (u := (s.writeCl (s.cl ++ [s.cr])).writeResult (word (s.cl.length + 1))) rfl
      (by rw [operandCr_of_valid hcr, cmd_bind_ok, checkCapacity_of_le hcount, cmd_bind_ok, checkCapacity_of_le hstore,
        cmd_bind_ok, cmd_pure]) (writesOnly_cl_result s _ _) ⟨rfl, toNat_word (by omega)⟩

/-! ### PNG_PARSE (R204) -/

/-- R204: PNG_PARSE after the check of IN_LEN. -/
theorem exec_pngParse_of_le {s : State} (hcap : s.inLen.toNat ≤ s.cfg.inCap) :
    exec .pngParse s = commit s (do
      let list ← containerParse s.inBuf s.inLen.toNat
      checkCapacity 2 list.length s.cfg.maxChunks
      checkCapacity 3 (storeBytes list) s.cfg.storeCap
      return (s.writeCl list).writeResult (word list.length)) := by
  rw [exec, execPngParse, inputLength_of_le hcap, cmd_bind_ok]

/-- R47: a list that was parsed has fewer than 2^32 chunks and payload bytes, since IN_LEN counts more. -/
theorem parsed_lt {m : Memory} {n : Word} {l : List Chunk} (h : containerParse m n.toNat = .ok l) :
    l.length < 2 ^ 32 ∧ storeBytes l < 2 ^ 32 := by
  obtain ⟨-, hlen, -⟩ := containerParse_eq_ok h
  have hstream := stream_length l
  have hn := n.isLt
  omega

/-- R204: PNG_PARSE of an input that `container_parse` accepts, with a list that fits the chunk store. -/
theorem pngParse_of_ok {s : State} {l : List Chunk} (hcap : s.inLen.toNat ≤ s.cfg.inCap)
    (hl : containerParse s.inBuf s.inLen.toNat = .ok l) (hcount : l.length ≤ s.cfg.maxChunks)
    (hstore : storeBytes l ≤ s.cfg.storeCap) :
    Succeeds .pngParse s [.cl, .result] fun t => t.cl = l ∧ t.result.toNat = l.length :=
  succeeds_of_commit (u := (s.writeCl l).writeResult (word l.length)) (exec_pngParse_of_le hcap)
    (by rw [hl, cmd_bind_ok, checkCapacity_of_le hcount, cmd_bind_ok, checkCapacity_of_le hstore, cmd_bind_ok, cmd_pure])
    (writesOnly_cl_result s _ _) ⟨rfl, toNat_word (parsed_lt hl).1⟩

/-- Settles O38: the checks of R204 in their order, around `container_parse`. -/
theorem pngParseResult : Obligations.PngParseResult := by
  refine ⟨decode_encode .pngParse, fun s _ => ⟨fun hlarge => ?capacity, fun hcap =>
    ⟨fun e he => ?error, fun f hf => ?fault, fun l hl =>
      ⟨fun hcount => ?count, fun hcount hstore => ?store, pngParse_of_ok hcap hl⟩⟩⟩⟩
  case capacity =>
    exact failsWith_of_commit rfl (by rw [inputLength_of_lt hlarge, cmd_bind_error, capacityError_inLen])
  case error => exact failsWith_of_commit (exec_pngParse_of_le hcap) (by rw [he, cmd_bind_raise])
  case fault => exact modelFaults_of_commit (exec_pngParse_of_le hcap) (by rw [hf, cmd_bind_error])
  all_goals obtain ⟨hlength, hbytes⟩ := parsed_lt hl
  case count =>
    exact failsWith_of_commit (exec_pngParse_of_le hcap) (by rw [hl, cmd_bind_ok, checkCapacity_of_lt hcount,
      cmd_bind_error, capacityError, sat32_of_lt hlength])
  case store =>
    exact failsWith_of_commit (exec_pngParse_of_le hcap) (by rw [hl, cmd_bind_ok, checkCapacity_of_le hcount,
      cmd_bind_ok, checkCapacity_of_lt hstore, cmd_bind_error, capacityError, sat32_of_lt hbytes])

/-- The input is the stream of a list of valid chunks that fits MAX_CHUNKS and STORE_CAP. -/
def InputIsStream (s : State) (l : List Chunk) : Prop :=
  (∀ c ∈ l, isValid c.type = true) ∧ InputIs s (stream l) ∧ l.length ≤ s.cfg.maxChunks ∧
    storeBytes l ≤ s.cfg.storeCap

/-- R202, R204: PNG_PARSE accepts such an input. -/
theorem InputIsStream.pngParse {s : State} {l : List Chunk} (h : InputIsStream s l) (hwf : s.cfg.wf = true) :
    Succeeds .pngParse s [.cl, .result] fun t => t.cl = l ∧ t.result.toNat = l.length := by
  obtain ⟨hv, ⟨hlen, hcap, hholds⟩, hcount, hstore⟩ := h
  obtain ⟨-, -, -, -, -, -, hstoreCap⟩ := config_bounds hwf
  have hl : ∀ c ∈ l, isValid c.type = true ∧ c.payload.length < 2 ^ 32 := fun c hc =>
    ⟨hv c hc, (payload_le_storeBytes hc).trans_lt (hstore.trans_lt hstoreCap)⟩
  exact pngParse_of_ok (hlen ▸ hcap) (containerParse_stream_end hl hholds hlen) hcount hstore

/-- R202, R204: PNG_PARSE computes a success from such an input only, and takes its list into CL. -/
theorem exec_pngParse_eq_commit (s : State) :
    ∃ r, exec .pngParse s = commit s r ∧
      ∀ u, r = .ok u → ∃ l, InputIsStream s l ∧ u = (s.writeCl l).writeResult (word l.length) := by
  refine ⟨_, rfl, fun u hu => ?_⟩
  obtain ⟨n, hn, hu⟩ := cmd_bind_eq_ok hu
  obtain ⟨rfl, hcap⟩ := inputLength_eq_ok hn
  obtain ⟨l, hl, hu⟩ := cmd_bind_eq_ok hu
  obtain ⟨_, hcount, hu⟩ := cmd_bind_eq_ok hu
  obtain ⟨_, hstore, hu⟩ := cmd_bind_eq_ok hu
  obtain ⟨hv, hlen, hholds⟩ := containerParse_eq_ok hl
  exact ⟨l, ⟨fun c hc => (hv c hc).1, ⟨hlen.symm, hlen ▸ hcap, hholds⟩, checkCapacity_eq_ok hcount,
    checkCapacity_eq_ok hstore⟩, (Except.ok.inj hu).symm⟩

/-- Settles O39: `exec_pngParse_eq_commit` and `InputIsStream.pngParse` are the two directions. -/
theorem pngParseAcceptsExactlyStreams : Obligations.PngParseAcceptsExactlyStreams := by
  refine fun s l hfault hwf => ⟨fun h => ?parsed, fun h => ?stream⟩
  case parsed =>
    obtain ⟨r, hr, hok⟩ := exec_pngParse_eq_commit s
    obtain ⟨u, hu, hcl⟩ := ok_of_succeeds hr hfault h
    obtain ⟨l', hl', rfl⟩ := hok u hu
    obtain rfl : l' = l := hcl
    exact hl'
  case stream => exact (InputIsStream.pngParse h hwf).imp fun _ ht => ht.1

/-! ### The round trip of a container (R212) -/

theorem stream_length_eq_sum (l : List Chunk) :
    (stream l).length = 8 + (l.map fun c => 12 + c.payload.length).sum := by
  simp [stream, signature_length, List.length_flatMap]

/-- The input of a command is one sequence. -/
theorem InputIs.unique {s : State} {bs cs : List Byte} (hb : InputIs s bs) (hc : InputIs s cs) : bs = cs := by
  obtain ⟨hlenb, -, hholdsb⟩ := hb
  obtain ⟨hlenc, -, hholdsc⟩ := hc
  have hread := memRead_of_holds hholdsb
  rw [← hlenb, hlenc, memRead_of_holds hholdsc] at hread
  exact (Except.ok.inj hread).symm

/-- Settles O42: the copied output is the stream of CL, which PNG_PARSE accepts; and what PNG_PARSE accepts is the stream
of the list that it leaves in CL. -/
theorem containerRoundTrip : Obligations.ContainerRoundTrip := by
  refine ⟨fun s hwf hv hcount hstore hfits => ?there, fun s t input hwf hin hout ht herr hnone hs => ?back⟩
  case there =>
    rw [← stream_length_eq_sum] at hfits
    obtain ⟨houtCap, hinCap⟩ := le_min_iff.1 hfits
    obtain ⟨-, -, -, hcap, -⟩ := config_bounds hwf
    have hout : OutIs (s.writeOut (stream s.cl)).completeOk (stream s.cl) := outIs_writeOut (by omega)
    refine ⟨_, congrArg (commit s) (emit_of_le houtCap), fun s₂ hcopy => ?_⟩
    have hcfg : s₂.cfg = s.cfg := (congrArg State.cfg hcopy.1).trans rfl
    have hstream : InputIsStream s₂ s.cl :=
      ⟨hv, inputIs_of_copiedOut hout hcopy hinCap, hcfg ▸ hcount, hcfg ▸ hstore⟩
    exact hstream.pngParse (hcfg ▸ hwf)
  case back =>
    obtain ⟨-, -, -, hcap, -⟩ := config_bounds hwf
    obtain ⟨r, hr, hok⟩ := exec_pngParse_eq_commit s
    obtain ⟨u, hu, rfl⟩ := ok_of_commit (hr ▸ ht) hs hnone herr
    obtain ⟨l, ⟨-, hstream, -⟩, rfl⟩ := hok u hu
    obtain rfl := hin.unique hstream
    exact (emit_result (i := .pngSerialize) (s := ((s.writeCl l).writeResult _).completeOk) rfl hcap).1 hout

/-! ### PNG_CHUNK_BY_TYPE (R208) and PNG_REMOVE (R209) -/

theorem query_of_lt {s : State} (h : s.cfg.inCap < s.inLen.toNat) :
    query s = .error (.raise { kind := .capacityExceeded, a := s.inLen, b := word s.cfg.inCap }) := by
  rw [query, inputLength_of_lt h, cmd_bind_error, capacityError_inLen]

/-- R207: the first match, where a list is split at the first chunk of the queried type. -/
theorem firstMatch_of_split {l before after : List Chunk} {c : Chunk} {q : Bytes4} (hl : l = before ++ c :: after)
    (hbefore : ∀ d ∈ before, d.type ≠ q) (hc : c.type = q) :
    firstMatch l (some q) = some before.length ∧ l[before.length]? = some c := by
  subst hl
  exact ⟨firstMatch_eq_length hbefore hc, by simp⟩

section
variable {s : State}

section
variable {q : Option Bytes4} (hq : query s = .ok q) (hnone : firstMatch s.cl q = none)
include hq hnone

theorem pngChunkByType_of_no_match :
    Succeeds .pngChunkByType s [.result, .aux] fun t => t.result = 0 ∧ t.aux = 0 :=
  succeeds_of_commit rfl (by rw [hq, cmd_bind_ok, hnone]; rfl) (writesOnly_result_aux s 0 0) ⟨rfl, rfl⟩

theorem pngRemove_of_no_match : FailsWith .pngRemove s (chunkNotFound s q) :=
  failsWith_of_commit rfl (by rw [hq, cmd_bind_ok, hnone]; rfl)

end

variable {q : Bytes4} {before after : List Chunk} {c : Chunk} (hq : query s = .ok (some q))
  (hcl : s.cl = before ++ c :: after) (hbefore : ∀ d ∈ before, d.type ≠ q) (hc : c.type = q)
include hq hcl hbefore hc

/-- R208: the look-up of a type, where `c` is the first chunk of that type. -/
theorem pngChunkByType_of_match :
    Succeeds .pngChunkByType s [.cr, .result, .aux] fun t =>
      t.cr = c ∧ t.status.crValid = true ∧ t.result = 1 ∧ t.aux = word before.length := by
  obtain ⟨hmatch, hget⟩ := firstMatch_of_split hcl hbefore hc
  exact succeeds_of_commit (u := ((s.writeCr c).writeResult 1).writeAux (word before.length)) rfl
    (by simp only [hq, cmd_bind_ok, hmatch, hget, cmd_pure]) (writesOnly_chunk_result_aux s _ _ _) ⟨rfl, rfl, rfl, rfl⟩

/-- R209: the removal of a type, where `c` is the first chunk of that type. -/
theorem pngRemove_of_match :
    Succeeds .pngRemove s [.cl, .cr, .result, .aux] fun t =>
      t.cr = c ∧ t.status.crValid = true ∧ t.cl = before ++ after ∧ t.result = word before.length ∧
      t.aux = word t.cl.length := by
  obtain ⟨hmatch, hget⟩ := firstMatch_of_split hcl hbefore hc
  have herase : s.cl.eraseIdx before.length = before ++ after := by
    rw [hcl, List.eraseIdx_append_of_length_le le_rfl, Nat.sub_self, List.eraseIdx_cons_zero]
  exact succeeds_of_commit
    (u := (((s.writeCr c).writeCl (before ++ after)).writeResult (word before.length)).writeAux
      (word (before ++ after).length)) rfl
    (by simp only [hq, cmd_bind_ok, hmatch, hget, herase, cmd_pure]) (writesOnly_cl_chunk_result_aux s _ _ _ _)
    ⟨rfl, rfl, rfl, rfl, rfl⟩

end

/-- Settles O40: what the query answers, and then R207's first match. -/
theorem pngChunkByTypeResult : Obligations.PngChunkByTypeResult := by
  refine ⟨decode_encode .pngChunkByType, fun s => ⟨fun hcap => ?capacity, fun hcap h4 => ?length, fun q hin =>
    ⟨fun hnone => ?noMatch, fun before c after hcl hbefore hc hlen => ?found⟩, fun k hk h4 hcap hnone => ?unwritten⟩⟩
  case capacity => exact failsWith_of_commit rfl (by rw [query_of_lt hcap, cmd_bind_error])
  case length => exact pngChunkByType_of_no_match (query_of_other_length hcap h4) rfl
  case noMatch => exact pngChunkByType_of_no_match (query_of_inputIs hin) (firstMatch_eq_none hnone)
  case found =>
    exact (pngChunkByType_of_match (query_of_inputIs hin) hcl hbefore hc).imp fun t ⟨hcr, hvalid, hresult, haux⟩ =>
      ⟨hcr, hvalid, hresult, by rw [haux, toNat_word hlen]⟩
  case unwritten =>
    exact modelFaults_of_commit rfl (by rw [query_of_unwritten hcap hnone h4 hk, cmd_bind_error])

/-- Settles O41: what the query answers, and then R207's first match. -/
theorem pngRemoveResult : Obligations.PngRemoveResult := by
  refine ⟨decode_encode .pngRemove, fun s => ⟨fun hcap => ?capacity, fun hcap h4 => ?length, fun q hin =>
    ⟨fun hnone => ?noMatch, fun before c after hcl hbefore hc hlen => ?found⟩, fun k hk h4 hcap hnone => ?unwritten⟩⟩
  case capacity => exact failsWith_of_commit rfl (by rw [query_of_lt hcap, cmd_bind_error])
  case length => exact pngRemove_of_no_match (query_of_other_length hcap h4) rfl
  case noMatch =>
    have hfour : s.inLen = 4 := BitVec.eq_of_toNat_eq hin.1
    have hfail := pngRemove_of_no_match (query_of_inputIs hin) (firstMatch_eq_none hnone)
    rwa [chunkNotFound, hfour] at hfail
  case found =>
    have hcount : s.cl.length = (before ++ after).length + 1 := by
      rw [hcl, List.length_append, List.length_cons, List.length_append, Nat.add_assoc]
    have hpart : before.length ≤ (before ++ after).length := by simp
    refine (pngRemove_of_match (query_of_inputIs hin) hcl hbefore hc).imp fun t ⟨hcr, hvalid, hlist, hresult, haux⟩ =>
      ⟨hcr, hvalid, hlist, ?_, ?_, ?_⟩
    · rw [hresult, toNat_word (by omega)]
    · rw [haux, hlist, toNat_word (by omega)]
    · rw [hlist, hcount]
  case unwritten =>
    exact modelFaults_of_commit rfl (by rw [query_of_unwritten hcap hnone h4 hk, cmd_bind_error])

/-! ### The look-up of an appended chunk (R213) -/

/-- R206: where PNG_APPEND leaves ERR = 0, it has appended CR. -/
theorem cl_of_pngAppend {s t : State} (hwf : s.cfg.wf = true) (ht : exec .pngAppend s = .next t)
    (herr : t.status.err = false) : t.cl = s.cl ++ [s.cr] := by
  have hno {e : ErrorInfo} (h : FailsWith .pngAppend s e) : False := Bool.eq_false_iff.1 herr (h.err ht)
  obtain ⟨-, happend⟩ := pngAppendResult
  obtain ⟨hempty, hvalid⟩ := happend s hwf
  cases hcr : s.status.crValid with
  | false => exact (hno (hempty hcr)).elim
  | true =>
    obtain ⟨hfull, hroom⟩ := hvalid hcr
    have hcount := Nat.not_lt.1 fun h => hno (hfull h)
    obtain ⟨hlarge, hok⟩ := hroom hcount
    exact ((hok (Nat.not_lt.1 fun h => hno (hlarge h))).post ht).1

/-- Settles O43: CR stands at the end of CL, after every chunk that was there. -/
theorem appendThenLookUp : Obligations.AppendThenLookUp := by
  intro s t u hwf ht herr hu hin
  have hcl : u.cl = s.cl ++ [s.cr] := (congrArg State.cl hu).trans (cl_of_pngAppend (t := t) hwf ht herr)
  have hquery := query_of_inputIs hin
  refine ⟨fun hnew => ?appended, fun before c after hs hbefore hc => ?earlier⟩
  case appended =>
    exact (pngChunkByType_of_match hquery hcl hnew rfl).imp fun _ ⟨hcr, _, hresult, _⟩ => ⟨hresult, hcr⟩
  case earlier =>
    have hsplit : u.cl = before ++ c :: (after ++ [s.cr]) := by rw [hcl, hs, List.append_assoc, List.cons_append]
    exact (pngChunkByType_of_match hquery hsplit hbefore hc).imp fun _ ⟨hcr, _, hresult, _⟩ => ⟨hresult, hcr⟩

end Sys2Proof.Machine
end

section
/-!
PROOFS. The statements of the family 60_exceptions: the framer's step on a pending word (R251, R255) and the polling that
comes to it (R86, R293), the three ways in which a command ends (R252, R253, R260) with the refusals that come before its
rule (R256, R257), HostFault (R262), and the faulted machine (R263).
-/
namespace Sys2Proof.Machine

/-! ### The three ways in which a command ends -/

/-- Settles O8: every command is the commit of an outcome that keeps to R84 (`exec_eq_commit`), and an outcome is one of
three. -/
theorem everyCommandIsAllOrNothing : Obligations.EveryCommandIsAllOrNothing := by
  intro i s
  obtain ⟨r, hr, hwrites, hfault⟩ := exec_eq_commit i s
  match r with
  | .ok u => exact .inl (succeeds_of_commit hr rfl (hwrites u rfl) trivial)
  | .error (.raise e) => exact .inr (.inl ⟨e, failsWith_of_commit hr rfl⟩)
  | .error (.fault f) =>
    obtain rfl := hfault f rfl
    exact .inr (.inr (modelFaults_of_commit hr rfl))

/-! ### Refusals that come before a command's rule -/

/-- R256, kind 0: the check that comes before any read of IN, with the registers that its error fills. -/
theorem inputLength_of_beyond {s : State} (hcap : s.cfg.inCap < s.inLen.toNat) :
    inputLength s = .error (.raise { kind := .capacityExceeded, a := s.inLen, b := word s.cfg.inCap }) := by
  rw [inputLength_of_lt hcap, capacityError_inLen]

/-- A command whose first operand is refused ends with that error. -/
theorem failsWith_of_operand {i : Instr} {s : State} {α : Type} {x : Except Stop α} {f : α → Except Stop State}
    {e : ErrorInfo} (hexec : exec i s = commit s (x >>= f)) (hx : x = .error (.raise e)) : FailsWith i s e :=
  failsWith_of_commit hexec (by rw [hx, cmd_bind_error])

/-- Settles O10: each form in which a command reads IN begins with the check of IN_LEN. -/
theorem inputBeyondCapacityIsRefused : Obligations.InputBeyondCapacityIsRefused := by
  intro s hcap
  have hlength := inputLength_of_beyond hcap
  refine ⟨?first, fun htr => ?afterTr⟩
  case first =>
    have hquery := query_of_lt hcap
    simp only [List.forall_mem_cons]
    exact ⟨failsWith_of_operand rfl (by rw [inTypeString, hlength, cmd_bind_error]), failsWith_of_operand rfl hlength,
      failsWith_of_operand rfl hlength, failsWith_of_operand rfl hquery, failsWith_of_operand rfl hquery, nofun⟩
  case afterTr =>
    exact failsWith_of_commit rfl
      (by rw [operandTr_of_valid htr, cmd_bind_ok, inPayload, hlength, cmd_bind_error, cmd_bind_error])

/-- Settles O9: each of the commands begins by reading the register. -/
theorem emptyOperandRegisterIsRefused : Obligations.EmptyOperandRegisterIsRefused := by
  refine fun s => ⟨fun htr i hi => ?noType, fun hcr i hi => ?noChunk⟩
  case noType => fin_cases hi <;> exact failsWith_noTypeOperand rfl htr
  case noChunk => fin_cases hi <;> exact failsWith_noChunkOperand rfl hcr

/-! ### HostFault -/

/-- R262: an access that keeps to the protocol raises no model fault. -/
theorem fault_of_legal {s : State} {a : HostAccess} (h : ¬ Violates s a) : (access a s).fault = s.fault := by
  rcases access_cases a s with ⟨hread, -⟩ |
      ⟨-, -, ⟨w, -, hw⟩ | ⟨w, -, hw⟩ | ⟨w, -, hw⟩ | ⟨i, b, -, -, hb⟩⟩ | ⟨hbad, -⟩
  · exact (congrArg State.fault (sameBlock_legalRead hread h)).symm
  · rw [hw, State.submit_fault]
  · rw [hw]
  · rw [hw]
  · rw [hb]
  · exact absurd hbad h

/-- Settles O48: a violation adds HostFault alone (`access_of_violates`), and any other access keeps FAULT. -/
theorem hostFaultExactlyOnViolation : Obligations.HostFaultExactlyOnViolation := by
  intro s a
  by_cases h : Violates s a
  · rw [access_of_violates h, State.hostFault_fault]
    exact ⟨iff_of_true rfl (.inr h), rfl⟩
  · rw [fault_of_legal h]
    exact ⟨(or_iff_left h).symm, rfl⟩

/-! ### The faulted machine -/

/-- What the host's events other than reset leave of the block: they write the registers that the host may write and IN,
and they may raise HostFault and submit a word, which PENDING and BUSY then show (R21, R22, R30, R42, R262). -/
def HostChanges (s t : State) : Prop :=
  t = { s with
    cmd := t.cmd, arg := t.arg, inLen := t.inLen, inBuf := t.inBuf, pending := t.pending, fault := t.fault, env := t.env,
    status := { s.status with busy := t.status.busy } } ∧
  ((t.pending = s.pending ∧ t.status.busy = s.status.busy) ∨ (s.status.busy = false ∧ t.pending ≠ none))

theorem hostChanges_access (a : HostAccess) (s : State) : HostChanges s (access a s) := by
  rcases access_cases a s with ⟨-, v, hv | ⟨-, hv⟩⟩ |
      ⟨-, hbusy, ⟨w, -, hw⟩ | ⟨w, -, hw⟩ | ⟨w, -, hw⟩ | ⟨i, b, -, -, hb⟩⟩ | ⟨-, hf⟩
  · rw [hv]; exact ⟨rfl, .inl ⟨rfl, rfl⟩⟩
  · rw [hv]; exact ⟨rfl, .inl ⟨rfl, rfl⟩⟩
  · rw [hw]; exact ⟨rfl, .inr ⟨hbusy, nofun⟩⟩
  · rw [hw]; exact ⟨rfl, .inl ⟨rfl, rfl⟩⟩
  · rw [hw]; exact ⟨rfl, .inl ⟨rfl, rfl⟩⟩
  · rw [hb]; exact ⟨rfl, .inl ⟨rfl, rfl⟩⟩
  · rw [hf]; exact ⟨rfl, .inl ⟨rfl, rfl⟩⟩

theorem hostChanges_hostEvent {e : HostEvent} (rest : List HostEvent) (s : State) (he : e ≠ .reset) :
    HostChanges s (hostEvent e rest s) := by
  rcases hostEvent_cases e rest s with ⟨a, rest', ha⟩ | ⟨script, hs⟩ | ⟨hr, -⟩
  · rw [ha]; exact hostChanges_access a (s.advance rest')
  · rw [hs]; exact ⟨rfl, .inl ⟨rfl, rfl⟩⟩
  · exact absurd hr he

/-- R263, U16: a step of a faulted machine is the host's next event. -/
theorem step_of_faulted {s t : State} (ht : step s = .next t) (hf : ¬ NoFault s) :
    ∃ e rest, s.env.script = e :: rest ∧ t = hostEvent e rest s := by
  rcases step_cases ht with ⟨w, -, hmoves, -⟩ | ⟨e, rest, hscript, -, he⟩ | ⟨-, -, hempty, -⟩
  · obtain ⟨-, hn, -⟩ := framerMoves_iff.1 hmoves
    exact absurd hn hf
  · exact ⟨e, rest, hscript, he⟩
  · exact absurd (FaultSet.isEmpty_iff.1 hempty) hf

/-- Settles O58: the step is a host event other than reset, which completes nothing (`HostChanges`). -/
theorem faultedMachineCompletesNothing : Obligations.FaultedMachineCompletesNothing := by
  intro s t ht hf hreset
  obtain ⟨e, rest, hscript, he⟩ := step_of_faulted ht hf
  have hne : e ≠ .reset := by
    rintro rfl
    exact hreset (by rw [hscript, List.head?_cons])
  obtain ⟨hframe, hpending⟩ : HostChanges s t := he ▸ hostChanges_hostEvent rest s hne
  refine ⟨fun w hw hbusy => ?pending, fun hnone => ?idle, ?frame⟩
  case pending =>
    rcases hpending with ⟨hp, hb⟩ | ⟨hidle, -⟩
    · exact ⟨hp.trans hw, by rw [hframe, hb]⟩
    · rw [hbusy] at hidle
      cases hidle
  case idle =>
    rcases hpending with ⟨hp, -⟩ | ⟨-, hsome⟩
    · exact hp.symm.trans hnone
    · exact absurd hnone hsome
  case frame =>
    rw [hframe]
    exact ⟨rfl, rfl, rfl, rfl, rfl, rfl, rfl, rfl, rfl, rfl, rfl, rfl, rfl⟩

/-! ### The framer's step on a pending word -/

section
variable {s : State} {w : Word} (hw : s.pending = some w) (hn : NoFault s)
include hw hn

/-- R251, R293: the step on a word that is due is the framer's. -/
theorem step_eq_framerStep (hdue : s.env.wait = 0 ∨ s.env.script = []) : step s = framerStep w s := by
  have hmoves : framerMoves s = true := framerMoves_iff.2 ⟨by simp [hw], hn, hdue⟩
  simp [step, hw, hmoves]

theorem step_eq_exec {i : Instr} (hi : decode w = .ok i) (hdue : s.env.wait = 0 ∨ s.env.script = []) :
    step s = exec i s := by
  rw [step_eq_framerStep hw hn hdue, framerStep, hi]

end

/-- R86, R293: while the word's time has not passed and the host polls, a step is one more read of STATUS. -/
theorem step_polling {s : State} {rest : List HostEvent} (hbusy : s.status.busy = true)
    (hscript : s.env.script = .poll :: rest) (hwait : s.env.wait ≠ 0) :
    step s = .next ((s.advance (.poll :: rest)).answer s.status.toWord) := by
  have hmore : s.env.script ≠ [] := by simp [hscript]
  rw [step_eq_hostStep (.inr (.inr ⟨hwait, hmore⟩)), hostStep_cons hscript, hostEvent, hbusy, if_pos rfl,
    access_readReg (.inr rfl)]
  rfl

/-- R86, R293: polling comes to the time of the framer's step, and only the outside world changes until then. -/
theorem runsTo_due_of_polling {s : State} {rest : List HostEvent} (hbusy : s.status.busy = true)
    (hscript : s.env.script = .poll :: rest) :
    ∃ env, env.script = .poll :: rest ∧ env.wait = 0 ∧ RunsTo s (s.withEnv env) := by
  induction hwait : s.env.wait generalizing s with
  | zero => exact ⟨s.env, hscript, hwait, .refl⟩
  | succ n ih =>
    have hstep := step_polling hbusy hscript (by omega)
    obtain ⟨env, hpoll, hdue, hrun⟩ :=
      ih (s := (s.advance (.poll :: rest)).answer s.status.toWord) hbusy rfl (by simp [hwait])
    exact ⟨env, hpoll, hdue, .head hstep hrun⟩

/-- Settles O3: a due word is the framer's (`step_eq_exec`), and polling comes to its time (`runsTo_due_of_polling`). -/
theorem stepRunsThePendingCommand : Obligations.StepRunsThePendingCommand := by
  refine fun s w i hw hn hi => ⟨step_eq_exec hw hn hi, fun rest hbusy hscript => ?_⟩
  obtain ⟨env, hpoll, hdue, hrun⟩ := runsTo_due_of_polling hbusy hscript
  obtain ⟨k, hk⟩ := hrun.exists_run
  exact ⟨k, s.withEnv env, hk, rfl, hpoll, step_eq_exec (s := s.withEnv env) hw hn hi (.inl hdue)⟩

/-- R80, R84, R85: the word of a command has its reserved bits clear and an assigned opcode. -/
theorem encode_wf (i : Instr) : (encode i).toNat < 0x100 ∧ opcodeAssigned ((encode i).toNat % 0x100) = true := by
  cases i <;> decide

/-- R81, R82: a word with a reserved bit set, or with a reserved opcode, is no command. -/
theorem decode_eq_error_of_illegal {w : Word} (h : 0x100 ≤ w.toNat ∨ opcodeAssigned (w.toNat % 0x100) = false) :
    ∃ d, decode w = .error d := by
  cases hd : decode w with
  | error d => exact ⟨d, rfl⟩
  | ok i =>
    obtain rfl := decode_eq_ok_iff.1 hd
    obtain ⟨hclear, hassigned⟩ := encode_wf i
    rcases h with hset | hreserved
    · omega
    · rw [hassigned] at hreserved
      cases hreserved

/-- Settles O4: the framer's step on such a word is an error completion. -/
theorem illegalWordCompletesWithIllegalCommand : Obligations.IllegalWordCompletesWithIllegalCommand := by
  intro s w hw hn hdue hillegal
  obtain ⟨d, hd⟩ := decode_eq_error_of_illegal hillegal
  have hstep : step s = .next (s.completeErr (illegalCommand w)) := by
    rw [step_eq_framerStep hw hn hdue, framerStep, hd]
    exact commit_raise' s (illegalCommand w)
  exact ⟨_, hstep, by simp [Finished], by simp [ShowsError, illegalCommand],
    by simp [KeepsInputs], fun p _ => agreeOn_completeErr p s _⟩

end Sys2Proof.Machine
end

section
/-!
PROOFS. The statements of the family 70_reset_and_hazards: the reset state (R281), and the reset input (R280, R282).
-/
namespace Sys2Proof.Machine

/-- R23, R281: STATUS reads 0 at reset, its reserved bits too. -/
theorem Status.toWord_reset : Status.reset.toWord = 0 := by decide

/-- R35, R281: ERR_FLAGS reads 0 where no flag is set. -/
theorem ErrFlags.toWord_clear : ErrFlags.toWord ⟨false, false, 0⟩ = 0 := by decide

/-- R32, R33: an empty chunk store has no chunks and no payload bytes to count. -/
theorem regView_of_cl_nil {s : State} (h : s.cl = []) : s.regView .nChunks = 0 ∧ s.regView .storeUsed = 0 := by
  simp [State.regView, storeBytes, word, h]

/-- Settles O45: the registers are the fields of `State.resetWith`, and the views and the buffers are those of empty
lists. -/
theorem resetValues : Obligations.ResetValues := by
  intro cfg env s
  obtain ⟨hcount, hused⟩ := regView_of_cl_nil (s := s) rfl
  exact ⟨rfl, rfl, Status.toWord_reset, rfl, rfl, rfl, rfl, rfl, rfl, ErrFlags.toWord_clear, rfl, rfl, hcount, hused,
    rfl, Memory.read?_nil, Memory.read?_nil, rfl, rfl, rfl, rfl, Config.default, Env.reset, by decide, rfl⟩

/-- R280, R282: the reset input discards the block's state, a pending word and FAULT among it, and keeps the parameters;
the outside world goes on. -/
theorem hostEvent_reset (rest : List HostEvent) (s : State) :
    hostEvent .reset rest s =
      State.resetWith s.cfg { s.env with script := rest, wait := 0, epoch := s.env.epoch + 1 } := rfl

/-- Settles O46: where the framer does not move, the step is the host's next event (`stepWithoutTheFramer`), and that is
the reset input. -/
theorem resetInputDiscardsEverything : Obligations.ResetInputDiscardsEverything := by
  intro s rest hscript hstill
  obtain ⟨hevent, -⟩ := stepWithoutTheFramer s
  have hstep := hevent .reset rest hscript hstill
  rw [hostEvent_reset] at hstep
  exact ⟨_, hstep, rfl, rfl⟩

end Sys2Proof.Machine
end
